-- ==== Sys2Proof/Word.lean ====
section
/-! DEFINITION. The word types of SPN-CORE: bytes, 32-bit and 64-bit words, byte strings (spec rules R7, R8). -/

namespace Sys2Proof

/-- A byte: an integer in 0..255 (rule R7). -/
abbrev Byte := BitVec 8

/-- A u32 (rule R8): a command word, a register, a SHA-256 word. -/
abbrev Word := BitVec 32

/-- A u64 (rule R8): the SHA-256 bit-length counter. -/
abbrev DWord := BitVec 64

/-- A byte string: a finite sequence of bytes (rule R7). -/
abbrev ByteString := List Byte

end Sys2Proof
end

