-- ==== Sys2Proof/Config.lean ====
section
/-! DEFINITION. The configuration of one SPN-CORE instance (rules R5, R6) and the open values of the hardware.

A `Config` carries the proof that rule R6 admits it, so a configuration that fails rule R6 cannot reach the
machine: `Config.accept` is the one check, and it refuses (answers `none`). The tables are plain data. What the
spec leaves OPEN without a default is an `opaque` constant with no body: no proof can see its value. -/

namespace Sys2Proof

/-- The parameters of rule R5 before rule R6 has been checked. -/
structure RawConfig where
  /-- `SBOX` (rule R170): entry x is the image of byte x. -/
  sbox : Vector Byte 256
  /-- `PBOX` (rule R172), in the gather form of rule R176: output bit p copies input bit `pbox[p]`. -/
  pbox : Vector (Fin 128) 128
  /-- `INV_SBOX` where it is supplied separately (rules R6, R171). -/
  invSboxSupplied : Option (Vector Byte 256)
  /-- `INV_PBOX` where it is supplied separately (rules R6, R173). -/
  invPboxSupplied : Option (Vector (Fin 128) 128)
  /-- `ITER_COUNT` (rule R146). -/
  iterCount : Nat
  /-- `HASH_CTX_COUNT` (decision D7). -/
  hashCtxCount : Nat
  /-- `CTR_WRAP` (decision D12). -/
  ctrWrap : Bool
  /-- `CTR_DEC_MIN_LEN_CHECK` (decision D13). -/
  ctrDecMinLenCheck : Bool
  /-- `MAX_OPERAND_LEN` (decision D4). -/
  maxOperandLen : Nat
  /-- Whether `CHAOS_GEN` is present (rule R243); its output is `Config.chaosByte`. -/
  chaosPresent : Bool
  /-- `REG_BASE` (rule R60): where the platform puts the register window. -/
  regBase : Nat
  deriving DecidableEq, Repr

/-- `SBOX` is a bijection on 0..255 (rule R6): 256 entries, none repeated. -/
abbrev RawConfig.SboxBijective (r : RawConfig) : Prop := r.sbox.toList.Nodup

/-- `PBOX` is a bijection on 0..127 (rule R6): 128 entries, none repeated. -/
abbrev RawConfig.PboxBijective (r : RawConfig) : Prop := r.pbox.toList.Nodup

/-- A separately supplied `INV_SBOX` satisfies `INV_SBOX[SBOX[x]] = x` for every x (rules R6, R171). -/
abbrev RawConfig.InvSboxMatches (r : RawConfig) : Prop :=
  ∀ t, r.invSboxSupplied = some t → ∀ x : Fin 256, t[(r.sbox[x]).toFin] = BitVec.ofFin x

/-- A separately supplied `INV_PBOX` satisfies `INV_PBOX[PBOX[i]] = i` for every i (rules R6, R173). -/
abbrev RawConfig.InvPboxMatches (r : RawConfig) : Prop :=
  ∀ t, r.invPboxSupplied = some t → ∀ i : Fin 128, t[r.pbox[i]] = i

/-- Rule R6 (with the bound `MAX_OPERAND_LEN <= 2^32 - 1` of rule R5): what a configuration must satisfy. -/
structure RawConfig.Admissible (r : RawConfig) : Prop where
  sbox : r.SboxBijective
  pbox : r.PboxBijective
  invSbox : r.InvSboxMatches
  invPbox : r.InvPboxMatches
  iter : 1 ≤ r.iterCount
  ctxLow : 1 ≤ r.hashCtxCount
  ctxHigh : r.hashCtxCount ≤ 16
  maxLen : r.maxOperandLen ≤ 2 ^ 32 - 1

/-- The check of rule R6 as one Bool. -/
def RawConfig.admissible (r : RawConfig) : Bool :=
  decide r.SboxBijective && decide r.PboxBijective
    && (match r.invSboxSupplied with
        | none => true
        | some t => decide (∀ x : Fin 256, t[(r.sbox[x]).toFin] = BitVec.ofFin x))
    && (match r.invPboxSupplied with
        | none => true
        | some t => decide (∀ i : Fin 128, t[r.pbox[i]] = i))
    && decide (1 ≤ r.iterCount) && decide (1 ≤ r.hashCtxCount) && decide (r.hashCtxCount ≤ 16)
    && decide (r.maxOperandLen ≤ 2 ^ 32 - 1)

/-- A configuration that rule R6 admits: the parameters with the check, done once. -/
structure Config extends RawConfig where
  ok : toRawConfig.admissible = true
  deriving DecidableEq, Repr

/-- Rule R6: "A model checks them once and refuses a configuration that fails any of them." -/
def Config.accept (r : RawConfig) : Option Config :=
  if h : r.admissible = true then some ⟨r, h⟩ else none

theorem RawConfig.admissible_iff (r : RawConfig) : r.admissible = true ↔ r.Admissible := by
  constructor
  · intro h
    simp only [RawConfig.admissible, Bool.and_eq_true, decide_eq_true_eq] at h
    obtain ⟨⟨⟨⟨⟨⟨⟨h1, h2⟩, h3⟩, h4⟩, h5⟩, h6⟩, h7⟩, h8⟩ := h
    refine ⟨h1, h2, ?_, ?_, h5, h6, h7, h8⟩
    · intro t ht
      rw [ht] at h3
      simpa using h3
    · intro t ht
      rw [ht] at h4
      simpa using h4
  · intro h
    simp only [RawConfig.admissible, Bool.and_eq_true, decide_eq_true_eq]
    refine ⟨⟨⟨⟨⟨⟨⟨h.sbox, h.pbox⟩, ?_⟩, ?_⟩, h.iter⟩, h.ctxLow⟩, h.ctxHigh⟩, h.maxLen⟩
    · cases ht : r.invSboxSupplied with
      | none => rfl
      | some t => simpa using h.invSbox t ht
    · cases ht : r.invPboxSupplied with
      | none => rfl
      | some t => simpa using h.invPbox t ht

/-! ## The open values of the hardware

Each is OPEN in 92_eei_decisions.md and has no default. They have no body, so a claim about the hardware holds
whatever they are. The S-box and P-box are bijections by their type (rules R170, R172). -/

/-- The hardware's `SBOX` (rule R170): some bijection on bytes, nothing more is known. -/
opaque Config.sboxPerm : Equiv.Perm Byte

/-- The hardware's `PBOX` (rule R172): some bijection on bit positions, nothing more is known. -/
opaque Config.pboxPerm : Equiv.Perm (Fin 128)

/-- The hardware's `MAX_OPERAND_LEN` (decision D4): some number at most 2^32 - 1. -/
opaque Config.maxOperandLenWord : Word

/-- The platform's `REG_BASE` (rule R60, decision D31). -/
opaque Config.platformRegBase : Nat

/-- Byte i of `CHAOS_GEN(seed, n)` (rule R243): a pure function of (seed, n), and nothing else is known. -/
opaque Config.chaosByte : ByteString → Nat → Nat → Byte

/-- The parameters of the hardware: the source's values, the decisions' defaults, and the open values above. -/
def RawConfig.hardware : RawConfig where
  sbox := Vector.ofFn fun x : Fin 256 => Config.sboxPerm (BitVec.ofFin x)
  pbox := Vector.ofFn fun p : Fin 128 => Config.pboxPerm p
  invSboxSupplied := none
  invPboxSupplied := none
  iterCount := 100000
  hashCtxCount := 1
  ctrWrap := false
  ctrDecMinLenCheck := true
  maxOperandLen := Config.maxOperandLenWord.toNat
  chaosPresent := false
  regBase := Config.platformRegBase

theorem RawConfig.hardware_admissible : RawConfig.hardware.admissible = true := by
  rw [RawConfig.admissible_iff]
  refine ⟨?_, ?_, ?_, ?_, ?_, ?_, ?_, ?_⟩
  · simp only [RawConfig.SboxBijective, RawConfig.hardware, Vector.toList_ofFn, List.nodup_ofFn]
    intro x y h
    exact BitVec.ofFin.inj (Config.sboxPerm.injective h)
  · simp only [RawConfig.PboxBijective, RawConfig.hardware, Vector.toList_ofFn, List.nodup_ofFn]
    exact Config.pboxPerm.injective
  · intro t h; cases h
  · intro t h; cases h
  · decide
  · decide
  · decide
  · have := Config.maxOperandLenWord.isLt
    show Config.maxOperandLenWord.toNat ≤ _
    omega

/-- The hardware's configuration: every parameter of rule R5 at its source value or decided default, and the open
ones free. -/
def Config.hardware : Config := ⟨RawConfig.hardware, RawConfig.hardware_admissible⟩

end Sys2Proof
end

