-- ==== Sys2Proof/Syntax.lean ====
section
/-! DEFINITION. The command set SPN-CORE/CMD1: one constructor for each of the 17 rows of rule R82. -/

namespace Sys2Proof

/-- A command (rule R82). The hash commands carry the index `c` of a hash context; every other operand travels in
the operand slots, so no other command has a field (rules R31, R81). -/
inductive Instr
  /-- HASH.INIT c, OPC 0x01 (rule R114). -/
  | hashInit (c : Nat)
  /-- HASH.UPDATE c, OPC 0x02 (rule R115). -/
  | hashUpdate (c : Nat)
  /-- HASH.FINAL c, OPC 0x03 (rule R116). -/
  | hashFinal (c : Nat)
  /-- HMAC, OPC 0x10 (rule R143). -/
  | hmac
  /-- KDF, OPC 0x11 (rule R147). -/
  | kdf
  /-- BLK.ENC, OPC 0x20 (rule R182). -/
  | blkEnc
  /-- BLK.DEC, OPC 0x21 (rule R183). -/
  | blkDec
  /-- CBC.ENC, OPC 0x22 with M = 0 (rule R205). -/
  | cbcEnc
  /-- CBC.DEC, OPC 0x23 with M = 0 (rule R206). -/
  | cbcDec
  /-- CTR.ENC, OPC 0x22 with M = 1 (rule R210). -/
  | ctrEnc
  /-- CTR.DEC, OPC 0x23 with M = 1 (rule R211). -/
  | ctrDec
  /-- ENV.PACK, OPC 0x30 (rule R261). -/
  | envPack
  /-- ENV.UNPACK, OPC 0x31 (rule R262). -/
  | envUnpack
  /-- RNG.FILL, OPC 0x40 (rule R242). -/
  | rngFill
  /-- CHAOS.FILL, OPC 0x41 (rule R244). -/
  | chaosFill
  /-- ENC.BYTES, OPC 0x50 (rule R263). -/
  | encBytes
  /-- DEC.BYTES, OPC 0x51 (rule R264). -/
  | decBytes
  deriving DecidableEq, Repr

end Sys2Proof
end

