-- ==== Sys2Proof/WellFormed.lean ====
section
/-! DEFINITION. Which commands are legal in a configuration: the context index of a hash command is in range
(rule R83). No other command has an operand field, so no other check exists. -/

namespace Sys2Proof

/-- The context index that a command names (field CTX of rule R80), for the three hash commands. -/
def Instr.ctxIndex : Instr → Option Nat
  | .hashInit c | .hashUpdate c | .hashFinal c => some c
  | .hmac | .kdf | .blkEnc | .blkDec | .cbcEnc | .cbcDec | .ctrEnc | .ctrDec | .envPack | .envUnpack | .rngFill
  | .chaosFill | .encBytes | .decBytes => none

/-- A command is well formed for `nctx` hash contexts when its context index, if it has one, is below `nctx`:
`CTX >= HASH_CTX_COUNT` is illegal (rule R83). -/
def Instr.wellFormed (nctx : Nat) (i : Instr) : Bool :=
  match i.ctxIndex with
  | none => true
  | some c => decide (c < nctx)

/-- A command can be encoded at all when its context index fits the 4-bit field CTX (rules R80, R81). -/
abbrev Instr.encodable (i : Instr) : Prop := i.wellFormed 16 = true

end Sys2Proof
end

