-- ==== Sys2Proof/Decode.lean ====
section
/-! DEFINITION. The decoder and the encoder of command words (rules R80 to R83, R90).

`decode` reads the five fields of a word and is total: a word that selects no row is refused by the name of the
first clause of rule R83 that it breaks. Whether a hash command's CTX is below `HASH_CTX_COUNT` depends on the
configuration and is `Instr.wellFormed`; `decodeFor` joins the two, and is the `decode(w)` of rule R89. -/

namespace Sys2Proof

/-! ## Fields (rules R80, R81) -/

/-- `OPC = w[7:0]`. -/
def fieldOPC (w : Word) : BitVec 8 := w.extractLsb' 0 8
/-- `M = w[8]`. -/
def fieldM (w : Word) : Bool := w.getLsbD 8
/-- `RSV0 = w[11:9]`. -/
def fieldRSV0 (w : Word) : BitVec 3 := w.extractLsb' 9 3
/-- `CTX = w[15:12]`, an unsigned 4-bit index. -/
def fieldCTX (w : Word) : BitVec 4 := w.extractLsb' 12 4
/-- `RSV1 = w[31:16]`. -/
def fieldRSV1 (w : Word) : BitVec 16 := w.extractLsb' 16 16

/-! ## Decoding (rules R82, R83) -/

/-- Why a command word is illegal: the clauses of rule R83. -/
inductive DecodeError
  /-- `OPC` is none of the assigned codes. -/
  | unassignedOpcode (opc : BitVec 8)
  /-- `M = 1` with an OPC other than 0x22 and 0x23. -/
  | modeBitSet
  /-- `CTX != 0` with an OPC other than 0x01 to 0x03. -/
  | contextBitsSet (ctx : BitVec 4)
  /-- `CTX >= HASH_CTX_COUNT` with OPC 0x01 to 0x03. -/
  | contextOutOfRange (c : Nat)
  /-- `RSV0 != 0`. -/
  | reserved0Set
  /-- `RSV1 != 0`. -/
  | reserved1Set
  deriving DecidableEq, Repr

/-- A command that takes a context index: M must be 0 (rule R80). -/
def decodeHash (i : Nat → Instr) (m : Bool) (ctx : BitVec 4) : Except DecodeError Instr :=
  if m then .error .modeBitSet else .ok (i ctx.toNat)

/-- A command with neither mode bit nor context index: both fields must be 0 (rule R80). -/
def decodePlain (i : Instr) (m : Bool) (ctx : BitVec 4) : Except DecodeError Instr :=
  if m then .error .modeBitSet else if ctx ≠ 0 then .error (.contextBitsSet ctx) else .ok i

/-- A chaining-mode command: M chooses CBC (0) or CTR (1), and CTX must be 0 (rule R80). -/
def decodeMode (cbc ctr : Instr) (m : Bool) (ctx : BitVec 4) : Except DecodeError Instr :=
  if ctx ≠ 0 then .error (.contextBitsSet ctx) else .ok (if m then ctr else cbc)

/-- The opcode map of rule R82, by OPC. -/
def decodeOpcode (opc : BitVec 8) (m : Bool) (ctx : BitVec 4) : Except DecodeError Instr :=
  if opc = 0x01#8 then decodeHash .hashInit m ctx
  else if opc = 0x02#8 then decodeHash .hashUpdate m ctx
  else if opc = 0x03#8 then decodeHash .hashFinal m ctx
  else if opc = 0x10#8 then decodePlain .hmac m ctx
  else if opc = 0x11#8 then decodePlain .kdf m ctx
  else if opc = 0x20#8 then decodePlain .blkEnc m ctx
  else if opc = 0x21#8 then decodePlain .blkDec m ctx
  else if opc = 0x22#8 then decodeMode .cbcEnc .ctrEnc m ctx
  else if opc = 0x23#8 then decodeMode .cbcDec .ctrDec m ctx
  else if opc = 0x30#8 then decodePlain .envPack m ctx
  else if opc = 0x31#8 then decodePlain .envUnpack m ctx
  else if opc = 0x40#8 then decodePlain .rngFill m ctx
  else if opc = 0x41#8 then decodePlain .chaosFill m ctx
  else if opc = 0x50#8 then decodePlain .encBytes m ctx
  else if opc = 0x51#8 then decodePlain .decBytes m ctx
  else .error (.unassignedOpcode opc)

/-- The row of rule R82 that a word selects, or the clause of rule R83 that makes it illegal. -/
def decode (w : Word) : Except DecodeError Instr :=
  if fieldRSV1 w ≠ 0 then .error .reserved1Set
  else if fieldRSV0 w ≠ 0 then .error .reserved0Set
  else decodeOpcode (fieldOPC w) (fieldM w) (fieldCTX w)

/-- `decode(w)` of rule R89 under `nctx` hash contexts: the row, and the range check of rule R83 on CTX. -/
def decodeFor (nctx : Nat) (w : Word) : Except DecodeError Instr :=
  match decode w with
  | .error e => .error e
  | .ok i => if i.wellFormed nctx then .ok i else .error (.contextOutOfRange (i.ctxIndex.getD 0))

/-- What the decoder reads from an instruction whose table bits are `w` (every bit above `nbits` is 0). A command is
one 32-bit word (rule R80), read whole from the register window, so there is no byte order to choose (rule R62). -/
def decodeTableWord (nbits w : Nat) : Option Instr :=
  match decode (BitVec.ofNat 32 (w % 2 ^ nbits)) with
  | .ok i => some i
  | .error _ => none

/-! ## Encoding (rules R80, R82) -/

/-- The OPC column of rule R82. -/
def Instr.opc : Instr → BitVec 8
  | .hashInit _ => 0x01#8
  | .hashUpdate _ => 0x02#8
  | .hashFinal _ => 0x03#8
  | .hmac => 0x10#8
  | .kdf => 0x11#8
  | .blkEnc => 0x20#8
  | .blkDec => 0x21#8
  | .cbcEnc => 0x22#8
  | .cbcDec => 0x23#8
  | .ctrEnc => 0x22#8
  | .ctrDec => 0x23#8
  | .envPack => 0x30#8
  | .envUnpack => 0x31#8
  | .rngFill => 0x40#8
  | .chaosFill => 0x41#8
  | .encBytes => 0x50#8
  | .decBytes => 0x51#8

/-- The M column of rule R82. -/
def Instr.modeBit : Instr → BitVec 1
  | .ctrEnc | .ctrDec => 1#1
  | .hashInit _ | .hashUpdate _ | .hashFinal _ | .hmac | .kdf | .blkEnc | .blkDec | .cbcEnc | .cbcDec | .envPack
  | .envUnpack | .rngFill | .chaosFill | .encBytes | .decBytes => 0#1

/-- The CTX column of rule R82: the index of a hash command, 0 for every other command. -/
def Instr.ctxField (i : Instr) : BitVec 4 := BitVec.ofNat 4 (i.ctxIndex.getD 0)

/-- The command word of a command: `RSV1 | CTX | RSV0 | M | OPC`, the reserved fields 0 (rule R80). -/
def encode (i : Instr) : Word := 0#16 ++ i.ctxField ++ 0#3 ++ i.modeBit ++ i.opc

/-! ## The opcode table (rule R82) -/

/-- One row of rule R82: a word w selects it when `(w & mask) = match`. -/
structure OpcodeRow where
  pattern : Word
  mask : Word
  deriving DecidableEq, Repr

/-- The row selects the word. -/
def OpcodeRow.selects (r : OpcodeRow) (w : Word) : Bool := (w &&& r.mask) == r.pattern

/-- The "match / mask" column of rule R82. -/
def Instr.row : Instr → OpcodeRow
  | .hashInit _ => ⟨0x00000001#32, 0xFFFF0FFF#32⟩
  | .hashUpdate _ => ⟨0x00000002#32, 0xFFFF0FFF#32⟩
  | .hashFinal _ => ⟨0x00000003#32, 0xFFFF0FFF#32⟩
  | .hmac => ⟨0x00000010#32, 0xFFFFFFFF#32⟩
  | .kdf => ⟨0x00000011#32, 0xFFFFFFFF#32⟩
  | .blkEnc => ⟨0x00000020#32, 0xFFFFFFFF#32⟩
  | .blkDec => ⟨0x00000021#32, 0xFFFFFFFF#32⟩
  | .cbcEnc => ⟨0x00000022#32, 0xFFFFFFFF#32⟩
  | .cbcDec => ⟨0x00000023#32, 0xFFFFFFFF#32⟩
  | .ctrEnc => ⟨0x00000122#32, 0xFFFFFFFF#32⟩
  | .ctrDec => ⟨0x00000123#32, 0xFFFFFFFF#32⟩
  | .envPack => ⟨0x00000030#32, 0xFFFFFFFF#32⟩
  | .envUnpack => ⟨0x00000031#32, 0xFFFFFFFF#32⟩
  | .rngFill => ⟨0x00000040#32, 0xFFFFFFFF#32⟩
  | .chaosFill => ⟨0x00000041#32, 0xFFFFFFFF#32⟩
  | .encBytes => ⟨0x00000050#32, 0xFFFFFFFF#32⟩
  | .decBytes => ⟨0x00000051#32, 0xFFFFFFFF#32⟩

/-- The 17 rows of rule R82, in its order. -/
def opcodeTable : List OpcodeRow :=
  ([.hashInit 0, .hashUpdate 0, .hashFinal 0, .hmac, .kdf, .blkEnc, .blkDec, .cbcEnc, .cbcDec, .ctrEnc, .ctrDec,
    .envPack, .envUnpack, .rngFill, .chaosFill, .encBytes, .decBytes] : List Instr).map Instr.row

end Sys2Proof
end

