-- ==== Sys2Proof/Machine/Bytes.lean ====
section
/-! DEFINITION. Byte strings: repetition, slices, big-endian codecs, XOR and block splitting (rules R7, R9, R10,
R62, R200). -/

namespace Sys2Proof.Machine

/-- `bytes(n, v)` (rule R7). -/
def bytesOf (n : Nat) (v : Byte) : ByteString := List.replicate n v

/-- `s[a..b]`: bytes a to b-1 (rule R7). -/
def slice (s : ByteString) (a b : Nat) : ByteString := (s.take b).drop a

/-- `BE32(n)`: most significant byte first (rules R9, R62). -/
def be32 (n : Word) : ByteString :=
  [n.extractLsb' 24 8, n.extractLsb' 16 8, n.extractLsb' 8 8, n.extractLsb' 0 8]

/-- `BE64(n)`: most significant byte first (rules R9, R62). -/
def be64 (n : DWord) : ByteString := be32 (n.extractLsb' 32 32) ++ be32 (n.extractLsb' 0 32)

/-- `BEval(s)`: the number that s encodes in big-endian order (rule R9). -/
def beVal (s : ByteString) : Nat := s.foldl (fun acc b => acc * 256 + b.toNat) 0

/-- `xor(a, b)`, used where the lengths are equal (rule R10). The same XOR again undoes it (rule R177). -/
def xorBytes (a b : ByteString) : ByteString := List.zipWith (· ^^^ ·) a b

/-- `xor_prefix(d, k)`, used where `len(d) <= len(k)` (rule R10). -/
def xorPrefix (d k : ByteString) : ByteString := xorBytes d (k.take d.length)

/-- The first k pieces of n bytes each. -/
def splitEvery (n : Nat) : Nat → ByteString → List ByteString
  | 0, _ => []
  | k + 1, s => s.take n :: splitEvery n k (s.drop n)

/-- `blocks(m)`: the 16-byte blocks of a byte string whose length is a multiple of 16, in order (rule R200). -/
def blocks (m : ByteString) : List ByteString := splitEvery 16 (m.length / 16) m

end Sys2Proof.Machine
end

