-- ==== Sys2Proof/Machine/State.lean ====
section
/-! DEFINITION. The state of SPN-CORE and of the two agents around it (rules R17, R30 to R46), the three kinds of
outcome, and the state after reset (rule R340).

`Block` is the state record of rule R30 and nothing else. `State` puts beside it what rule R17 calls the other two
agents, as plain data: the host with its script (rule R87), and `schedule`, the list that says which agent moves
next and with what (assumption log 3). `State.cfg` is the configuration of rule R5: rule R342 has a model take it as
an argument, `step` takes one argument only, and no step changes it (assumption log 1). -/

namespace Sys2Proof.Machine

/-! ## The block (rule R30) -/

/-- The operand slots (rule R32). -/
inductive Slot
  | a
  | b
  | c
  deriving DecidableEq, Repr

/-- The result slots (rule R33). -/
inductive ResultSlot
  | r0
  | r1
  deriving DecidableEq, Repr

/-- The lifecycle of a hash context (rules R40, R41). -/
inductive Phase
  | unset
  | active
  | finalized
  deriving DecidableEq, Repr

/-- Eight 32-bit words: `H[0]` to `H[7]` of rule R40, and the working variables a to h of rule R108. -/
structure Words8 where
  a : Word
  b : Word
  c : Word
  d : Word
  e : Word
  f : Word
  g : Word
  h : Word
  deriving DecidableEq, Repr

/-- One hash context: the fields of rule R40, and the history that rule R42 speaks of. -/
structure HashCtx where
  phase : Phase
  H : Words8
  BUF : Vector Byte 64
  BUFLEN : Nat
  BITLEN : DWord
  /-- "The bytes absorbed since the last HASH.INIT" (rule R42), the model's own field: only the test of rule R42 reads
  it, and no result depends on it (assumption log 4). -/
  message : ByteString
  deriving DecidableEq, Repr

/-- `EntropyWait` of rule R30: the command that waits on the entropy oracle, and what it needs to go on. -/
inductive EntropyWait
  /-- RNG.FILL waits for n bytes (rule R242). -/
  | rngFill (n : Nat)
  /-- ENC.BYTES waits for its salt, 32 bytes: the first draw (rule R263). -/
  | encSalt (plaintext password : ByteString)
  /-- ENC.BYTES has its salt and waits for its IV, 16 bytes: the second draw (rule R263). -/
  | encIv (plaintext password salt : ByteString)
  deriving DecidableEq, Repr

/-- The state record of rule R30. -/
structure Block where
  A : Option ByteString
  B : Option ByteString
  C : Option ByteString
  R0 : Option ByteString
  R1 : Option ByteString
  STATUS : Word
  FAULT : Word
  ctx : List HashCtx
  pending : Option EntropyWait
  deriving DecidableEq, Repr

/-! ## How a command ends (rules R12, R89) -/

/-- The source's errors (rule R300). `ioFailure` is the Adapter's: the core never raises it (rule R303). -/
inductive Error
  | invalidLength
  | invalidPadding
  | entropyUnavailable
  | ioFailure
  deriving DecidableEq, Repr

/-- The fault kinds of rule R305, each with the data its rule names. Only the bit of the kind reaches FAULT. -/
inductive FaultKind
  | illegalCommand (w : Word)
  | operandShape (slot : Slot) (n : Nat)
  | readUnwritten (slot : Slot)
  | hashCtxState (c : Nat)
  | lengthOverflow (c : Nat)
  | counterOverflow (j : Nat)
  | refused (op : Instr)
  | internalInvariant (c : Nat)
  deriving DecidableEq, Repr

/-- The four cases of `perform` in rule R89; `okHash` is `Ok` of a hash command, which also writes its context. -/
inductive CmdOutcome
  | ok (r0 r1 : Option ByteString)
  | okHash (c : Nat) (x : HashCtx) (r0 : Option ByteString)
  | err (e : Error)
  | fault (k : FaultKind)
  | wait (q : EntropyWait)
  deriving DecidableEq, Repr

/-! ## The other agents (rule R17) -/

/-- The registers that `RD` names (rule R86). -/
inductive RegName
  | status
  | fault
  | cfgIter
  | cfgNctx
  deriving DecidableEq, Repr

/-- One answer of the entropy oracle (rule R13). No answer is the absence of one. -/
inductive OracleAnswer
  | bytes (s : ByteString)
  | unavailable
  deriving DecidableEq, Repr

/-- What the host can do to the block (rules R86, R316), the accesses of the register window among them (rules R39,
R60, R61): there `addr` is a platform address and `width` the access width in bits. -/
inductive HostAction
  /-- `WR S, v`. -/
  | wr (slot : Slot) (v : ByteString)
  /-- `RD R0`, `RD R1`. -/
  | rd (r : ResultSlot)
  /-- `RD STATUS`, `RD FAULT`, `RD CFG_ITER`, `RD CFG_NCTX`. -/
  | rdReg (r : RegName)
  /-- `CMD`, `CMDW`: a write of the word w to register CMD (rule R89). -/
  | cmd (w : Word)
  /-- `RESET` (rule R340). -/
  | reset
  /-- A read access of the register window. -/
  | busRead (addr width : Nat)
  /-- A write access of the register window. -/
  | busWrite (addr width : Nat) (v : Word)
  deriving DecidableEq, Repr

/-- One statement of a host script, its labels resolved to indices (rules R86 to R88). -/
inductive Stmt
  | act (h : HostAction)
  /-- `MOVR S, R` (rule R88): read R, then write the value read to S. -/
  | movr (dst : Slot) (src : ResultSlot)
  /-- `JNZ STATUS, <label>` (rule R87). -/
  | jnzStatus (target : Nat)
  /-- `JMP <label>` (rule R87). -/
  | jmp (target : Nat)
  /-- `HALT` (rule R87). -/
  | halt
  deriving DecidableEq, Repr

/-- What a host read gives back (rules R34, R316): a byte string or `none`, or a register word. -/
inductive ReadValue
  | bytes (v : Option ByteString)
  | word (w : Word)
  deriving DecidableEq, Repr

/-- How the script stands. `ended` is `HALT` (rule R87); `stopped` is a `MOVR` that read `none` (rule R88). -/
inductive ScriptPhase
  | running
  | ended
  | stopped
  deriving DecidableEq, Repr

/-- The host agent: its script, the index `pc` of its next statement (rule R31), and what its reads gave back. -/
structure HostAgent where
  script : List Stmt
  pc : Nat
  phase : ScriptPhase
  /-- The statement at `pc` issued the command that is pending: `pc` stays there until it completes. -/
  awaiting : Bool
  /-- What the host's reads gave back, the latest first. -/
  reads : List ReadValue
  deriving DecidableEq, Repr

/-- One move of one agent. -/
inductive Move
  /-- The host runs the statement at its `pc`. -/
  | script
  /-- The host acts outside its script, at any time (rule R316). -/
  | host (h : HostAction)
  /-- The entropy oracle answers (rule R240). -/
  | answer (a : OracleAnswer)
  deriving DecidableEq, Repr

/-- The whole machine. `schedule` lists the moves to come; when it is empty the host goes on with its script. -/
structure State where
  cfg : Config
  block : Block
  host : HostAgent
  schedule : List Move
  deriving DecidableEq, Repr

/-! ## The outcomes of a step -/

/-- Why the machine stops with a fault. The faults of rule R305 are not here: the block takes them as a state
change (rule R307), so they are next states. -/
inductive Fault
  /-- Raised by the draw of RNG.FILL and ENC.BYTES when the schedule gives the oracle an answer whose length is not
  the number of bytes asked for, which rule R13 excludes. Safe: no such answer exists. -/
  | oracleAnswerLength (expected got : Nat)
  deriving DecidableEq, Repr

/-- Why the model gives a step no meaning. -/
inductive Refusal
  /-- An arm of exec that has no meaning yet. No arm is refused in this model. Safe. -/
  | notModelled (mnemonic : String)
  /-- Raised by a host slot write longer than MAX_OPERAND_LEN: "refused: it has no step" (rule R32). Safe. -/
  | hostWriteTooLong (slot : Slot) (len : Nat)
  /-- Raised by a host write of a slot or of a register other than CMD while a command is pending (rules R67, R343).
  Safe. -/
  | hostWriteWhilePending
  /-- Raised by a CMD write while a command is pending: "no step (busy)" (rules R89, R343). Safe. -/
  | commandWhilePending
  /-- Raised by a register access that is not 32 bits wide or whose offset is no multiple of 4 (rule R61). Safe. -/
  | registerAccessShape (addr width : Nat)
  /-- Raised by a bus access below REG_BASE, which does not reach the block's register window (rule R60). Safe. -/
  | outsideRegisterWindow (addr : Nat)
  deriving DecidableEq, Repr

/-- The outcome of a command or of a step. -/
abbrev Result := Host.Outcome State Fault Refusal

/-! ## Reset (rule R340) -/

/-- A hash context after reset: Unset. Its other fields "hold no value at reset" (rule R40); the model puts zeros
there (assumption log 2), which no rule reads. Nothing has been absorbed. -/
def HashCtx.reset : HashCtx where
  phase := .unset
  H := ⟨0, 0, 0, 0, 0, 0, 0, 0⟩
  BUF := Vector.replicate 64 0
  BUFLEN := 0
  BITLEN := 0
  message := []

/-- The block after reset (rule R340), with `nctx` hash contexts. -/
def Block.reset (nctx : Nat) : Block where
  A := none
  B := none
  C := none
  R0 := none
  R1 := none
  STATUS := 0
  FAULT := 0
  ctx := List.replicate nctx HashCtx.reset
  pending := none

/-- A host that has no script and has read nothing. -/
def HostAgent.idle : HostAgent where
  script := []
  pc := 0
  phase := .running
  awaiting := false
  reads := []

/-- The machine right after reset: the hardware's configuration, the block of rule R340, an idle host, and no move
of any agent. -/
def State.reset : State where
  cfg := Config.hardware
  block := Block.reset Config.hardware.hashCtxCount
  host := HostAgent.idle
  schedule := []

end Sys2Proof.Machine
end

