-- ==== Sys2Proof/Machine/Flags.lean ====
section
/-! DEFINITION. The two status registers: the code STATUS reports for each error and the bit FAULT sets for each
fault (rules R35, R36, R45, R300, R305). SPN-CORE has no other flag. -/

namespace Sys2Proof.Machine

/-- `code(e)` of rule R300. -/
def errorCode : Error → Word
  | .invalidLength => 1#32
  | .invalidPadding => 2#32
  | .entropyUnavailable => 3#32
  | .ioFailure => 4#32

/-- STATUS after a command that completed without an error: CODE = OK (rule R35). -/
def statusOk : Word := 0#32

/-- `bit(k)` of rule R305. -/
def faultBit : FaultKind → Nat
  | .illegalCommand _ => 0
  | .operandShape _ _ => 1
  | .readUnwritten _ => 2
  | .hashCtxState _ => 3
  | .lengthOverflow _ => 4
  | .counterOverflow _ => 5
  | .refused _ => 6
  | .internalInvariant _ => 7

/-- FAULT after a fault of kind k: the bit is added, the others stay (rules R36, R307). -/
def setFault (old : Word) (k : FaultKind) : Word := old ||| (1#32 <<< faultBit k)

/-- What a read of STATUS gives: CODE in bits 3:0, bits 31:4 hardwired 0 (rule R35). -/
def statusRead (status : Word) : Word := status &&& 0xF#32

/-- STATUS.CODE (rule R35). -/
def statusCode (status : Word) : BitVec 4 := status.extractLsb' 0 4

/-- What a read of FAULT gives: bits 7:0, bits 31:8 hardwired 0 (rule R36). -/
def faultRead (fault : Word) : Word := fault &&& 0xFF#32

end Sys2Proof.Machine
end

