-- ==== Sys2Proof/Machine/Ops.lean ====
section
/-! DEFINITION. The shared operations: access to the slots, the registers and the hash contexts, the end of a command
(rule R89), taking an error (rule R306), taking a fault (rule R307), and RESET, the only way back from one (R340). -/

namespace Sys2Proof.Machine

/-! ## Slots (rules R32, R33) -/

/-- `x[S]` for an operand slot. -/
def Block.slot (b : Block) : Slot → Option ByteString
  | .a => b.A
  | .b => b.B
  | .c => b.C

/-- `x[S] <- v` for an operand slot; only the host does it (rule R32). -/
def Block.setSlot (b : Block) (x : Slot) (v : ByteString) : Block :=
  match x with
  | .a => { b with A := some v }
  | .b => { b with B := some v }
  | .c => { b with C := some v }

/-- `x[R]` for a result slot. -/
def Block.result (b : Block) : ResultSlot → Option ByteString
  | .r0 => b.R0
  | .r1 => b.R1

/-- Both result slots written at once (rule R33). -/
def Block.setResults (b : Block) (r0 r1 : Option ByteString) : Block := { b with R0 := r0, R1 := r1 }

/-! ## Registers (rules R35 to R39) -/

/-- The core is halted while FAULT is not 0 (rule R36). -/
def Block.halted (b : Block) : Bool := b.FAULT != 0#32

/-- `reg[NAME]` as the host reads it. CFG_ITER and CFG_NCTX read the configuration (rules R37, R38). -/
def State.readReg (s : State) : RegName → Word
  | .status => statusRead s.block.STATUS
  | .fault => faultRead s.block.FAULT
  | .cfgIter => BitVec.ofNat 32 s.cfg.iterCount
  | .cfgNctx => BitVec.ofNat 32 s.cfg.hashCtxCount

/-- What a read at a byte offset of the register window gives: CMD and every reserved offset read 0 (rule R39). -/
def State.readOffset (s : State) (off : Nat) : Word :=
  if off = 0x04 then s.readReg .status
  else if off = 0x08 then s.readReg .fault
  else if off = 0x0C then s.readReg .cfgIter
  else if off = 0x10 then s.readReg .cfgNctx
  else 0#32

/-! ## Hash contexts (rule R40) -/

/-- Context c written, the others kept. -/
def Block.setCtx (b : Block) (c : Nat) (x : HashCtx) : Block := { b with ctx := b.ctx.set c x }

/-! ## The end of a command (rules R89, R306, R307) -/

/-- A command completes without an error: results written, STATUS.CODE = OK (rules R33, R35). -/
def Block.complete (b : Block) (r0 r1 : Option ByteString) : Block :=
  { b.setResults r0 r1 with STATUS := statusOk }

/-- Error completion (rule R306): no results, STATUS.CODE = the code of the error, nothing else changes. -/
def Block.raise (b : Block) (e : Error) : Block := { b.setResults none none with STATUS := errorCode e }

/-- Fault entry (rule R307): no results, the fault's bit added to FAULT, nothing else changes. -/
def Block.takeFault (b : Block) (k : FaultKind) : Block :=
  { b.setResults none none with FAULT := setFault b.FAULT k }

/-- The last lines of rule R89: what the block is after `perform` has answered. -/
def Block.finish (b : Block) : CmdOutcome → Block
  | .ok r0 r1 => b.complete r0 r1
  | .okHash c x r0 => (b.setCtx c x).complete r0 none
  | .err e => b.raise e
  | .fault k => b.takeFault k
  | .wait q => { b with pending := some q }

/-- `Block.finish` in the whole state. -/
def State.finish (s : State) (o : CmdOutcome) : State := { s with block := s.block.finish o }

/-- RESET (rule R340): the one return from a fault, and the one end of a wait that may never end. -/
def State.applyReset (s : State) : State := { s with block := Block.reset s.cfg.hashCtxCount }

end Sys2Proof.Machine
end

