-- ==== Sys2Proof/Machine/Operands.lean ====
section
/-! DEFINITION. The operand forms of rules R84 and R85: a slot of any length, a slot of a fixed length, a hash
context, and a byte count. A meaning nests them in the order A, B, C (rules R89, R308). -/

namespace Sys2Proof.Machine

/-- The table of rule R84: the operand slots each command reads, in the order A, B, C, with the length a fixed one
must have. -/
def operandShapes : Instr → List (Slot × Option Nat)
  | .hashInit _ => []
  | .hashUpdate _ => [(.a, none)]
  | .hashFinal _ => []
  | .hmac => [(.a, none), (.b, none)]
  | .kdf => [(.a, none), (.b, none)]
  | .blkEnc => [(.a, some 32), (.b, some 16)]
  | .blkDec => [(.a, some 32), (.b, some 16)]
  | .cbcEnc => [(.a, some 32), (.b, some 16), (.c, none)]
  | .cbcDec => [(.a, some 32), (.b, some 16), (.c, none)]
  | .ctrEnc => [(.a, some 32), (.b, some 16), (.c, none)]
  | .ctrDec => [(.a, some 32), (.b, some 16), (.c, none)]
  | .envPack => [(.a, some 32), (.b, some 16)]
  | .envUnpack => [(.a, none)]
  | .rngFill => [(.a, some 4)]
  | .chaosFill => [(.a, none), (.b, some 4)]
  | .encBytes => [(.a, none), (.b, none)]
  | .decBytes => [(.a, none), (.b, none)]

/-- What reading one operand faults with, if it does (rules R34, R84, R89). -/
def operandFault (b : Block) (x : Slot) (len : Option Nat) : Option FaultKind :=
  match b.slot x with
  | none => some (.readUnwritten x)
  | some v =>
    match len with
    | none => none
    | some n => if v.length = n then none else some (.operandShape x v.length)

/-- The loop of rule R89 over the slots a command reads: the first fault, if there is one. -/
def firstOperandFault (b : Block) : List (Slot × Option Nat) → Option FaultKind
  | [] => none
  | (x, len) :: rest =>
    match operandFault b x len with
    | some k => some k
    | none => firstOperandFault b rest

/-- Operand slot x, of the fixed length `len` where there is one. A slot that holds `none` faults ReadUnwritten
(rule R34), a fixed length that is not met faults OperandShape (rule R84). -/
def withOperand (b : Block) (x : Slot) (len : Option Nat) (k : ByteString → CmdOutcome) : CmdOutcome :=
  match b.slot x with
  | none => .fault (.readUnwritten x)
  | some v =>
    match len with
    | none => k v
    | some n => if v.length = n then k v else .fault (.operandShape x v.length)

/-- A slot of any length ("any" in rule R84). -/
def withAny (b : Block) (x : Slot) (k : ByteString → CmdOutcome) : CmdOutcome := withOperand b x none k

/-- A slot of exactly n bytes (rule R84). -/
def withFixed (b : Block) (x : Slot) (n : Nat) (k : ByteString → CmdOutcome) : CmdOutcome :=
  withOperand b x (some n) k

/-- The hash context that a hash command names. An index without a context is an illegal command (rule R83), decided
before any operand is read. -/
def withCtx (b : Block) (i : Instr) (c : Nat) (k : HashCtx → CmdOutcome) : CmdOutcome :=
  match b.ctx[c]? with
  | none => .fault (.illegalCommand (encode i))
  | some x => k x

/-- The byte count n that `count` encodes, read from slot x (rule R85): n above MAX_OPERAND_LEN faults. -/
def withCount (cfg : Config) (x : Slot) (count : ByteString) (k : Nat → CmdOutcome) : CmdOutcome :=
  if beVal count > cfg.maxOperandLen then .fault (.operandShape x (beVal count)) else k (beVal count)

end Sys2Proof.Machine
end

