-- ==== Sys2Proof/Machine/CipherBlock.lean ====
section
/-! DEFINITION. The cipher engine's block transform (rules R170 to R181) and the commands BLK.ENC and BLK.DEC (rules
R182, R183). The tables are those of the configuration. -/

namespace Sys2Proof.Machine

/-! ## Tables (rules R170 to R173) -/

/-- `SBOX[x]` (rule R170). -/
def sboxAt (cfg : Config) (x : Byte) : Byte := cfg.sbox[x.toFin]

/-- `INV_SBOX[y]`, computed from SBOX: the x with `SBOX[x] = y` (rule R171). -/
def invSboxAt (cfg : Config) (y : Byte) : Byte := BitVec.ofNat 8 (cfg.sbox.toList.idxOf y)

/-- `PBOX[p]` (rule R172); positions are 0..127. -/
def pboxAt (cfg : Config) (p : Nat) : Nat := (cfg.pbox[p % 128]'(Nat.mod_lt _ (by decide))).val

/-- `INV_PBOX[q]`, computed from PBOX: the p with `PBOX[p] = q` (rule R173). -/
def invPboxAt (cfg : Config) (q : Nat) : Nat := (cfg.pbox.toList.map Fin.val).idxOf (q % 128)

/-! ## Bits of a block (rules R63, R174) -/

/-- `bit(b, p)`: bit `7 - (p mod 8)` of byte `b[p div 8]` (rule R174). -/
def bitAt (b : ByteString) (p : Nat) : Bool := (b.getD (p / 8) 0).getLsbD (7 - p % 8)

/-- The byte whose bits, most significant first, are `f 0` to `f 7`. -/
def byteOfBits (f : Nat → Bool) : Byte := BitVec.ofFnLE fun j : Fin 8 => f (7 - j.val)

/-- The 16-byte block y with `bit(y, p) = f p` for every p in 0..127. -/
def blockOfBits (f : Nat → Bool) : ByteString := (List.range 16).map fun k => byteOfBits fun j => f (8 * k + j)

/-! ## Layers (rules R175, R176) -/

/-- `sub(b)` (rule R175). `invSub` undoes it, and it undoes `invSub` (rule R177). -/
def sub (cfg : Config) (b : ByteString) : ByteString := b.map (sboxAt cfg)

/-- `inv_sub(b)` (rules R175, R177). -/
def invSub (cfg : Config) (b : ByteString) : ByteString := b.map (invSboxAt cfg)

/-- `perm(b)`: output bit p is input bit `PBOX[p]` (rule R176, the gather form). On a block `invPerm` undoes it, and it
undoes `invPerm` (rule R177). -/
def perm (cfg : Config) (b : ByteString) : ByteString := blockOfBits fun p => bitAt b (pboxAt cfg p)

/-- `inv_perm(b)`: output bit p is input bit `INV_PBOX[p]` (rules R176, R177). -/
def invPerm (cfg : Config) (b : ByteString) : ByteString := blockOfBits fun p => bitAt b (invPboxAt cfg p)

/-! ## Key schedule and the transform (rules R178 to R180) -/

/-- Round subkey 1: `K[0..16]` (rule R178). -/
def subkey1 (K : ByteString) : ByteString := slice K 0 16

/-- Round subkey 2: `K[16..32]` (rule R178). -/
def subkey2 (K : ByteString) : ByteString := slice K 16 32

/-- `process_block(K, b)`: two rounds of substitute, permute, XOR (rule R179). -/
def processBlock (cfg : Config) (K b : ByteString) : ByteString :=
  let s := xorBytes (perm cfg (sub cfg b)) (subkey1 K)
  xorBytes (perm cfg (sub cfg s)) (subkey2 K)

/-- `invert_block(K, c)` (rule R180). -/
def invertBlock (cfg : Config) (K c : ByteString) : ByteString :=
  let s := invSub cfg (invPerm cfg (xorBytes c (subkey2 K)))
  invSub cfg (invPerm cfg (xorBytes s (subkey1 K)))

/-! ## The commands -/

/-- BLK.ENC (rule R182): A = key, 32 bytes, B = block, 16 bytes. -/
def execBlkEnc (s : State) : Host.Outcome State Fault Refusal :=
  .next (s.finish (withFixed s.block .a 32 fun key => withFixed s.block .b 16 fun b =>
    .ok (some (processBlock s.cfg key b)) none))

/-- BLK.DEC (rule R183): A = key, 32 bytes, B = block, 16 bytes. -/
def execBlkDec (s : State) : Host.Outcome State Fault Refusal :=
  .next (s.finish (withFixed s.block .a 32 fun key => withFixed s.block .b 16 fun b =>
    .ok (some (invertBlock s.cfg key b)) none))

end Sys2Proof.Machine
end

