-- ==== Sys2Proof/Machine/CipherModes.lean ====
section
/-! DEFINITION. The chaining modes: PKCS#7 padding (rules R201, R202), CBC (rules R203 to R206) and CTR (rules R207 to
R211), with their four commands. The blocks are computed in order (rule R212). -/

namespace Sys2Proof.Machine

/-! ## Padding (rules R201, R202) -/

/-- `pkcs7_pad(m)` (rule R201). -/
def pkcs7Pad (m : ByteString) : ByteString :=
  let k := 16 - m.length % 16
  m ++ bytesOf k (BitVec.ofNat 8 k)

/-- The padding check of rule R202: the last byte k is in 1..16 and the last k bytes all equal k. -/
def paddingValid (p : ByteString) : Bool :=
  let k := p.getD (p.length - 1) 0
  decide (1 ≤ k.toNat) && decide (k.toNat ≤ 16) && (p.drop (p.length - k.toNat)).all (· == k)

/-- `pkcs7_unpad(p)` (rule R202): every failure is the one error InvalidPadding. -/
def pkcs7Unpad (p : ByteString) : Except Error ByteString :=
  if paddingValid p then .ok (p.take (p.length - (p.getD (p.length - 1) 0).toNat)) else .error .invalidPadding

/-! ## CBC (rules R203, R204) -/

/-- The loop of rule R203: each ciphertext block feeds the next. -/
def cbcEncryptBlocks (cfg : Config) (K : ByteString) : ByteString → List ByteString → ByteString
  | _, [] => []
  | prev, q :: qs =>
    let c := processBlock cfg K (xorBytes q prev)
    c ++ cbcEncryptBlocks cfg K c qs

/-- `cbc_encrypt(K, IV, P)` (rule R203). -/
def cbcEncrypt (cfg : Config) (K IV P : ByteString) : ByteString :=
  cbcEncryptBlocks cfg K IV (blocks (pkcs7Pad P))

/-- The loop of rule R204. -/
def cbcDecryptBlocks (cfg : Config) (K : ByteString) : ByteString → List ByteString → ByteString
  | _, [] => []
  | prev, c :: cs => xorBytes (invertBlock cfg K c) prev ++ cbcDecryptBlocks cfg K c cs

/-- `cbc_decrypt(K, IV, C)` (rule R204): the length first, the padding once every block is decrypted. -/
def cbcDecrypt (cfg : Config) (K IV C : ByteString) : Except Error ByteString :=
  if C.length < 16 ∨ C.length % 16 ≠ 0 then .error .invalidLength
  else pkcs7Unpad (cbcDecryptBlocks cfg K IV (blocks C))

/-! ## CTR (rules R207 to R209) -/

/-- The nonce: `IV[0..12]` (rule R207). -/
def ctrNonce (IV : ByteString) : ByteString := slice IV 0 12

/-- The initial counter: `BEval(IV[12..16])` (rule R207). -/
def ctrInitial (IV : ByteString) : Nat := beVal (slice IV 12 16)

/-- The counter value of block j, or `none` where rule R208 faults: past 2^32 - 1 with `CTR_WRAP = false`. -/
def counterValue (cfg : Config) (ctr0 j : Nat) : Option Word :=
  if ctr0 + j > 2 ^ 32 - 1 ∧ cfg.ctrWrap = false then none else some (BitVec.ofNat 32 (ctr0 + j))

/-- `counter_block(nonce, ctr0, j)` (rule R208). -/
def counterBlock (cfg : Config) (nonce : ByteString) (ctr0 j : Nat) : Except FaultKind ByteString :=
  match counterValue cfg ctr0 j with
  | none => .error (.counterOverflow j)
  | some v => .ok (nonce ++ be32 v)

/-- The loop of rule R209 from block index j on, for n blocks of the data left. -/
def ctrBlocks (cfg : Config) (K nonce : ByteString) (ctr0 : Nat) : Nat → Nat → ByteString →
    Except FaultKind ByteString
  | 0, _, _ => .ok []
  | n + 1, j, d =>
    match counterBlock cfg nonce ctr0 j with
    | .error k => .error k
    | .ok cb =>
      match ctrBlocks cfg K nonce ctr0 n (j + 1) (d.drop 16) with
      | .error k => .error k
      | .ok out => .ok (xorPrefix (d.take 16) (processBlock cfg K cb) ++ out)

/-- The number of blocks of rule R209, the last one possibly partial. -/
def ctrBlockCount (D : ByteString) : Nat := (D.length + 15) / 16

/-- `ctr_xcrypt(K, IV, D)` (rule R209): the last counter is checked before any output. -/
def ctrXcrypt (cfg : Config) (K IV D : ByteString) : Except FaultKind ByteString :=
  let n := ctrBlockCount D
  if n = 0 then .ok []
  else
    match counterBlock cfg (ctrNonce IV) (ctrInitial IV) (n - 1) with
    | .error k => .error k
    | .ok _ => ctrBlocks cfg K (ctrNonce IV) (ctrInitial IV) n 0 D

/-! ## The commands -/

/-- A byte string goes to R0; an error of the source ends the command with that error (rules R206, R264). -/
def okOrErr : Except Error ByteString → CmdOutcome
  | .ok p => .ok (some p) none
  | .error e => .err e

/-- A byte string goes to R0; a fault ends the command with that fault (rules R210, R211). -/
def okOrFault : Except FaultKind ByteString → CmdOutcome
  | .ok p => .ok (some p) none
  | .error k => .fault k

/-- The operands of the four mode commands: A = key, 32 bytes, B = IV, 16 bytes, C = data (rule R84). -/
def withModeOperands (b : Block) (k : ByteString → ByteString → ByteString → CmdOutcome) : CmdOutcome :=
  withFixed b .a 32 fun key => withFixed b .b 16 fun iv => withAny b .c fun data => k key iv data

/-- CBC.ENC (rule R205). -/
def execCbcEnc (s : State) : Host.Outcome State Fault Refusal :=
  .next (s.finish (withModeOperands s.block fun key iv data => .ok (some (cbcEncrypt s.cfg key iv data)) none))

/-- CBC.DEC (rule R206). -/
def execCbcDec (s : State) : Host.Outcome State Fault Refusal :=
  .next (s.finish (withModeOperands s.block fun key iv data => okOrErr (cbcDecrypt s.cfg key iv data)))

/-- CTR.ENC (rule R210). -/
def execCtrEnc (s : State) : Host.Outcome State Fault Refusal :=
  .next (s.finish (withModeOperands s.block fun key iv data => okOrFault (ctrXcrypt s.cfg key iv data)))

/-- CTR.DEC (rule R211): the length test, where `CTR_DEC_MIN_LEN_CHECK` holds, comes before the counter (R308). -/
def execCtrDec (s : State) : Host.Outcome State Fault Refusal :=
  .next (s.finish (withModeOperands s.block fun key iv data =>
    if s.cfg.ctrDecMinLenCheck = true ∧ data.length < 16 then .err .invalidLength
    else okOrFault (ctrXcrypt s.cfg key iv data)))

end Sys2Proof.Machine
end

