-- ==== Sys2Proof/Machine/Hash.lean ====
section
/-! DEFINITION. The hash engine: SHA-256 (rules R100 to R113) and the commands HASH.INIT, HASH.UPDATE and
HASH.FINAL (rules R114 to R117). -/

namespace Sys2Proof.Machine

/-! ## Word functions (rules R100 to R103) -/

/-- `ROTR_n(x)` for 0 < n < 32 (rule R100). -/
def rotr (n : Nat) (x : Word) : Word := (x >>> n) ||| (x <<< (32 - n))

/-- `SHR_n(x)` (rule R100). -/
def shr (n : Nat) (x : Word) : Word := x >>> n

/-- `Ch` (rule R101). -/
def shaCh (e f g : Word) : Word := (e &&& f) ^^^ (~~~e &&& g)

/-- `Maj` (rule R101). -/
def shaMaj (a b c : Word) : Word := (a &&& b) ^^^ (a &&& c) ^^^ (b &&& c)

/-- `Σ0` (rule R102). -/
def bigSigma0 (a : Word) : Word := rotr 2 a ^^^ rotr 13 a ^^^ rotr 22 a

/-- `Σ1` (rule R102). -/
def bigSigma1 (e : Word) : Word := rotr 6 e ^^^ rotr 11 e ^^^ rotr 25 e

/-- `σ0` (rule R103). -/
def smallSigma0 (x : Word) : Word := rotr 7 x ^^^ rotr 18 x ^^^ shr 3 x

/-- `σ1` (rule R103). -/
def smallSigma1 (x : Word) : Word := rotr 17 x ^^^ rotr 19 x ^^^ shr 10 x

/-! ## Constants (rules R104, R105) -/

/-- `SHA_H0` (rule R104). -/
def shaH0 : Words8 :=
  ⟨0x6a09e667, 0xbb67ae85, 0x3c6ef372, 0xa54ff53a, 0x510e527f, 0x9b05688c, 0x1f83d9ab, 0x5be0cd19⟩

/-- Eight words in their order. -/
def Words8.toList (x : Words8) : List Word := [x.a, x.b, x.c, x.d, x.e, x.f, x.g, x.h]

/-- A line of rule R105's table: `K[8r]` to `K[8r+7]`. -/
def shaKLine (r : Fin 8) : Words8 :=
  match r with
  | 0 => ⟨0x428a2f98, 0x71374491, 0xb5c0fbcf, 0xe9b5dba5, 0x3956c25b, 0x59f111f1, 0x923f82a4, 0xab1c5ed5⟩
  | 1 => ⟨0xd807aa98, 0x12835b01, 0x243185be, 0x550c7dc3, 0x72be5d74, 0x80deb1fe, 0x9bdc06a7, 0xc19bf174⟩
  | 2 => ⟨0xe49b69c1, 0xefbe4786, 0x0fc19dc6, 0x240ca1cc, 0x2de92c6f, 0x4a7484aa, 0x5cb0a9dc, 0x76f988da⟩
  | 3 => ⟨0x983e5152, 0xa831c66d, 0xb00327c8, 0xbf597fc7, 0xc6e00bf3, 0xd5a79147, 0x06ca6351, 0x14292967⟩
  | 4 => ⟨0x27b70a85, 0x2e1b2138, 0x4d2c6dfc, 0x53380d13, 0x650a7354, 0x766a0abb, 0x81c2c92e, 0x92722c85⟩
  | 5 => ⟨0xa2bfe8a1, 0xa81a664b, 0xc24b8b70, 0xc76c51a3, 0xd192e819, 0xd6990624, 0xf40e3585, 0x106aa070⟩
  | 6 => ⟨0x19a4c116, 0x1e376c08, 0x2748774c, 0x34b0bcb5, 0x391c0cb3, 0x4ed8aa4a, 0x5b9cca4f, 0x682e6ff3⟩
  | 7 => ⟨0x748f82ee, 0x78a5636f, 0x84c87814, 0x8cc70208, 0x90befffa, 0xa4506ceb, 0xbef9a3f7, 0xc67178f2⟩

/-- `SHA_K` (rule R105): `K[0]` to `K[63]`, line by line. -/
def shaK : List Word := (List.finRange 8).flatMap fun r => (shaKLine r).toList

/-! ## The compression function (rules R106 to R109) -/

/-- The word at bytes 4t to 4t+3 of a block, big-endian (rule R106). -/
def messageWord (blk : ByteString) (t : Nat) : Word := BitVec.ofNat 32 (beVal (slice blk (4 * t) (4 * t + 4)))

/-- `W[0]` to `W[15]`, the latest first (rule R106). -/
def messageWordsRev (blk : ByteString) : List Word := ((List.range 16).map (messageWord blk)).reverse

/-- `W[t]` from the words before it, the latest first: `W[t-2]` stands at 1, `W[t-7]` at 6, `W[t-15]` at 14 and
`W[t-16]` at 15 (rule R107). -/
def nextScheduleWord (ws : List Word) : Word :=
  smallSigma1 (ws.getD 1 0) + ws.getD 6 0 + smallSigma0 (ws.getD 14 0) + ws.getD 15 0

/-- n further words of the message schedule, the latest first (rule R107). -/
def extendSchedule : Nat → List Word → List Word
  | 0, ws => ws
  | n + 1, ws => extendSchedule n (nextScheduleWord ws :: ws)

/-- `W[0]` to `W[63]` (rules R106, R107). -/
def messageSchedule (blk : ByteString) : List Word := (extendSchedule 48 (messageWordsRev blk)).reverse

/-- One round with `kw = (K[t], W[t])` (rule R108). -/
def shaRound (v : Words8) (kw : Word × Word) : Words8 :=
  let t1 := v.h + bigSigma1 v.e + shaCh v.e v.f v.g + kw.1 + kw.2
  let t2 := bigSigma0 v.a + shaMaj v.a v.b v.c
  ⟨t1 + t2, v.a, v.b, v.c, v.d + t1, v.e, v.f, v.g⟩

/-- The 64 rounds over a block, from the chaining value (rule R108). -/
def shaRounds (H : Words8) (blk : ByteString) : Words8 := (shaK.zip (messageSchedule blk)).foldl shaRound H

/-- Word-by-word addition mod 2^32 (rule R109). -/
def Words8.add (x y : Words8) : Words8 :=
  ⟨x.a + y.a, x.b + y.b, x.c + y.c, x.d + y.d, x.e + y.e, x.f + y.f, x.g + y.g, x.h + y.h⟩

/-- `compress(H, blk)` (rule R109). -/
def compress (H : Words8) (blk : ByteString) : Words8 := H.add (shaRounds H blk)

/-! ## Padding and the digest (rules R110 to R112) -/

/-- `pad_and_compress` (rule R110), where `tail` is `BUF[0..BUFLEN]`. -/
def padAndCompress (H : Words8) (tail : ByteString) (bitLen : DWord) : Words8 :=
  let m := tail ++ [0x80#8]
  if m.length > 56 then
    compress (compress H (m ++ bytesOf (64 - m.length) 0)) (bytesOf 56 0 ++ be64 bitLen)
  else compress H (m ++ bytesOf (56 - m.length) 0 ++ be64 bitLen)

/-- The 32-byte digest of a chaining value (rule R111). -/
def digest (H : Words8) : ByteString :=
  be32 H.a ++ be32 H.b ++ be32 H.c ++ be32 H.d ++ be32 H.e ++ be32 H.f ++ be32 H.g ++ be32 H.h

/-- The chaining value after the first k 64-byte blocks of m (the loop of rule R112). -/
def compressBlocks (H : Words8) (k : Nat) (m : ByteString) : Words8 := (splitEvery 64 k m).foldl compress H

/-- `sha256(m)` (rule R112). -/
def sha256 (m : ByteString) : ByteString :=
  let q := m.length / 64
  digest (padAndCompress (compressBlocks shaH0 q m) (m.drop (64 * q)) (BitVec.ofNat 64 (8 * m.length)))

/-! ## Contexts (rules R40 to R42, R114 to R117) -/

/-- A context that HASH.INIT has started (rule R114). BUF keeps its contents. -/
def HashCtx.init (x : HashCtx) : HashCtx :=
  { x with phase := .active, H := shaH0, BUFLEN := 0, BITLEN := 0, message := [] }

/-- One byte absorbed: the body of the loop of rule R115. -/
def HashCtx.absorb (x : HashCtx) (v : Byte) : HashCtx :=
  let buf := x.BUF.setIfInBounds x.BUFLEN v
  if x.BUFLEN + 1 = 64 then { x with H := compress x.H buf.toList, BUF := buf, BUFLEN := 0 }
  else { x with BUF := buf, BUFLEN := x.BUFLEN + 1 }

/-- The loop of rule R115 and the count that follows it. -/
def HashCtx.update (x : HashCtx) (data : ByteString) : HashCtx :=
  { data.foldl HashCtx.absorb x with
    BITLEN := x.BITLEN + BitVec.ofNat 64 (8 * data.length), message := x.message ++ data }

/-- The bytes of BUF that count: `BUF[0..BUFLEN]`. -/
def HashCtx.tail (x : HashCtx) : ByteString := x.BUF.toList.take x.BUFLEN

/-- The digest that HASH.FINAL returns (rule R116). -/
def HashCtx.digest (x : HashCtx) : ByteString := Machine.digest (padAndCompress x.H x.tail x.BITLEN)

/-- The context after HASH.FINAL (rule R116). -/
def HashCtx.finalize (x : HashCtx) : HashCtx := { x with phase := .finalized }

/-- The four clauses of rule R42, in its order: BUFLEN <= 63; BITLEN = 8 x the number of bytes absorbed; BUFLEN =
(BITLEN / 8) mod 64; H is the chaining value after the first (BITLEN / 8) - BUFLEN of them. -/
def HashCtx.consistent (x : HashCtx) : Bool :=
  decide (x.BUFLEN ≤ 63) && decide (x.BITLEN.toNat = 8 * x.message.length)
    && decide (x.BUFLEN = x.BITLEN.toNat / 8 % 64)
    && decide (x.H = compressBlocks shaH0 ((x.BITLEN.toNat / 8 - x.BUFLEN) / 64) x.message)

/-- HASH.UPDATE on context c (rules R115, R117, R308): the phase, the length, then the invariant of rule R42 (whose
place after the others is assumption log 4). -/
def performHashUpdate (c : Nat) (x : HashCtx) (data : ByteString) : CmdOutcome :=
  if x.phase ≠ .active then .fault (.hashCtxState c)
  else if x.BITLEN.toNat + 8 * data.length > 2 ^ 64 - 1 then .fault (.lengthOverflow c)
  else if !x.consistent then .fault (.internalInvariant c)
  else .okHash c (x.update data) none

/-- HASH.FINAL on context c (rules R116, R117), with the invariant of rule R42 after the phase. -/
def performHashFinal (c : Nat) (x : HashCtx) : CmdOutcome :=
  if x.phase ≠ .active then .fault (.hashCtxState c)
  else if !x.consistent then .fault (.internalInvariant c)
  else .okHash c x.finalize (some x.digest)

/-! ## The commands -/

/-- HASH.INIT c (rule R114): legal in every phase. -/
def execHashInit (c : Nat) (s : State) : Host.Outcome State Fault Refusal :=
  .next (s.finish (withCtx s.block (.hashInit c) c fun x => .okHash c x.init none))

/-- HASH.UPDATE c (rule R115): A is read before the context is looked at (rule R308). -/
def execHashUpdate (c : Nat) (s : State) : Host.Outcome State Fault Refusal :=
  .next (s.finish (withCtx s.block (.hashUpdate c) c fun x =>
    withAny s.block .a fun data => performHashUpdate c x data))

/-- HASH.FINAL c (rule R116). -/
def execHashFinal (c : Nat) (s : State) : Host.Outcome State Fault Refusal :=
  .next (s.finish (withCtx s.block (.hashFinal c) c fun x => performHashFinal c x))

end Sys2Proof.Machine
end

