-- ==== Sys2Proof/Machine/MacKdf.lean ====
section
/-! DEFINITION. The MAC/KDF engine: HMAC-SHA256 (rules R140 to R143) and the PBKDF2-style key derivation (rules R144 to
R148), with the commands HMAC and KDF. Nothing here touches a hash context (rule R112). -/

namespace Sys2Proof.Machine

/-! ## HMAC-SHA256 (rules R140 to R142) -/

/-- `hmac_key_block(key)` (rule R140): a key longer than 64 bytes is hashed first. -/
def hmacKeyBlock (key : ByteString) : ByteString :=
  let k0 := if key.length > 64 then sha256 key else key
  k0 ++ bytesOf (64 - k0.length) 0

/-- `inner_pad(key)` (rule R141). -/
def innerPad (key : ByteString) : ByteString := xorBytes (hmacKeyBlock key) (bytesOf 64 0x36#8)

/-- `outer_pad(key)` (rule R141). -/
def outerPad (key : ByteString) : ByteString := xorBytes (hmacKeyBlock key) (bytesOf 64 0x5c#8)

/-- `hmac(key, message)` (rule R142). -/
def hmac (key message : ByteString) : ByteString := sha256 (outerPad key ++ sha256 (innerPad key ++ message))

/-! ## Key derivation (rules R144 to R147) -/

/-- n further iterations of the loop of rule R144, from the last T and the accumulator U. -/
def kdfIterate (P : ByteString) : Nat → ByteString → ByteString → ByteString
  | 0, _, U => U
  | n + 1, T, U => kdfIterate P n (hmac P T) (xorBytes U (hmac P T))

/-- `kdf_block(P, S, c, i)` (rule R144): T starts the accumulator, then iterations 2 to c. -/
def kdfBlock (P S : ByteString) (c i : Nat) : ByteString :=
  kdfIterate P (c - 1) (hmac P (S ++ be32 (BitVec.ofNat 32 i))) (hmac P (S ++ be32 (BitVec.ofNat 32 i)))

/-- `pbkdf2(P, S, c, N)` (rule R145): blocks 1 to ceil(N / 32), the first N bytes kept. -/
def pbkdf2 (P S : ByteString) (c N : Nat) : ByteString :=
  (((List.range ((N + 31) / 32)).map fun i => kdfBlock P S c (i + 1)).flatten).take N

/-- `KDF_DKLEN` (rule R5): the only key length a command asks for (rule R145). -/
def kdfDkLen : Nat := 32

/-- The key that KDF, ENC.BYTES and DEC.BYTES derive: `pbkdf2(password, salt, ITER_COUNT, 32)` (rule R147). -/
def deriveKey (cfg : Config) (password salt : ByteString) : ByteString :=
  pbkdf2 password salt cfg.iterCount kdfDkLen

/-! ## The commands -/

/-- HMAC (rule R143): A = key, B = message. -/
def execHmac (s : State) : Host.Outcome State Fault Refusal :=
  .next (s.finish (withAny s.block .a fun key => withAny s.block .b fun message =>
    .ok (some (hmac key message)) none))

/-- KDF (rule R147): A = password, B = salt. -/
def execKdf (s : State) : Host.Outcome State Fault Refusal :=
  .next (s.finish (withAny s.block .a fun password => withAny s.block .b fun salt =>
    .ok (some (deriveKey s.cfg password salt)) none))

end Sys2Proof.Machine
end

