-- ==== Sys2Proof/Machine/Entropy.lean ====
section
/-! DEFINITION. Draws from the entropy oracle (rules R13, R240, R241): what a waiting command does with an answer, and
how a draw finds its answer among the moves to come.

A draw takes its answer at once when the oracle moves next; otherwise the command is pending (assumption log 3). -/

namespace Sys2Proof.Machine

/-- How many bytes a waiting command has asked for: n of `draw ENTROPY(n)` (rules R242, R263). -/
def EntropyWait.wanted : EntropyWait → Nat
  | .rngFill n => n
  | .encSalt _ _ => 32
  | .encIv _ _ _ => 16

/-- An answer of the oracle has exactly the bytes asked for, or is Unavailable (rule R13). -/
def OracleAnswer.fits (a : OracleAnswer) (n : Nat) : Bool :=
  match a with
  | .bytes s => decide (s.length = n)
  | .unavailable => true

/-- The length of an answer's bytes. -/
def OracleAnswer.length : OracleAnswer → Nat
  | .bytes s => s.length
  | .unavailable => 0

/-- The envelope that ENC.BYTES returns (rules R260, R263). -/
def encryptEnvelope (cfg : Config) (plaintext password salt iv : ByteString) : ByteString :=
  salt ++ iv ++ cbcEncrypt cfg (deriveKey cfg password salt) iv plaintext

/-- How a waiting command goes on when the oracle answers (rules R242, R263): ENC.BYTES draws its IV after its salt,
and any `Unavailable` raises EntropyUnavailable (rule R304). -/
def continueDraw (cfg : Config) : EntropyWait → OracleAnswer → CmdOutcome
  | .rngFill _, .bytes s => .ok (some s) none
  | .encSalt plaintext password, .bytes salt => .wait (.encIv plaintext password salt)
  | .encIv plaintext password salt, .bytes iv => .ok (some (encryptEnvelope cfg plaintext password salt iv)) none
  | .rngFill _, .unavailable => .err .entropyUnavailable
  | .encSalt _ _, .unavailable => .err .entropyUnavailable
  | .encIv _ _ _, .unavailable => .err .entropyUnavailable

/-- What became of a draw: the command's outcome and the moves left, or an answer that rule R13 excludes. -/
inductive DrawResult
  | done (o : CmdOutcome) (rest : List Move)
  | badAnswer (expected got : Nat)
  deriving DecidableEq, Repr

/-- A waiting command takes the answers that come next; it still waits when the next move is not an answer. -/
def runDraw (cfg : Config) (q : EntropyWait) : List Move → DrawResult
  | [] => .done (.wait q) []
  | .script :: rest => .done (.wait q) (.script :: rest)
  | .host h :: rest => .done (.wait q) (.host h :: rest)
  | .answer a :: rest =>
    if a.fits q.wanted then
      match continueDraw cfg q a with
      | .wait q' => runDraw cfg q' rest
      | .ok r0 r1 => .done (.ok r0 r1) rest
      | .okHash c x r0 => .done (.okHash c x r0) rest
      | .err e => .done (.err e) rest
      | .fault k => .done (.fault k) rest
    else .badAnswer q.wanted a.length

/-- The command that waits as q says draws, and ends or stays pending (rules R89, R240). -/
def State.draw (s : State) (q : EntropyWait) : Result :=
  match runDraw s.cfg q s.schedule with
  | .done o rest => .next ({ s with schedule := rest }.finish o)
  | .badAnswer expected got => .fault (.oracleAnswerLength expected got)

/-- The end of a command that may draw: the outcome `wait q` of its first part stands for "draw now". -/
def State.finishOrDraw (s : State) : CmdOutcome → Result
  | .wait q => s.draw q
  | .ok r0 r1 => .next (s.finish (.ok r0 r1))
  | .okHash c x r0 => .next (s.finish (.okHash c x r0))
  | .err e => .next (s.finish (.err e))
  | .fault k => .next (s.finish (.fault k))

/-- The oracle answers a: the pending command resumes; with none pending, the answer is the late one of a command that
RESET has abandoned, and is discarded (rule R340). -/
def State.answer (s : State) (a : OracleAnswer) : Result :=
  match s.block.pending with
  | none => .next s
  | some q => { s with block := { s.block with pending := none }, schedule := .answer a :: s.schedule }.draw q

end Sys2Proof.Machine
end

