-- ==== Sys2Proof/Machine/Envelope.lean ====
section
/-! DEFINITION. The envelope codec and the top-level operations: ENV.PACK (rule R261), ENV.UNPACK (rule R262),
ENC.BYTES (rule R263) and DEC.BYTES (rule R264). -/

namespace Sys2Proof.Machine

/-- `to_bytes(salt, iv)` (rule R261). -/
def envPack (salt iv : ByteString) : ByteString := salt ++ iv

/-- `from_bytes(header)` (rule R262): salt and IV, or InvalidLength for any length other than 48. -/
def envUnpack (header : ByteString) : Except Error (ByteString × ByteString) :=
  if header.length ≠ 48 then .error .invalidLength else .ok (slice header 0 32, slice header 32 48)

/-- `decrypt_bytes(E, password)` (rule R264): the envelope's length, the key, then CBC decryption. -/
def decryptEnvelope (cfg : Config) (E password : ByteString) : Except Error ByteString :=
  if E.length < 48 then .error .invalidLength
  else cbcDecrypt cfg (deriveKey cfg password (slice E 0 32)) (slice E 32 48) (slice E 48 E.length)

/-- ENV.PACK (rule R261): A = salt, 32 bytes, B = IV, 16 bytes. -/
def execEnvPack (s : State) : Host.Outcome State Fault Refusal :=
  .next (s.finish (withFixed s.block .a 32 fun salt => withFixed s.block .b 16 fun iv =>
    .ok (some (envPack salt iv)) none))

/-- ENV.UNPACK (rule R262): A = header. The only command that writes both result slots (rule R33). -/
def execEnvUnpack (s : State) : Host.Outcome State Fault Refusal :=
  .next (s.finish (withAny s.block .a fun header =>
    match envUnpack header with
    | .ok (salt, iv) => .ok (some salt) (some iv)
    | .error e => .err e))

/-- The operands of ENC.BYTES, and its first draw (rule R263). The outcome `wait` stands for "draw now". -/
def performEncBytes (s : State) : CmdOutcome :=
  withAny s.block .a fun plaintext => withAny s.block .b fun password => .wait (.encSalt plaintext password)

/-- ENC.BYTES (rule R263): A = plaintext, B = password. It draws the salt, then the IV. -/
def execEncBytes (s : State) : Host.Outcome State Fault Refusal :=
  s.finishOrDraw (performEncBytes s)

/-- DEC.BYTES (rule R264): A = envelope, B = password. -/
def execDecBytes (s : State) : Host.Outcome State Fault Refusal :=
  .next (s.finish (withAny s.block .a fun E => withAny s.block .b fun password =>
    okOrErr (decryptEnvelope s.cfg E password)))

end Sys2Proof.Machine
end

