-- ==== Sys2Proof/Machine/Random.lean ====
section
/-! DEFINITION. The random source's commands: RNG.FILL (rule R242) and CHAOS.FILL (rules R243, R244). -/

namespace Sys2Proof.Machine

/-- RNG.FILL after its operand checks: a count of 0 completes with "" and no draw, any other count draws. The outcome
`wait` stands for "draw now". -/
def performRngFill (s : State) : CmdOutcome :=
  withFixed s.block .a 4 fun count => withCount s.cfg .a count fun n =>
    if n = 0 then .ok (some []) none else .wait (.rngFill n)

/-- RNG.FILL (rule R242): A = count, 4 bytes. -/
def execRngFill (s : State) : Host.Outcome State Fault Refusal :=
  s.finishOrDraw (performRngFill s)

/-- `CHAOS_GEN(seed, n)` where it is present: n bytes, a function of (seed, n), and nothing else is known of it (rule
R243; a free value, assumption log 8). -/
def chaosGen (seed : ByteString) (n : Nat) : ByteString := (List.range n).map fun i => Config.chaosByte seed n i

/-- CHAOS.FILL (rule R244): A = seed, B = count, 4 bytes. Refused faults where `CHAOS_GEN` is absent. -/
def execChaosFill (s : State) : Host.Outcome State Fault Refusal :=
  .next (s.finish (withAny s.block .a fun seed => withFixed s.block .b 4 fun count =>
    if s.cfg.chaosPresent = false then .fault (.refused .chaosFill)
    else withCount s.cfg .b count fun n => .ok (some (chaosGen seed n)) none))

end Sys2Proof.Machine
end

