-- ==== Sys2Proof/Machine/Dispatch.lean ====
section
/-! DEFINITION. The meaning of every command: one arm per constructor of Instr (rule R82). -/

namespace Sys2Proof.Machine

def exec (i : Instr) (s : State) : Host.Outcome State Fault Refusal :=
  match i with
  | .hashInit c => Sys2Proof.Machine.execHashInit c s
  | .hashUpdate c => Sys2Proof.Machine.execHashUpdate c s
  | .hashFinal c => Sys2Proof.Machine.execHashFinal c s
  | .hmac => Sys2Proof.Machine.execHmac s
  | .kdf => Sys2Proof.Machine.execKdf s
  | .blkEnc => Sys2Proof.Machine.execBlkEnc s
  | .blkDec => Sys2Proof.Machine.execBlkDec s
  | .cbcEnc => Sys2Proof.Machine.execCbcEnc s
  | .cbcDec => Sys2Proof.Machine.execCbcDec s
  | .ctrEnc => Sys2Proof.Machine.execCtrEnc s
  | .ctrDec => Sys2Proof.Machine.execCtrDec s
  | .envPack => Sys2Proof.Machine.execEnvPack s
  | .envUnpack => Sys2Proof.Machine.execEnvUnpack s
  | .rngFill => Sys2Proof.Machine.execRngFill s
  | .chaosFill => Sys2Proof.Machine.execChaosFill s
  | .encBytes => Sys2Proof.Machine.execEncBytes s
  | .decBytes => Sys2Proof.Machine.execDecBytes s

end Sys2Proof.Machine
end

