-- ==== Sys2Proof/Machine/HostPort.lean ====
section
/-! DEFINITION. The host's side of the block: issuing a command (rule R89), the other host actions (rules R61, R66,
R86, R316), the statements of a host script (rules R87, R88), and one move of one agent (rule R17). `run` stands for
`exec`, which Step.lean supplies. -/

namespace Sys2Proof.Machine

/-- The meaning of commands, as `exec` gives it. -/
abbrev Runner := Instr → State → Result

/-- A function of the next state, where there is one. -/
def mapNext (f : State → State) : Result → Result
  | .next s => .next (f s)
  | .fault r => .fault r
  | .refused r => .refused r

/-! ## Issuing a command (rules R89, R308) -/

/-- A write of the word w to CMD. Halted: no step of the block (rule R307), and the host goes on, as program P1 of
95_test_vectors.md does. Pending: refused (rule R343). An illegal word faults before any operand is read (rule R83). -/
def issueCommand (run : Runner) (w : Word) (s : State) : Result :=
  if s.block.halted then .next s
  else if s.block.pending.isSome then .refused .commandWhilePending
  else
    match decodeFor s.cfg.hashCtxCount w with
    | .error _ => .next (s.finish (.fault (.illegalCommand w)))
    | .ok i => run i s

/-! ## Host actions (rule R316) -/

/-- The host notes what a read gave back. -/
def State.noteRead (s : State) (v : ReadValue) : State := { s with host := { s.host with reads := v :: s.host.reads } }

/-- `WR S, v` (rules R32, R61, R67): refused while a command is pending, and when v is too long. -/
def writeSlot (x : Slot) (v : ByteString) (s : State) : Result :=
  if s.block.pending.isSome then .refused .hostWriteWhilePending
  else if v.length > s.cfg.maxOperandLen then .refused (.hostWriteTooLong x v.length)
  else .next { s with block := s.block.setSlot x v }

/-- The byte offset in the register window of a bus access (rules R39, R60, R61): at or above REG_BASE, 32 bits wide,
at a multiple of 4. -/
def windowOffset (cfg : Config) (addr width : Nat) : Except Refusal Nat :=
  if addr < cfg.regBase then .error (.outsideRegisterWindow addr)
  else if width ≠ 32 ∨ (addr - cfg.regBase) % 4 ≠ 0 then .error (.registerAccessShape addr width)
  else .ok (addr - cfg.regBase)

/-- A read access of the register window: no side effect on the block (rule R66). -/
def busRead (addr width : Nat) (s : State) : Result :=
  match windowOffset s.cfg addr width with
  | .error r => .refused r
  | .ok off => .next (s.noteRead (.word (s.readOffset off)))

/-- A write access of the register window: at offset 0 it issues a command, at any other offset it is ignored (rules
R39, R66); while a command is pending it is refused (rule R343). -/
def busWrite (run : Runner) (addr width : Nat) (v : Word) (s : State) : Result :=
  match windowOffset s.cfg addr width with
  | .error r => .refused r
  | .ok off =>
    if off = 0 then issueCommand run v s
    else if s.block.pending.isSome then .refused .hostWriteWhilePending
    else .next s

/-- What a host action does (rules R86, R316). -/
def hostAct (run : Runner) (h : HostAction) (s : State) : Result :=
  match h with
  | .wr x v => writeSlot x v s
  | .rd r => .next (s.noteRead (.bytes (s.block.result r)))
  | .rdReg r => .next (s.noteRead (.word (s.readReg r)))
  | .cmd w => issueCommand run w s
  | .reset => .next s.applyReset
  | .busRead addr width => busRead addr width s
  | .busWrite addr width v => busWrite run addr width v s

/-! ## Host scripts (rules R87, R88) -/

/-- `pc <- target`. -/
def State.jumpTo (s : State) (target : Nat) : State := { s with host := { s.host with pc := target } }

/-- `pc <- pc + 1`. -/
def State.advance (s : State) : State := s.jumpTo (s.host.pc + 1)

/-- The script is over, in the given way. -/
def State.endScript (s : State) (p : ScriptPhase) : State := { s with host := { s.host with phase := p } }

/-- After the action of a statement: on to the next, unless its command is pending (program P3). -/
def State.afterStatement (s : State) : State :=
  if s.block.pending.isSome then { s with host := { s.host with awaiting := true } } else s.advance

/-- A command that the script waits for is over, by an answer or by RESET: on to the next statement. -/
def State.settle (s : State) : State :=
  if s.host.awaiting && s.block.pending.isNone then { s with host := { s.host with awaiting := false } }.advance else s

/-- `MOVR S, R`: RD R, then WR S with the value read; a `none` stops the script (rule R88). -/
def runMovr (dst : Slot) (src : ResultSlot) (s : State) : Result :=
  match s.block.result src with
  | none => .next ((s.noteRead (.bytes none)).endScript .stopped)
  | some v => mapNext State.advance (writeSlot dst v (s.noteRead (.bytes (some v))))

/-- One statement of a script. -/
def runStmt (run : Runner) (stmt : Stmt) (s : State) : Result :=
  match stmt with
  | .act h => mapNext State.afterStatement (hostAct run h s)
  | .movr dst src => runMovr dst src s
  | .jnzStatus target => .next (if statusCode s.block.STATUS ≠ 0 then s.jumpTo target else s.advance)
  | .jmp target => .next (s.jumpTo target)
  | .halt => .next (s.endScript .ended)

/-- The statement the host runs next: none when the script is over, or past its last statement. -/
def HostAgent.fetch (h : HostAgent) : Option Stmt :=
  match h.phase with
  | .running => h.script[h.pc]?
  | .ended => none
  | .stopped => none

/-- The host's move by its script. While a command is pending the host waits for it (rules R67, R240); with no
statement left nothing happens (rule R315). -/
def scriptMove (run : Runner) (s : State) : Result :=
  if s.block.pending.isSome then .next s
  else
    match s.host.fetch with
    | none => .next s
    | some stmt => runStmt run stmt s

/-! ## One move (rule R17) -/

/-- One move of one agent. -/
def makeMove (run : Runner) (m : Move) (s : State) : Result :=
  match m with
  | .script => scriptMove run s
  | .host h => mapNext State.settle (hostAct run h s)
  | .answer a => mapNext State.settle (s.answer a)

/-- One step: the first move of the schedule, or the script's next statement when the schedule is empty. -/
def stepWith (run : Runner) (s : State) : Result :=
  match s.schedule with
  | [] => scriptMove run s
  | m :: rest => makeMove run m { s with schedule := rest }

/-- The host's very next action is to write the command word w to CMD. -/
def scheduleCommand (w : Word) (s : State) : State := { s with schedule := .host (.cmd w) :: s.schedule }

end Sys2Proof.Machine
end

