-- ==== Sys2Proof/Machine/Step.lean ====
section
/-! DEFINITION. One step of the machine, with `exec` as the meaning of commands (rules R17, R89). -/

namespace Sys2Proof.Machine

/-- One step: one move of one agent. -/
def step (s : State) : Host.Outcome State Fault Refusal := stepWith exec s

/-- The command word w (32 bits, rule R80) placed where the next step takes it: the block fetches nothing (rule R31),
so it becomes the host's next action, a write of CMD. -/
def State.withFetchWord (s : State) (nbits w : Nat) : State := scheduleCommand (BitVec.ofNat 32 (w % 2 ^ nbits)) s

end Sys2Proof.Machine
end

