-- ==== Sys2Proof/Machine/Assembler.lean ====
section
/-! DEFINITION. The host's notation: the assembler syntax of commands and host actions (rule R86), host scripts with
labels (rule R87) and the pseudo-commands with their expansions (rule R88). `assemble` turns the text of a script into
the statements that `HostAgent.script` holds, and refuses (answers `none`) any text the rules give no meaning. -/

namespace Sys2Proof.Machine

/-! ## Tokens -/

/-- A token of one line: a word, the characters of a quoted string, or a mark. -/
inductive Token
  | word (cs : List Char)
  | quoted (cs : List Char)
  | comma
  | colon
  | lpar
  | rpar
  deriving DecidableEq, Repr

/-- The double quote. -/
def quoteChar : Char := Char.ofNat 34

/-- The marks that are tokens of their own. -/
def markToken (ch : Char) : Option Token :=
  if ch = ',' then some .comma
  else if ch = ':' then some .colon
  else if ch = '(' then some .lpar
  else if ch = ')' then some .rpar
  else none

/-- The word read so far, if there is one, before the tokens that follow. -/
def flushWord (rev : List Char) (ts : List Token) : List Token := if rev = [] then ts else .word rev.reverse :: ts

/-- The tokens of a line. `rev` is the word being read, latest character first; `quote` the string being read, where
one is open. A `;` outside a string starts a comment (rule R86). -/
def lexLine : List Char → List Char → Option (List Char) → Option (List Token)
  | [], rev, none => some (flushWord rev [])
  | [], _, some _ => none
  | ch :: cs, rev, some q =>
    if ch = quoteChar then (lexLine cs rev none).map (Token.quoted q.reverse :: ·) else lexLine cs rev (some (ch :: q))
  | ch :: cs, rev, none =>
    if ch = ';' then some (flushWord rev [])
    else if ch = quoteChar then (lexLine cs [] (some [])).map (flushWord rev)
    else if ch.isWhitespace then (lexLine cs [] none).map (flushWord rev)
    else
      match markToken ch with
      | some t => (lexLine cs [] none).map fun ts => flushWord rev (t :: ts)
      | none => lexLine cs (ch :: rev) none

/-! ## Numbers and values (rule R86) -/

/-- Upper case: mnemonics are case-insensitive (rule R86). -/
def upper (cs : List Char) : List Char := cs.map Char.toUpper

/-- The value of a hex digit. -/
def hexDigit (ch : Char) : Option Nat :=
  let n := ch.toNat
  if 48 ≤ n ∧ n ≤ 57 then some (n - 48)
  else if 97 ≤ n ∧ n ≤ 102 then some (n - 87)
  else if 65 ≤ n ∧ n ≤ 70 then some (n - 55)
  else none

/-- The number that digits in base `base` denote, after `acc`. -/
def digitsValue (base : Nat) : Nat → List Char → Option Nat
  | acc, [] => some acc
  | acc, ch :: cs =>
    match hexDigit ch with
    | none => none
    | some d => if d < base then digitsValue base (acc * base + d) cs else none

/-- A decimal number. -/
def decimal (cs : List Char) : Option Nat := if cs = [] then none else digitsValue 10 0 cs

/-- The bytes of an even number of hex digits. -/
def hexBytes : List Char → Option ByteString
  | [] => some []
  | [_] => none
  | hi :: lo :: cs =>
    match hexDigit hi, hexDigit lo, hexBytes cs with
    | some h, some l, some rest => some (BitVec.ofNat 8 (16 * h + l) :: rest)
    | _, _, _ => none

/-- The digits after `0x`. -/
def afterHexPrefix : List Char → Option (List Char)
  | '0' :: 'x' :: cs => some cs
  | _ => none

/-- A number, decimal or `0x` hex. -/
def number (cs : List Char) : Option Nat :=
  match afterHexPrefix cs with
  | some ds => if ds = [] then none else digitsValue 16 0 ds
  | none => decimal cs

/-- A number that fits a u32. -/
def number32 (cs : List Char) : Option Word :=
  match number cs with
  | some n => if n < 2 ^ 32 then some (BitVec.ofNat 32 n) else none
  | none => none

/-- The bytes of a quoted ASCII string. -/
def asciiBytes : List Char → Option ByteString
  | [] => some []
  | ch :: cs => if ch.toNat < 128 then (asciiBytes cs).map (BitVec.ofNat 8 ch.toNat :: ·) else none

/-- A value that ends the line: a hex literal, a quoted string, or `BE32(<n>)`. -/
def parseValue : List Token → Option ByteString
  | [.word cs] => (afterHexPrefix cs).bind hexBytes
  | [.quoted cs] => asciiBytes cs
  | [.word fn, .lpar, .word n, .rpar] => if fn = "BE32".toList then (number32 n).map be32 else none
  | _ => none

/-! ## Names (rules R82, R86) -/

def parseSlot (cs : List Char) : Option Slot :=
  if cs = ['A'] then some .a else if cs = ['B'] then some .b else if cs = ['C'] then some .c else none

def parseResult (cs : List Char) : Option ResultSlot :=
  if cs = ['R', '0'] then some .r0 else if cs = ['R', '1'] then some .r1 else none

/-- What `RD` reads: R0, R1 or one of the four readable registers. -/
def parseRead (cs : List Char) : Option HostAction :=
  match parseResult cs with
  | some r => some (.rd r)
  | none =>
    if cs = "STATUS".toList then some (.rdReg .status)
    else if cs = "FAULT".toList then some (.rdReg .fault)
    else if cs = "CFG_ITER".toList then some (.rdReg .cfgIter)
    else if cs = "CFG_NCTX".toList then some (.rdReg .cfgNctx)
    else none

/-- A hash command, by its mnemonic in upper case. -/
def parseHashCommand (cs : List Char) : Option (Nat → Instr) :=
  if cs = "HASH.INIT".toList then some .hashInit
  else if cs = "HASH.UPDATE".toList then some .hashUpdate
  else if cs = "HASH.FINAL".toList then some .hashFinal
  else none

/-- A command without an operand field, by its mnemonic in upper case. -/
def parsePlainCommand (cs : List Char) : Option Instr :=
  if cs = "HMAC".toList then some .hmac
  else if cs = "KDF".toList then some .kdf
  else if cs = "BLK.ENC".toList then some .blkEnc
  else if cs = "BLK.DEC".toList then some .blkDec
  else if cs = "CBC.ENC".toList then some .cbcEnc
  else if cs = "CBC.DEC".toList then some .cbcDec
  else if cs = "CTR.ENC".toList then some .ctrEnc
  else if cs = "CTR.DEC".toList then some .ctrDec
  else if cs = "ENV.PACK".toList then some .envPack
  else if cs = "ENV.UNPACK".toList then some .envUnpack
  else if cs = "RNG.FILL".toList then some .rngFill
  else if cs = "CHAOS.FILL".toList then some .chaosFill
  else if cs = "ENC.BYTES".toList then some .encBytes
  else if cs = "DEC.BYTES".toList then some .decBytes
  else none

/-- `CMD` with a context index for a hash command (0 where none is written), without one for any other. -/
def parseCommand : List Token → Option Instr
  | [.word m] =>
    match parseHashCommand (upper m) with
    | some i => some (i 0)
    | none => parsePlainCommand (upper m)
  | [.word m, .word c] =>
    match parseHashCommand (upper m), decimal c with
    | some i, some n => if n < 16 then some (i n) else none
    | _, _ => none
  | _ => none

/-! ## Statements (rules R86 to R88) -/

/-- A statement whose label is not yet an index. -/
inductive SourceStmt
  | plain (s : Stmt)
  | jnzStatus (label : List Char)
  | jmp (label : List Char)
  deriving DecidableEq, Repr

/-- The statement that issues a command. -/
def cmdStmt (i : Instr) : Stmt := .act (.cmd (encode i))

/-- `SHA256 <c>, <value>` (rule R88). -/
def expandSha256 (c : Nat) (v : ByteString) : List Stmt :=
  [cmdStmt (.hashInit c), .act (.wr .a v), cmdStmt (.hashUpdate c), cmdStmt (.hashFinal c)]

/-- `CBC.ROUNDTRIP` (rule R88). -/
def expandCbcRoundtrip : List Stmt := [cmdStmt .cbcEnc, .movr .c .r0, cmdStmt .cbcDec]

/-- The statements of one line after its label, pseudo-commands expanded. -/
def parseStmt : List Token → Option (List SourceStmt)
  | [] => some []
  | .word k :: ts =>
    let kw := upper k
    if kw = "CMD".toList then (parseCommand ts).map fun i => [.plain (cmdStmt i)]
    else if kw = "CMDW".toList then
      match ts with
      | [.word n] =>
        match afterHexPrefix n, number32 n with
        | some _, some w => some [.plain (.act (.cmd w))]
        | _, _ => none
      | _ => none
    else if kw = "WR".toList then
      match ts with
      | .word x :: .comma :: v =>
        match parseSlot x, parseValue v with
        | some slot, some bytes => some [.plain (.act (.wr slot bytes))]
        | _, _ => none
      | _ => none
    else if kw = "RD".toList then
      match ts with
      | [.word x] => (parseRead x).map fun h => [.plain (.act h)]
      | _ => none
    else if kw = "RESET".toList then if ts = [] then some [.plain (.act .reset)] else none
    else if kw = "HALT".toList then if ts = [] then some [.plain .halt] else none
    else if kw = "JMP".toList then
      match ts with
      | [.word l] => some [.jmp l]
      | _ => none
    else if kw = "JNZ".toList then
      match ts with
      | [.word r, .comma, .word l] => if r = "STATUS".toList then some [.jnzStatus l] else none
      | _ => none
    else if kw = "MOVR".toList then
      match ts with
      | [.word x, .comma, .word r] =>
        match parseSlot x, parseResult r with
        | some slot, some res => some [.plain (.movr slot res)]
        | _, _ => none
      | _ => none
    else if kw = "SHA256".toList then
      match ts with
      | .word c :: .comma :: v =>
        match decimal c, parseValue v with
        | some n, some bytes => if n < 16 then some ((expandSha256 n bytes).map .plain) else none
        | _, _ => none
      | _ => none
    else if kw = "CBC.ROUNDTRIP".toList then if ts = [] then some (expandCbcRoundtrip.map .plain) else none
    else none
  | .quoted _ :: _ => none
  | .comma :: _ => none
  | .colon :: _ => none
  | .lpar :: _ => none
  | .rpar :: _ => none

/-- One line: its label, where it has one, and its statements. Rule R87 lets "statements of rule R86" be labelled and is
silent on the others. DESIGN CHOICE (assumption log 15): a control statement or a pseudo-command of rule R88 may be
labelled too, or the label may stand alone, and it names the first statement that follows it, of an expansion the first
of its statements. -/
def parseLine (line : List Char) : Option (Option (List Char) × List SourceStmt) :=
  match lexLine line [] none with
  | none => none
  | some (.word l :: .colon :: ts) => (parseStmt ts).map fun ss => (some l, ss)
  | some ts => (parseStmt ts).map fun ss => (none, ss)

/-! ## Scripts (rule R87) -/

/-- The labels of the lines, each with the index of the statement it stands before; a label twice is refused (assumption
log 15). -/
def collectLabels : Nat → List (Option (List Char) × List SourceStmt) → Option (List (List Char × Nat))
  | _, [] => some []
  | n, (l, ss) :: rest =>
    match collectLabels (n + ss.length) rest with
    | none => none
    | some ls =>
      match l with
      | none => some ls
      | some name => if (ls.lookup name).isSome then none else some ((name, n) :: ls)

/-- A statement with its label resolved. -/
def resolveStmt (labels : List (List Char × Nat)) : SourceStmt → Option Stmt
  | .plain s => some s
  | .jnzStatus l => (labels.lookup l).map Stmt.jnzStatus
  | .jmp l => (labels.lookup l).map Stmt.jmp

/-- Every element mapped, or `none` if one has no image. -/
def mapAll {α β : Type} (f : α → Option β) : List α → Option (List β)
  | [] => some []
  | a :: as =>
    match f a, mapAll f as with
    | some b, some bs => some (b :: bs)
    | _, _ => none

/-- The lines of a text. -/
def splitLines : List Char → List Char → List (List Char)
  | [], rev => [rev.reverse]
  | ch :: cs, rev => if ch = '\n' then rev.reverse :: splitLines cs [] else splitLines cs (ch :: rev)

/-- The statements of a script, given as text (rules R86 to R88). -/
def assemble (text : List Char) : Option (List Stmt) :=
  match mapAll parseLine (splitLines text []) with
  | none => none
  | some lines =>
    match collectLabels 0 lines with
    | none => none
    | some labels => mapAll (resolveStmt labels) (lines.flatMap Prod.snd)

/-- The host with a script before it, at its first statement. -/
def State.loadScript (s : State) (script : List Stmt) : State :=
  { s with host := { s.host with script := script, pc := 0, phase := .running, awaiting := false } }

end Sys2Proof.Machine
end

