-- ==== Sys2Proof/Safety.lean ====
section
/-! DEFINITION. The terms the claims use: the invariant of the machine (rule R42 among it), what the host can observe
(rule R46), the normal end of a run (rule R317), and short runs of commands. -/

namespace Sys2Proof.Machine

/-! ## The invariant -/

/-- The four clauses of rule R42, in its order, on the bytes absorbed since the last HASH.INIT. -/
structure HashCtx.Sound (x : HashCtx) : Prop where
  bufLenBound : x.BUFLEN ≤ 63
  bitLen : x.BITLEN.toNat = 8 * x.message.length
  bufLen : x.BUFLEN = x.BITLEN.toNat / 8 % 64
  chain : x.H = compressBlocks shaH0 ((x.BITLEN.toNat / 8 - x.BUFLEN) / 64) x.message

/-- The context has absorbed exactly the bytes m since its last HASH.INIT: rule R42 holds, and BUF holds the bytes that
no full block has taken (rule R115). -/
structure HashCtx.Absorbed (x : HashCtx) (m : ByteString) : Prop where
  message : x.message = m
  sound : x.Sound
  buffer : x.tail = m.drop (64 * (m.length / 64))

/-- What holds in every state the machine can reach. -/
structure State.Inv (s : State) : Prop where
  /-- STATUS.CODE is OK or an error of the core, and bits 31:4 are 0 (rules R35, R303). -/
  status : s.block.STATUS.toNat ≤ 3
  /-- Bits 31:8 of FAULT are 0, and InternalInvariant is never raised (rules R36, R305). -/
  fault : s.block.FAULT.toNat < 2 ^ 7
  /-- There are HASH_CTX_COUNT contexts (rule R30). -/
  contexts : s.block.ctx.length = s.cfg.hashCtxCount
  /-- Every Active context holds the state of the bytes it has absorbed (rule R42). -/
  history : ∀ x ∈ s.block.ctx, x.phase = .active → x.Absorbed x.message
  /-- No operand slot is longer than MAX_OPERAND_LEN (rule R32). -/
  operands : ∀ x v, s.block.slot x = some v → v.length ≤ s.cfg.maxOperandLen
  /-- R1 holds a byte string only beside R0 (rule R33). -/
  results : s.block.R1.isSome = true → s.block.R0.isSome = true
  /-- A halted core has nothing pending (rule R307). -/
  haltedIdle : s.block.pending.isSome = true → s.block.FAULT = 0#32
  /-- The script waits only for a command that is pending. -/
  awaiting : s.host.awaiting = true → s.block.pending.isSome = true

/-! ## Illegal words (rule R83) -/

/-- The list of rule R83, with o for OPC. -/
def illegalWord (nctx : Nat) (w : Word) : Prop :=
  let o := (fieldOPC w).toNat
  (o = 0x00 ∨ (0x04 ≤ o ∧ o ≤ 0x0F) ∨ (0x12 ≤ o ∧ o ≤ 0x1F) ∨ (0x24 ≤ o ∧ o ≤ 0x2F) ∨ (0x32 ≤ o ∧ o ≤ 0x3F) ∨
    (0x42 ≤ o ∧ o ≤ 0x4F) ∨ (0x52 ≤ o ∧ o ≤ 0xFF)) ∨
  (fieldM w = true ∧ o ≠ 0x22 ∧ o ≠ 0x23) ∨
  ((fieldCTX w).toNat ≠ 0 ∧ o ≠ 0x01 ∧ o ≠ 0x02 ∧ o ≠ 0x03) ∨
  (nctx ≤ (fieldCTX w).toNat ∧ (o = 0x01 ∨ o = 0x02 ∨ o = 0x03)) ∨
  fieldRSV0 w ≠ 0 ∨ fieldRSV1 w ≠ 0

/-! ## Observation and the end of a run -/

/-- The state the host can observe (rule R46). -/
structure Observation where
  status : Word
  fault : Word
  cfgIter : Word
  cfgNctx : Word
  r0 : Option ByteString
  r1 : Option ByteString
  halted : Bool
  deriving DecidableEq, Repr

/-- What the host can observe of the block (rule R46). -/
def State.observe (s : State) : Observation where
  status := s.readReg .status
  fault := s.readReg .fault
  cfgIter := s.readReg .cfgIter
  cfgNctx := s.readReg .cfgNctx
  r0 := s.block.R0
  r1 := s.block.R1
  halted := s.block.halted

/-- A run has ended normally: the script reached HALT or its last statement, nothing is pending and FAULT = 0 (rule
R317). A faulted run, a run that waits for ever and a refused run are not normal ends. -/
def State.normalEnd (s : State) : Bool :=
  (s.host.phase == .ended || (s.host.phase == .running && decide (s.host.script.length ≤ s.host.pc)))
    && s.block.pending.isNone && (s.block.FAULT == 0#32)

/-- A command written to CMD is taken up: not halted, nothing pending (rule R89). -/
structure State.Ready (s : State) : Prop where
  notHalted : s.block.FAULT = 0#32
  notPending : s.block.pending = none

/-! ## Frames -/

/-- Slot x replaced by v, which may be `none`: for claims about slots a command does not read. -/
def State.replaceSlot (s : State) (x : Slot) (v : Option ByteString) : State :=
  match x with
  | .a => { s with block := { s.block with A := v } }
  | .b => { s with block := { s.block with B := v } }
  | .c => { s with block := { s.block with C := v } }

/-- The move is a RESET, by the script's statement or by the host outside it. -/
def State.nextIsReset (s : State) : Bool :=
  match s.schedule with
  | [] => s.host.fetch == some (.act .reset)
  | .script :: _ => s.host.fetch == some (.act .reset)
  | .host h :: _ => h == .reset
  | .answer _ :: _ => false

/-! ## The three ways a command ends (rules R12, R33, R306, R307) -/

/-- A successful completion: results written, STATUS = OK, nothing else changed (rules R33, R35). -/
def State.afterOk (s : State) (r0 r1 : Option ByteString) : State :=
  { s with block := { s.block with R0 := r0, R1 := r1, STATUS := 0#32 } }

/-- An error completion: no results, STATUS = the code, nothing else changed (rule R306). -/
def State.afterError (s : State) (code : Word) : State :=
  { s with block := { s.block with R0 := none, R1 := none, STATUS := code } }

/-- A fault entry: no results, bit n of FAULT set, nothing else changed (rule R307). -/
def State.afterFault (s : State) (n : Nat) : State :=
  { s with block := { s.block with R0 := none, R1 := none, FAULT := s.block.FAULT ||| (1#32 <<< n) } }

/-- A hash context written, nothing else changed. -/
def State.withContext (s : State) (c : Nat) (x : HashCtx) : State :=
  { s with block := { s.block with ctx := s.block.ctx.set c x } }

/-- A command left pending, nothing else changed (rule R67). -/
def State.nowPending (s : State) (q : EntropyWait) : State := { s with block := { s.block with pending := some q } }

/-- Nothing pending, nothing else changed. -/
def State.noLongerPending (s : State) : State := { s with block := { s.block with pending := none } }

/-- Other moves to come, nothing else changed. -/
def State.withSchedule (s : State) (ms : List Move) : State := { s with schedule := ms }

/-- t is s after a RESET (rule R340): every slot and result none, STATUS and FAULT 0, nothing pending, every context
Unset, and the configuration kept, which CFG_ITER and CFG_NCTX read. -/
structure State.ResetTo (s t : State) : Prop where
  cfg : t.cfg = s.cfg
  A : t.block.A = none
  B : t.block.B = none
  C : t.block.C = none
  R0 : t.block.R0 = none
  R1 : t.block.R1 = none
  STATUS : t.block.STATUS = 0#32
  FAULT : t.block.FAULT = 0#32
  pending : t.block.pending = none
  ctxCount : t.block.ctx.length = s.cfg.hashCtxCount
  ctxPhase : ∀ x ∈ t.block.ctx, x.phase = .unset
  cfgIter : t.readReg .cfgIter = BitVec.ofNat 32 s.cfg.iterCount
  cfgNctx : t.readReg .cfgNctx = BitVec.ofNat 32 s.cfg.hashCtxCount

/-- t is s after the host has read v (rules R34, R66): the host has v, and nothing in the block changes. -/
structure State.HasRead (s t : State) (v : ReadValue) : Prop where
  block : t.block = s.block
  cfg : t.cfg = s.cfg
  reads : t.host.reads = v :: s.host.reads

/-- The length of an ENC.BYTES envelope for a plaintext of L bytes (rule R265). -/
structure EnvelopeLengthFor (L : Nat) (E : ByteString) : Prop where
  exact : E.length = 48 + 16 * (L / 16 + 1)
  least : 64 ≤ E.length
  short : L ≤ 15 → E.length = 64

/-! ## CTR (rules R207 to R209) -/

/-- The data of a CTR command fits the counter range, or the counter may wrap (rules R208, R347). -/
def ctrFits (cfg : Config) (IV D : ByteString) : Prop :=
  D = [] ∨ ctrInitial IV + (ctrBlockCount D - 1) ≤ 2 ^ 32 - 1 ∨ cfg.ctrWrap = true

/-- Keystream byte i: byte i mod 16 of the transform of counter block i div 16 (rules R208, R209). -/
def ctrKeystreamByte (cfg : Config) (K IV : ByteString) (i : Nat) : Byte :=
  (processBlock cfg K (slice IV 0 12 ++ be32 (BitVec.ofNat 32 (beVal (slice IV 12 16) + i / 16)))).getD (i % 16) 0

/-! ## Short runs of commands -/

/-- One outcome after another. -/
def andThen (r : Result) (f : State → Result) : Result :=
  match r with
  | .next s => f s
  | .fault k => .fault k
  | .refused k => .refused k

/-- HASH.UPDATE c with each piece in order, the host writing it to slot A first. -/
def hashPieces (c : Nat) : List ByteString → State → Result
  | [], s => .next s
  | m :: ms, s => andThen (exec (.hashUpdate c) { s with block := s.block.setSlot .a m }) (hashPieces c ms)

/-- HASH.INIT c, HASH.UPDATE c with each piece, HASH.FINAL c (rule R113). -/
def hashSession (c : Nat) (pieces : List ByteString) (s : State) : Result :=
  andThen (andThen (exec (.hashInit c) s) (hashPieces c pieces)) (exec (.hashFinal c))

/-- `Tj` of rule R144, for j = n + 1. -/
def kdfT (P S : ByteString) (i : Nat) : Nat → ByteString
  | 0 => hmac P (S ++ be32 (BitVec.ofNat 32 i))
  | n + 1 => hmac P (kdfT P S i n)

end Sys2Proof.Machine
end

