-- ==== Sys2Proof/Certificates/Slice0/Obligations.lean ====
section
/-! DEFINITION. The statements for the provers. Each docstring names the rule of the spec it formalises; where a clause
is the model's own choice, it names the entry of the assumption log. -/

open Sys2Proof Sys2Proof.Machine

/-! ## Encoding (rules R80 to R83, R89) -/

/-- Every well-formed command survives encoding and decoding, with every context index the configuration has: no bit of
an encoding is dropped (rules R80 to R82). -/
def Obligations.DecodeOfEncode : Prop :=
  ∀ (nctx : Nat) (i : Instr), nctx ≤ 16 → i.wellFormed nctx = true →
    decode (encode i) = .ok i ∧ decodeFor nctx (encode i) = .ok i

/-- A word that decodes is the encoding of the command it decodes to: each word has one meaning (rules R80 to R82). -/
def Obligations.EncodeOfDecode : Prop :=
  ∀ (w : Word) (i : Instr), decode w = .ok i → encode i = w ∧ i.encodable

/-- Rule R82: a word selects a row when `(w & mask) = match`; the decoder picks the row the word selects, every row is
one of the table, no word selects two rows, and for the hash rows the further check `CTX < HASH_CTX_COUNT` applies. -/
def Obligations.DecoderFollowsOpcodeTable : Prop :=
  ∀ w : Word,
    (∀ i, decode w = .ok i → i.row ∈ opcodeTable ∧ i.row.selects w = true ∧
      (i.ctxIndex = none ∨ i.ctxIndex = some (fieldCTX w).toNat)) ∧
    (∀ r ∈ opcodeTable, r.selects w = true → ∃ i, decode w = .ok i ∧ i.row = r) ∧
    (∀ r ∈ opcodeTable, ∀ r' ∈ opcodeTable, r.selects w = true → r'.selects w = true → r = r') ∧
    (∀ nctx i, decodeFor nctx w = .ok i ↔ decode w = .ok i ∧ ∀ c, i.ctxIndex = some c → c < nctx)

/-- Rule R83: the decoder refuses exactly the words of the rule's list, for any number of hash contexts. -/
def Obligations.IllegalWordsExactly : Prop :=
  ∀ (nctx : Nat) (w : Word), (∃ e, decodeFor nctx w = .error e) ↔ illegalWord nctx w

/-- Words written out bit by bit from rules R80 and R82, one for each family. -/
def Obligations.WrittenWordsDecode : Prop :=
  decode 0b00000000000000000011000000000011#32 = .ok (.hashFinal 3) ∧
  decode 0b00000000000000000000000000010001#32 = .ok .kdf ∧
  decode 0b00000000000000000000000000100001#32 = .ok .blkDec ∧
  decode 0b00000000000000000000000100100010#32 = .ok .ctrEnc ∧
  decode 0b00000000000000000000000001000000#32 = .ok .rngFill ∧
  decode 0b00000000000000000000000001010001#32 = .ok .decBytes

/-- Rule R89: when the block is neither halted nor pending and a word that decodes to i is written to CMD, by the host
outside its script, by an access of the register window (rule R39), or by the statement at pc, the step is `exec i`;
`settle` and `afterStatement` are what the host's pc does around it (assumption log 5). -/
def Obligations.StepRunsDecodedCommand : Prop :=
  ∀ (s : State) (w : Word) (i : Instr) (rest : List Move), s.Ready → decodeFor s.cfg.hashCtxCount w = .ok i →
    step (s.withSchedule (.host (.cmd w) :: rest)) = mapNext State.settle (exec i (s.withSchedule rest)) ∧
    step (s.withSchedule (.host (.busWrite s.cfg.regBase 32 w) :: rest)) =
      mapNext State.settle (exec i (s.withSchedule rest)) ∧
    (s.host.fetch = some (.act (.cmd w)) →
      step (s.withSchedule (.script :: rest)) = mapNext State.afterStatement (exec i (s.withSchedule rest)) ∧
      step (s.withSchedule []) = mapNext State.afterStatement (exec i (s.withSchedule [])))

/-- Rules R83, R89, R307: a word of rule R83's list faults IllegalCommand before any operand is read, whatever the slots
hold, and changes no state except FAULT and the result slots; every other word is a command that runs. `settle` is the
host's pc (assumption log 5). -/
def Obligations.IllegalWordFaults : Prop :=
  ∀ (s : State) (w : Word) (rest : List Move), s.Ready →
    (illegalWord s.cfg.hashCtxCount w →
      step (s.withSchedule (.host (.cmd w) :: rest)) = .next ((s.withSchedule rest).afterFault 0).settle) ∧
    (¬ illegalWord s.cfg.hashCtxCount w → ∃ i, decodeFor s.cfg.hashCtxCount w = .ok i ∧
      step (s.withSchedule (.host (.cmd w) :: rest)) = mapNext State.settle (exec i (s.withSchedule rest)))

/-! ## How commands end (rules R12, R84, R89, R300 to R308) -/

/-- Rule R12: a command that is taken up with nothing pending completes, raises one error, faults with one bit, or
waits; an error or a fault leaves no result and no context changed (rules R306, R307). -/
def Obligations.CommandEndsOneWay : Prop :=
  ∀ (i : Instr) (s t : State), s.block.pending = none → exec i s = .next t →
    (t.block.STATUS = 0#32 ∧ t.block.FAULT = s.block.FAULT ∧ t.block.pending = none) ∨
    ((∃ code ∈ [1#32, 2#32, 3#32], (t.withSchedule s.schedule) = s.afterError code)) ∨
    (∃ n, n < 8 ∧ t = s.afterFault n) ∨
    (∃ q, t.withSchedule s.schedule = s.nowPending q)

/-- No command stops the machine: `exec` refuses nothing, and its one fault is an oracle answer of a length that rule
R13 excludes (the model's convention, assumption log 7). -/
def Obligations.EveryCommandHasANextState : Prop :=
  ∀ (i : Instr) (s : State),
    (∃ t, exec i s = .next t) ∨
    (∃ want got, exec i s = .fault (.oracleAnswerLength want got) ∧ want ≠ got ∧ (i = .rngFill ∨ i = .encBytes) ∧
      ∃ b, Move.answer (.bytes b) ∈ s.schedule ∧ b.length = got)

/-- Rule R89's loop over the slots of rule R84: the first slot in the order A, B, C that is unwritten or has the wrong
length decides the fault, for every command. -/
def Obligations.OperandFaultsInOrder : Prop :=
  ∀ (i : Instr) (s : State) (k : FaultKind), (∀ c, i.ctxIndex = some c → c < s.block.ctx.length) →
    firstOperandFault s.block (operandShapes i) = some k →
    exec i s = .next (s.afterFault (match k with | .readUnwritten _ => 2 | _ => 1))

/-- Rule R84: slots a command does not read do not matter, `none` included, and stay as they are. -/
def Obligations.UnreadSlotsDoNotMatter : Prop :=
  ∀ (i : Instr) (s : State) (x : Slot) (v : Option ByteString), x ∉ (operandShapes i).map Prod.fst →
    exec i (s.replaceSlot x v) = mapNext (fun t => t.replaceSlot x v) (exec i s)

/-- The frame of every command (rules R32, R89): the configuration, the operand slots, the host and every context but
the command's own are unchanged. That a draw takes the answers that stand next in the schedule inside exec, so that
RNG.FILL and ENC.BYTES may consume moves, is the model's (assumption log 3); no other command consumes one. -/
def Obligations.CommandFrame : Prop :=
  ∀ (i : Instr) (s t : State), exec i s = .next t →
    t.cfg = s.cfg ∧ t.block.A = s.block.A ∧ t.block.B = s.block.B ∧ t.block.C = s.block.C ∧ t.host = s.host ∧
    t.block.ctx.length = s.block.ctx.length ∧
    (∀ c, i.ctxIndex ≠ some c → t.block.ctx[c]? = s.block.ctx[c]?) ∧
    (∃ answers : List OracleAnswer, s.schedule = answers.map Move.answer ++ t.schedule) ∧
    (i ≠ .rngFill → i ≠ .encBytes → t.schedule = s.schedule)

/-- Rule R300: the commands that raise no error leave STATUS = OK whenever they do not fault. -/
def Obligations.ErrorFreeCommands : Prop :=
  ∀ (i : Instr) (s t : State), i ≠ .cbcDec → i ≠ .ctrDec → i ≠ .envUnpack → i ≠ .decBytes → i ≠ .rngFill →
    i ≠ .encBytes → exec i s = .next t →
    (t.block.STATUS = 0#32 ∧ t.block.FAULT = s.block.FAULT) ∨ ∃ n, n < 8 ∧ t = s.afterFault n

/-- Rule R303: no step writes code 4 to STATUS. -/
def Obligations.IoFailureNeverWritten : Prop :=
  ∀ s t : State, step s = .next t → s.block.STATUS ≠ 4#32 → t.block.STATUS ≠ 4#32

/-! ## Hash engine (rules R110 to R117) -/

/-- HASH.INIT c (rule R114) completes in every phase, and starts the context on the empty string (rule R42); an index
without a context faults IllegalCommand (rule R83). The field message is the model's own (assumption log 4). -/
def Obligations.HashInitCompletes : Prop :=
  (∀ (c : Nat) (s : State), s.block.ctx.length ≤ c → exec (.hashInit c) s = .next (s.afterFault 0)) ∧
  ∀ (c : Nat) (x : HashCtx) (s : State), s.block.ctx[c]? = some x →
    exec (.hashInit c) s =
      .next ((s.withContext c
        { x with phase := .active, H := shaH0, BUFLEN := 0, BITLEN := 0, message := [] }).afterOk none none) ∧
    HashCtx.Absorbed { x with phase := .active, H := shaH0, BUFLEN := 0, BITLEN := 0, message := [] } []

/-- HASH.UPDATE c (rule R115) completes on an Active context that keeps rule R42 when the bit count does not pass
2^64 - 1; a context that held m then holds m || data. An Active context that breaks a clause of rule R42 faults
InternalInvariant (its place after LengthOverflow is assumption log 4). -/
def Obligations.HashUpdateCompletes : Prop :=
  ∀ (c : Nat) (x : HashCtx) (data : ByteString) (s : State), s.block.ctx[c]? = some x → x.phase = .active →
    s.block.A = some data → x.BITLEN.toNat + 8 * data.length ≤ 2 ^ 64 - 1 →
    (x.Sound →
      exec (.hashUpdate c) s = .next ((s.withContext c (x.update data)).afterOk none none) ∧
      (x.update data).phase = .active ∧
      (x.update data).BITLEN.toNat = x.BITLEN.toNat + 8 * data.length ∧
      ∀ m, x.Absorbed m → (x.update data).Absorbed (m ++ data)) ∧
    (¬ x.Sound → exec (.hashUpdate c) s = .next (s.afterFault 7))

/-- HASH.FINAL c (rule R116) completes on an Active context that keeps rule R42: R0 is the digest, which is sha256(m)
for a context that has absorbed m, and the context is Finalized. An Active context that breaks a clause of rule R42
faults InternalInvariant and gives no digest. -/
def Obligations.HashFinalCompletes : Prop :=
  ∀ (c : Nat) (x : HashCtx) (s : State), s.block.ctx[c]? = some x → x.phase = .active →
    (x.Sound →
      exec (.hashFinal c) s =
        .next ((s.withContext c { x with phase := .finalized }).afterOk
          (some (Machine.digest (padAndCompress x.H (x.BUF.toList.take x.BUFLEN) x.BITLEN))) none) ∧
      ∀ m, x.Absorbed m → Machine.digest (padAndCompress x.H (x.BUF.toList.take x.BUFLEN) x.BITLEN) = sha256 m) ∧
    (¬ x.Sound → exec (.hashFinal c) s = .next (s.afterFault 7))

/-- Rule R113: HASH.INIT c, HASH.UPDATE c with each piece of any split in order, HASH.FINAL c return sha256 of the
concatenation, for every length the bit counter can count (rule R112). -/
def Obligations.IncrementalEquivalence : Prop :=
  ∀ (c : Nat) (pieces : List ByteString) (s : State), c < s.block.ctx.length →
    8 * pieces.flatten.length ≤ 2 ^ 64 - 1 →
    ∃ t, hashSession c pieces s = .next t ∧ t.block.R0 = some (sha256 pieces.flatten) ∧ t.block.R1 = none ∧
      t.block.STATUS = 0#32 ∧ t.block.FAULT = s.block.FAULT

/-- Rule R117: HASH.UPDATE c or HASH.FINAL c on a context that is Unset or Finalized faults HashCtxState, and the
context is not changed. -/
def Obligations.InactiveContextFaults : Prop :=
  ∀ (c : Nat) (x : HashCtx) (s : State), s.block.ctx[c]? = some x → x.phase = .unset ∨ x.phase = .finalized →
    exec (.hashFinal c) s = .next (s.afterFault 3) ∧
    (∀ data, s.block.A = some data → exec (.hashUpdate c) s = .next (s.afterFault 3))

/-- Rule R115: an update that would take the bit count past 2^64 - 1 faults LengthOverflow before any byte is
absorbed. -/
def Obligations.LengthOverflowFaults : Prop :=
  ∀ (c : Nat) (x : HashCtx) (data : ByteString) (s : State), s.block.ctx[c]? = some x → x.phase = .active →
    s.block.A = some data → x.BITLEN.toNat + 8 * data.length > 2 ^ 64 - 1 →
    exec (.hashUpdate c) s = .next (s.afterFault 4)

/-! ## MAC and KDF (rules R140 to R148) -/

/-- HMAC (rules R142, R143) completes for every key and message, and faults ReadUnwritten without one of them. -/
def Obligations.HmacCompletes : Prop :=
  (∀ s : State, s.block.A = none ∨ s.block.B = none → exec .hmac s = .next (s.afterFault 2)) ∧
  ∀ (key message : ByteString) (s : State), s.block.A = some key → s.block.B = some message →
    exec .hmac s =
      .next (s.afterOk (some (sha256 (outerPad key ++ sha256 (innerPad key ++ message)))) none)

/-- Rules R140, R141: the pads of a key of at most 64 bytes and of a longer one. -/
def Obligations.HmacPads : Prop :=
  ∀ key : ByteString,
    let k0 := if key.length ≤ 64 then key ++ List.replicate (64 - key.length) 0#8
      else sha256 key ++ List.replicate 32 0#8
    innerPad key = k0.map (· ^^^ 0x36#8) ∧ outerPad key = k0.map (· ^^^ 0x5c#8) ∧ k0.length = 64

/-- KDF (rule R147) completes for every password and salt, and faults ReadUnwritten without one of them. -/
def Obligations.KdfCompletes : Prop :=
  (∀ s : State, s.block.A = none ∨ s.block.B = none → exec .kdf s = .next (s.afterFault 2)) ∧
  ∀ (password salt : ByteString) (s : State), s.block.A = some password → s.block.B = some salt →
    exec .kdf s = .next (s.afterOk (some (pbkdf2 password salt s.cfg.iterCount 32)) none)

/-- Rule R144: block i after c iterations is the running XOR of T1 to Tc, T1 = HMAC(P, S || BE32(i)) and
Tj = HMAC(P, Tj-1). -/
def Obligations.KdfBlockIsRunningXor : Prop :=
  ∀ (P S : ByteString) (i : Nat),
    kdfBlock P S 1 i = hmac P (S ++ be32 (BitVec.ofNat 32 i)) ∧
    ∀ n, kdfBlock P S (n + 2) i = xorBytes (kdfBlock P S (n + 1) i) (kdfT P S i (n + 1))

/-- Rules R145, R148: a 32-byte key is exactly block 1, every key has the length asked for, and one iteration is one
HMAC. -/
def Obligations.Pbkdf2Shape : Prop :=
  ∀ (P S : ByteString) (c N : Nat),
    pbkdf2 P S c 32 = kdfBlock P S c 1 ∧ (pbkdf2 P S c N).length = N ∧
    pbkdf2 P S 1 32 = hmac P (S ++ [0x00#8, 0x00#8, 0x00#8, 0x01#8])

/-! ## Block transform (rules R170 to R183) -/

/-- BLK.ENC and BLK.DEC (rules R178 to R180, R182, R183) complete on a 32-byte key and a 16-byte block. -/
def Obligations.BlockCommandsComplete : Prop :=
  ∀ (K b : ByteString) (s : State), s.block.A = some K → K.length = 32 → s.block.B = some b → b.length = 16 →
    exec .blkEnc s =
      .next (s.afterOk (some (xorBytes (perm s.cfg (sub s.cfg
        (xorBytes (perm s.cfg (sub s.cfg b)) (K.take 16)))) (K.drop 16))) none) ∧
    exec .blkDec s =
      .next (s.afterOk (some (invSub s.cfg (invPerm s.cfg
        (xorBytes (invSub s.cfg (invPerm s.cfg (xorBytes b (K.drop 16)))) (K.take 16))))) none)

/-- Rules R174, R176: output bit p is input bit `PBOX[p]`, and the inverse layer takes input bit `INV_PBOX[p]`. -/
def Obligations.PermutationGathers : Prop :=
  ∀ (cfg : Config) (b : ByteString) (p : Nat) (hp : p < 128),
    bitAt (perm cfg b) p = bitAt b (cfg.pbox[p]).val ∧
    ∃ q : Fin 128, (cfg.pbox[q]).val = p ∧ bitAt (invPerm cfg b) p = bitAt b q.val

/-- Rule R177: the three identities that invertibility needs, for every configuration rule R6 admits. -/
def Obligations.LayersInvert : Prop :=
  ∀ (cfg : Config) (b k : ByteString), b.length = 16 → k.length = 16 →
    invSub cfg (sub cfg b) = b ∧ sub cfg (invSub cfg b) = b ∧ invPerm cfg (perm cfg b) = b ∧
    perm cfg (invPerm cfg b) = b ∧ xorBytes (xorBytes b k) k = b

/-- Rule R181: the block transform is invertible both ways, for every configuration rule R6 admits. -/
def Obligations.BlockInvertibility : Prop :=
  ∀ (cfg : Config) (K b : ByteString), K.length = 32 → b.length = 16 →
    invertBlock cfg K (processBlock cfg K b) = b ∧ processBlock cfg K (invertBlock cfg K b) = b

/-! ## Chaining modes (rules R200 to R211) -/

/-- Rules R201, R202: a string that pads to p, and only such a string, is what stripping p gives; everything else is
the one error InvalidPadding. -/
def Obligations.PaddingCheckedExactly : Prop :=
  ∀ p : ByteString, 16 ≤ p.length → p.length % 16 = 0 →
    (∀ m, pkcs7Unpad p = .ok m ↔ pkcs7Pad m = p) ∧
    ((∀ m, pkcs7Pad m ≠ p) → pkcs7Unpad p = .error .invalidPadding)

/-- CBC.ENC (rules R203, R205) completes for every plaintext: block i of the ciphertext is the transform of block i of
the padded plaintext XOR the ciphertext block before it (the IV before block 0). -/
def Obligations.CbcEncCompletes : Prop :=
  ∀ (K IV P : ByteString) (s : State), s.block.A = some K → K.length = 32 → s.block.B = some IV → IV.length = 16 →
    s.block.C = some P →
    ∃ C, exec .cbcEnc s = .next (s.afterOk (some C) none) ∧ C.length = 16 * (P.length / 16 + 1) ∧
      ∀ i, i < P.length / 16 + 1 →
        slice C (16 * i) (16 * i + 16) =
          processBlock s.cfg K (xorBytes (slice (pkcs7Pad P) (16 * i) (16 * i + 16))
            (if i = 0 then IV else slice C (16 * (i - 1)) (16 * i)))

/-- CBC.DEC (rules R204, R206, R306): a ciphertext that is short or misaligned raises InvalidLength; otherwise block i
of the padded plaintext is the inverse transform of block i XOR the block before it, and the command completes with
that string stripped or raises InvalidPadding. -/
def Obligations.CbcDecOutcomes : Prop :=
  ∀ (K IV C : ByteString) (s : State), s.block.A = some K → K.length = 32 → s.block.B = some IV → IV.length = 16 →
    s.block.C = some C →
    (C.length < 16 ∨ C.length % 16 ≠ 0 → exec .cbcDec s = .next (s.afterError 1#32)) ∧
    (16 ≤ C.length → C.length % 16 = 0 →
      ∃ p, p.length = C.length ∧
        (∀ i, i < C.length / 16 →
          slice p (16 * i) (16 * i + 16) =
            xorBytes (invertBlock s.cfg K (slice C (16 * i) (16 * i + 16)))
              (if i = 0 then IV else slice C (16 * (i - 1)) (16 * i))) ∧
        (∀ m, pkcs7Pad m = p → exec .cbcDec s = .next (s.afterOk (some m) none)) ∧
        ((∀ m, pkcs7Pad m ≠ p) → exec .cbcDec s = .next (s.afterError 2#32)))

/-- Rule R206: CBC decryption gives back every plaintext, the empty one included, for every configuration rule R6
admits; and so do the two commands, when the host copies R0 to C between them (the pseudo-command of rule R88). -/
def Obligations.CbcRoundTrip : Prop :=
  (∀ (cfg : Config) (K IV P : ByteString), K.length = 32 → IV.length = 16 →
    cbcDecrypt cfg K IV (cbcEncrypt cfg K IV P) = .ok P) ∧
  (∀ (K IV P : ByteString) (s : State), s.block.A = some K → K.length = 32 → s.block.B = some IV → IV.length = 16 →
    s.block.C = some P →
    ∃ t, andThen (exec .cbcEnc s) (fun u => exec .cbcDec (u.replaceSlot .c u.block.R0)) = .next t ∧
      t.block.R0 = some P ∧ t.block.STATUS = 0#32)

/-- CTR.ENC (rules R207 to R210) completes when the counter stays in its range or may wrap: the result has the data's
length, and byte i is data byte i XOR keystream byte i. -/
def Obligations.CtrEncCompletes : Prop :=
  ∀ (K IV D : ByteString) (s : State), s.block.A = some K → K.length = 32 → s.block.B = some IV → IV.length = 16 →
    s.block.C = some D → ctrFits s.cfg IV D →
    ∃ out, exec .ctrEnc s = .next (s.afterOk (some out) none) ∧ out.length = D.length ∧
      ∀ i, i < D.length → out.getD i 0 = D.getD i 0 ^^^ ctrKeystreamByte s.cfg K IV i

/-- CTR.DEC (rule R211): data shorter than 16 bytes raises InvalidLength where CTR_DEC_MIN_LEN_CHECK holds; otherwise
it completes as CTR.ENC does, with no alignment test. -/
def Obligations.CtrDecOutcomes : Prop :=
  ∀ (K IV D : ByteString) (s : State), s.block.A = some K → K.length = 32 → s.block.B = some IV → IV.length = 16 →
    s.block.C = some D →
    (s.cfg.ctrDecMinLenCheck = true → D.length < 16 → exec .ctrDec s = .next (s.afterError 1#32)) ∧
    (s.cfg.ctrDecMinLenCheck = false ∨ 16 ≤ D.length →
      exec .ctrDec s = exec .ctrEnc s ∧
      (ctrFits s.cfg IV D → ∃ out, exec .ctrDec s = .next (s.afterOk (some out) none) ∧ out.length = D.length ∧
        ∀ i, i < D.length → out.getD i 0 = D.getD i 0 ^^^ ctrKeystreamByte s.cfg K IV i))

/-- Rules R208, R209: data that would need a counter above 2^32 - 1 with CTR_WRAP = false faults CounterOverflow before
any output, in CTR.ENC and, once its length test is passed, in CTR.DEC. -/
def Obligations.CtrCounterOverflowFaults : Prop :=
  ∀ (K IV D : ByteString) (s : State), s.block.A = some K → K.length = 32 → s.block.B = some IV → IV.length = 16 →
    s.block.C = some D → ¬ ctrFits s.cfg IV D →
    exec .ctrEnc s = .next (s.afterFault 5) ∧
    (s.cfg.ctrDecMinLenCheck = false ∨ 16 ≤ D.length → exec .ctrDec s = .next (s.afterFault 5))

/-- Rule R209: decryption is identical to encryption, `ctr_xcrypt(K, IV, ctr_xcrypt(K, IV, D)) = D`. -/
def Obligations.CtrInvolution : Prop :=
  ∀ (cfg : Config) (K IV D out : ByteString), K.length = 32 → IV.length = 16 → ctrXcrypt cfg K IV D = .ok out →
    ctrXcrypt cfg K IV out = .ok D

/-! ## Random source (rules R240 to R244) -/

/-- RNG.FILL (rule R242): a count above MAX_OPERAND_LEN faults; 0 completes with "" and no draw; any other count draws,
and completes, raises EntropyUnavailable or is pending as the oracle's next move has it (that an answer standing next
in the schedule is taken at once is assumption log 3). -/
def Obligations.RngFillOutcomes : Prop :=
  ∀ (count : ByteString) (s : State), s.block.A = some count → count.length = 4 →
    (beVal count > s.cfg.maxOperandLen → exec .rngFill s = .next (s.afterFault 1)) ∧
    (beVal count = 0 → exec .rngFill s = .next (s.afterOk (some []) none)) ∧
    (0 < beVal count → beVal count ≤ s.cfg.maxOperandLen →
      (∀ v rest, s.schedule = .answer (.bytes v) :: rest → v.length = beVal count →
        exec .rngFill s = .next ((s.withSchedule rest).afterOk (some v) none)) ∧
      (∀ rest, s.schedule = .answer .unavailable :: rest →
        exec .rngFill s = .next ((s.withSchedule rest).afterError 3#32)) ∧
      ((∀ a rest, s.schedule ≠ .answer a :: rest) →
        exec .rngFill s = .next (s.nowPending (.rngFill (beVal count)))))

/-- Rules R240, R263: an answer resumes the pending command. RNG.FILL completes; ENC.BYTES with its salt goes on to its
second draw, and is pending on it, completes, or raises EntropyUnavailable as the oracle's next move has it (taken at
once: assumption log 3); ENC.BYTES with its IV completes; Unavailable raises EntropyUnavailable (rule R304). `settle` is
the host's pc (assumption log 5). -/
def Obligations.OracleAnswerResumes : Prop :=
  ∀ (s : State) (rest : List Move),
    (∀ n v, s.block.pending = some (.rngFill n) → v.length = n →
      step (s.withSchedule (.answer (.bytes v) :: rest)) =
        .next ((s.noLongerPending.withSchedule rest).afterOk (some v) none).settle) ∧
    (∀ P pw salt, s.block.pending = some (.encSalt P pw) → salt.length = 32 →
      ((∀ a rest', rest ≠ .answer a :: rest') →
        step (s.withSchedule (.answer (.bytes salt) :: rest)) =
          .next ((s.withSchedule rest).nowPending (.encIv P pw salt))) ∧
      (∀ iv rest', rest = .answer (.bytes iv) :: rest' → iv.length = 16 →
        step (s.withSchedule (.answer (.bytes salt) :: rest)) =
          .next ((s.noLongerPending.withSchedule rest').afterOk
            (some (salt ++ iv ++ cbcEncrypt s.cfg (pbkdf2 pw salt s.cfg.iterCount 32) iv P)) none).settle) ∧
      (∀ rest', rest = .answer .unavailable :: rest' →
        step (s.withSchedule (.answer (.bytes salt) :: rest)) =
          .next ((s.noLongerPending.withSchedule rest').afterError 3#32).settle)) ∧
    (∀ P pw salt iv, s.block.pending = some (.encIv P pw salt) → iv.length = 16 →
      step (s.withSchedule (.answer (.bytes iv) :: rest)) =
        .next ((s.noLongerPending.withSchedule rest).afterOk
          (some (salt ++ iv ++ cbcEncrypt s.cfg (pbkdf2 pw salt s.cfg.iterCount 32) iv P)) none).settle) ∧
    (∀ q, s.block.pending = some q →
      step (s.withSchedule (.answer .unavailable :: rest)) =
        .next ((s.noLongerPending.withSchedule rest).afterError 3#32).settle)

/-- Rules R67, R240, R343: while a command is pending and no answer comes, nothing changes; a write of a slot, of CMD or
of any other register is refused; reads have no effect on the block; and an answer with nothing pending, the late one
of an abandoned command, is discarded (rule R340). That a write of a read-only or reserved register is refused during
the wait is assumption log 10, and that the script does not move then is assumption log 5. -/
def Obligations.PendingHoldsTheBlock : Prop :=
  ∀ (s : State) (rest : List Move),
    (s.block.pending.isSome = true →
      step (s.withSchedule []) = .next (s.withSchedule []) ∧
      step (s.withSchedule (.script :: rest)) = .next (s.withSchedule rest) ∧
      (∀ x v, step (s.withSchedule (.host (.wr x v) :: rest)) = .refused .hostWriteWhilePending) ∧
      (∀ w, s.block.FAULT = 0#32 → step (s.withSchedule (.host (.cmd w) :: rest)) = .refused .commandWhilePending) ∧
      (∀ off w, off % 4 = 0 → off ≠ 0 →
        step (s.withSchedule (.host (.busWrite (s.cfg.regBase + off) 32 w) :: rest)) =
          .refused .hostWriteWhilePending) ∧
      (∀ r, ∃ t, step (s.withSchedule (.host (.rdReg r) :: rest)) = .next t ∧ t.block = s.block ∧
        t.host.reads = .word (s.readReg r) :: s.host.reads)) ∧
    (s.block.pending = none → s.host.awaiting = false → ∀ a,
      step (s.withSchedule (.answer a :: rest)) = .next (s.withSchedule rest))

/-- Rule R67: a command that waits has written nothing: the host observes what it observed before (rule R46), and the
contexts and slots are as before. -/
def Obligations.WaitIsInvisible : Prop :=
  ∀ (i : Instr) (s t : State), s.block.pending = none → exec i s = .next t → t.block.pending ≠ none →
    t.observe = s.observe ∧ t.block.ctx = s.block.ctx ∧ (∀ x, t.block.slot x = s.block.slot x)

/-- CHAOS.FILL (rules R243, R244): absent, it faults Refused; present, a count above MAX_OPERAND_LEN faults, and any
other completes with n bytes that are a function of (seed, n) (their values are free, assumption log 8). -/
def Obligations.ChaosFillOutcomes : Prop :=
  ∀ (seed count : ByteString) (s : State), s.block.A = some seed → s.block.B = some count → count.length = 4 →
    (s.cfg.chaosPresent = false → exec .chaosFill s = .next (s.afterFault 6)) ∧
    (s.cfg.chaosPresent = true → beVal count > s.cfg.maxOperandLen → exec .chaosFill s = .next (s.afterFault 1)) ∧
    (s.cfg.chaosPresent = true → beVal count ≤ s.cfg.maxOperandLen →
      exec .chaosFill s = .next (s.afterOk (some (chaosGen seed (beVal count))) none) ∧
      (chaosGen seed (beVal count)).length = beVal count)

/-! ## Envelope (rules R260 to R267) -/

/-- ENV.PACK and ENV.UNPACK (rules R261, R262) complete; any header length but 48 raises InvalidLength, no header faults
ReadUnwritten; and unpacking what was packed gives salt and IV back. -/
def Obligations.EnvelopeHeaderCommands : Prop :=
  (∀ s : State, s.block.A = none → exec .envUnpack s = .next (s.afterFault 2)) ∧
  (∀ (salt iv : ByteString) (s : State), s.block.A = some salt → salt.length = 32 → s.block.B = some iv →
    iv.length = 16 →
    exec .envPack s = .next (s.afterOk (some (salt ++ iv)) none) ∧
    exec .envUnpack (s.replaceSlot .a (some (salt ++ iv))) =
      .next ((s.replaceSlot .a (some (salt ++ iv))).afterOk (some salt) (some iv))) ∧
  (∀ (header : ByteString) (s : State), s.block.A = some header →
    (header.length = 48 →
      exec .envUnpack s = .next (s.afterOk (some (header.take 32)) (some (header.drop 32)))) ∧
    (header.length ≠ 48 → exec .envUnpack s = .next (s.afterError 1#32)))

/-- ENC.BYTES (rule R263): with a salt and then an IV from the oracle it completes with the envelope; either draw's
Unavailable raises EntropyUnavailable with no output; it is pending while a draw is not answered; and without one of
its operands it faults ReadUnwritten and draws nothing. That answers standing next in the schedule are taken at once is
assumption log 3. -/
def Obligations.EncBytesOutcomes : Prop :=
  (∀ s : State, s.block.A = none ∨ s.block.B = none → exec .encBytes s = .next (s.afterFault 2)) ∧
  ∀ (P pw : ByteString) (s : State), s.block.A = some P → s.block.B = some pw →
    (∀ salt iv rest, s.schedule = .answer (.bytes salt) :: .answer (.bytes iv) :: rest → salt.length = 32 →
      iv.length = 16 →
      exec .encBytes s = .next ((s.withSchedule rest).afterOk
        (some (salt ++ iv ++ cbcEncrypt s.cfg (pbkdf2 pw salt s.cfg.iterCount 32) iv P)) none)) ∧
    (∀ rest, s.schedule = .answer .unavailable :: rest →
      exec .encBytes s = .next ((s.withSchedule rest).afterError 3#32)) ∧
    (∀ salt rest, s.schedule = .answer (.bytes salt) :: .answer .unavailable :: rest → salt.length = 32 →
      exec .encBytes s = .next ((s.withSchedule rest).afterError 3#32)) ∧
    (∀ salt rest, s.schedule = .answer (.bytes salt) :: rest → salt.length = 32 →
      (∀ a rest', rest ≠ .answer a :: rest') →
      exec .encBytes s = .next ((s.withSchedule rest).nowPending (.encIv P pw salt))) ∧
    ((∀ a rest, s.schedule ≠ .answer a :: rest) → exec .encBytes s = .next (s.nowPending (.encSalt P pw)))

/-- DEC.BYTES (rule R264): an envelope shorter than 48 bytes, or whose ciphertext is empty or misaligned, raises
InvalidLength; otherwise the padding check decides between the plaintext and InvalidPadding; and without one of its
operands it faults ReadUnwritten. -/
def Obligations.DecBytesOutcomes : Prop :=
  (∀ s : State, s.block.A = none ∨ s.block.B = none → exec .decBytes s = .next (s.afterFault 2)) ∧
  ∀ (E pw : ByteString) (s : State), s.block.A = some E → s.block.B = some pw →
    (E.length < 64 ∨ E.length % 16 ≠ 0 → exec .decBytes s = .next (s.afterError 1#32)) ∧
    (64 ≤ E.length → E.length % 16 = 0 →
      (∀ m, cbcDecrypt s.cfg (pbkdf2 pw (slice E 0 32) s.cfg.iterCount 32) (slice E 32 48) (E.drop 48) = .ok m →
        exec .decBytes s = .next (s.afterOk (some m) none)) ∧
      ((∀ m, cbcDecrypt s.cfg (pbkdf2 pw (slice E 0 32) s.cfg.iterCount 32) (slice E 32 48) (E.drop 48) ≠ .ok m) →
        exec .decBytes s = .next (s.afterError 2#32)))

/-- Rule R265: the length of every envelope that ENC.BYTES returns for a plaintext of L bytes: at least 64, and exactly
64 for L in 0..15 (the empty plaintext and "hello world" among them). The command has its two answers inside exec, or
is pending on either draw and an answer resumes it (answers next in the schedule are taken at once: assumption log
3). -/
def Obligations.EnvelopeLength : Prop :=
  ∀ (P pw salt iv : ByteString) (s : State) (rest : List Move), salt.length = 32 → iv.length = 16 →
    (s.block.A = some P → s.block.B = some pw → s.schedule = .answer (.bytes salt) :: .answer (.bytes iv) :: rest →
      ∃ t E, exec .encBytes s = .next t ∧ t.block.R0 = some E ∧ EnvelopeLengthFor P.length E) ∧
    (s.block.pending = some (.encSalt P pw) →
      ∃ t E, step (s.withSchedule (.answer (.bytes salt) :: .answer (.bytes iv) :: rest)) = .next t ∧
        t.block.R0 = some E ∧ EnvelopeLengthFor P.length E) ∧
    (s.block.pending = some (.encIv P pw salt) →
      ∃ t E, step (s.withSchedule (.answer (.bytes iv) :: rest)) = .next t ∧
        t.block.R0 = some E ∧ EnvelopeLengthFor P.length E)

/-- Rules R263, R264 and the source's end-to-end scenario W5: whatever the oracle answers, DEC.BYTES with the same
password gives back what ENC.BYTES encrypted, for every configuration rule R6 admits. That the two answers, next in the
schedule, are taken at once inside exec is assumption log 3. -/
def Obligations.EnvelopeRoundTrip : Prop :=
  ∀ (P pw salt iv : ByteString) (s : State) (rest : List Move), s.block.A = some P → s.block.B = some pw →
    s.schedule = .answer (.bytes salt) :: .answer (.bytes iv) :: rest → salt.length = 32 → iv.length = 16 →
    ∃ t, andThen (exec .encBytes s) (fun u => exec .decBytes (u.replaceSlot .a u.block.R0)) = .next t ∧
      t.block.R0 = some P ∧ t.block.R1 = none ∧ t.block.STATUS = 0#32

/-! ## Registers, the host and reset (rules R32 to R39, R60, R61, R66, R86 to R88, R340) -/

/-- Rules R33 to R39, R66, R86, R316: what the host's reads give, with no effect on the block: `RD R0` and `RD R1` the
slot's bytes or none, at any time; `RD` of a register its word; a 32-bit read at each offset of the register window the
word there (that the window has no end is assumption log 11). The statement `RD` of a script reads the same and goes on
to the next statement. -/
def Obligations.RegisterWindowReads : Prop :=
  ∀ (s : State) (rest : List Move),
    let word (off : Nat) : Word :=
      if off = 0x04 then s.block.STATUS &&& 0xF#32 else if off = 0x08 then s.block.FAULT &&& 0xFF#32
      else if off = 0x0C then BitVec.ofNat 32 s.cfg.iterCount
      else if off = 0x10 then BitVec.ofNat 32 s.cfg.hashCtxCount else 0#32
    (∀ off, off % 4 = 0 → ∃ t, step (s.withSchedule (.host (.busRead (s.cfg.regBase + off) 32) :: rest)) = .next t ∧
      s.HasRead t (.word (word off))) ∧
    (∀ a v, (a, v) ∈ [(HostAction.rd .r0, ReadValue.bytes s.block.R0), (.rd .r1, .bytes s.block.R1),
        (.rdReg .status, .word (word 0x04)), (.rdReg .fault, .word (word 0x08)),
        (.rdReg .cfgIter, .word (word 0x0C)), (.rdReg .cfgNctx, .word (word 0x10))] →
      (∃ t, step (s.withSchedule (.host a :: rest)) = .next t ∧ s.HasRead t v) ∧
      (s.block.pending = none → s.host.fetch = some (.act a) →
        ∃ t, step (s.withSchedule []) = .next t ∧ step (s.withSchedule (.script :: rest)) = .next (t.withSchedule rest) ∧
          s.HasRead t v ∧ t.host.pc = s.host.pc + 1))

/-- Rules R39, R61, R66: with nothing pending a write of any register but CMD changes nothing in the block; an access
that is not a 32-bit word at a multiple of 4 is refused. -/
def Obligations.RegisterWindowWrites : Prop :=
  ∀ (s : State) (off width : Nat) (w : Word) (rest : List Move), s.host.awaiting = false →
    (s.block.pending = none → off % 4 = 0 → off ≠ 0 →
      step (s.withSchedule (.host (.busWrite (s.cfg.regBase + off) 32 w) :: rest)) = .next (s.withSchedule rest)) ∧
    (width ≠ 32 ∨ off % 4 ≠ 0 →
      step (s.withSchedule (.host (.busWrite (s.cfg.regBase + off) width w) :: rest)) =
        .refused (.registerAccessShape (s.cfg.regBase + off) width) ∧
      step (s.withSchedule (.host (.busRead (s.cfg.regBase + off) width) :: rest)) =
        .refused (.registerAccessShape (s.cfg.regBase + off) width))

/-- Rules R32, R61, R86, R87: a host write replaces the slot and nothing else; one longer than MAX_OPERAND_LEN is
refused. The statement `WR` of a script does the same and goes on to the next statement. -/
def Obligations.HostSlotWrite : Prop :=
  ∀ (s : State) (x : Slot) (v : ByteString) (rest : List Move), s.block.pending = none → s.host.awaiting = false →
    (v.length ≤ s.cfg.maxOperandLen →
      step (s.withSchedule (.host (.wr x v) :: rest)) = .next ((s.withSchedule rest).replaceSlot x (some v))) ∧
    (s.cfg.maxOperandLen < v.length →
      step (s.withSchedule (.host (.wr x v) :: rest)) = .refused (.hostWriteTooLong x v.length)) ∧
    (s.host.fetch = some (.act (.wr x v)) → ∀ ms rest, (ms = [] ∧ rest = []) ∨ ms = .script :: rest →
      (v.length ≤ s.cfg.maxOperandLen →
        step (s.withSchedule ms) =
          .next (((s.withSchedule rest).replaceSlot x (some v)).jumpTo (s.host.pc + 1))) ∧
      (s.cfg.maxOperandLen < v.length →
        step (s.withSchedule ms) = .refused (.hostWriteTooLong x v.length)))

/-- Rule R36: FAULT is sticky: nothing but RESET clears a bit of it. -/
def Obligations.FaultIsSticky : Prop :=
  ∀ s t : State, step s = .next t → s.nextIsReset = false → t.block.FAULT &&& s.block.FAULT = s.block.FAULT

/-- Rule R307: a halted core with nothing pending takes no command: every move but RESET leaves the results, the
registers and the contexts as they are, and the host goes on past a CMD write that has no step. -/
def Obligations.HaltedCoreIsFrozen : Prop :=
  (∀ s t : State, s.block.FAULT ≠ 0#32 → s.block.pending = none → step s = .next t → s.nextIsReset = false →
    t.block.R0 = s.block.R0 ∧ t.block.R1 = s.block.R1 ∧ t.block.STATUS = s.block.STATUS ∧
    t.block.FAULT = s.block.FAULT ∧ t.block.ctx = s.block.ctx ∧ t.block.pending = none) ∧
  (∀ (s : State) (w : Word), s.block.FAULT ≠ 0#32 → s.block.pending = none →
    s.host.fetch = some (.act (.cmd w)) →
    step (s.withSchedule []) = .next ((s.withSchedule []).jumpTo (s.host.pc + 1)))

/-- Rule R340: what RESET leaves, from every state, a pending command's included: the oracle's late answer is discarded,
the configuration is kept and CFG_ITER and CFG_NCTX read it. The host's script goes on, and the command it waited for
is over (assumption log 5). The statement `RESET` of a script (rules R86, R87) does the same and goes on to the next
statement. -/
def Obligations.ResetMove : Prop :=
  ∀ (s : State) (rest : List Move),
    (∃ t, step (s.withSchedule (.host .reset :: rest)) = .next t ∧ s.ResetTo t ∧ t.schedule = rest ∧
      t.host.awaiting = false ∧ ∀ a, step (t.withSchedule (.answer a :: rest)) = .next (t.withSchedule rest)) ∧
    (s.block.pending = none → s.host.fetch = some (.act .reset) →
      ∃ t, step (s.withSchedule []) = .next t ∧ step (s.withSchedule (.script :: rest)) = .next (t.withSchedule rest) ∧
        s.ResetTo t ∧ t.schedule = [] ∧ t.host = { s.host with pc := s.host.pc + 1 })

/-- Rules R5, R37, R38, R340: the state after reset has the values the spec gives, in the hardware's configuration. -/
def Obligations.ResetValues : Prop :=
  State.reset.block.A = none ∧ State.reset.block.B = none ∧ State.reset.block.C = none ∧
  State.reset.block.R0 = none ∧ State.reset.block.R1 = none ∧ State.reset.block.pending = none ∧
  State.reset.readOffset 0x00 = 0#32 ∧ State.reset.readOffset 0x04 = 0#32 ∧ State.reset.readOffset 0x08 = 0#32 ∧
  State.reset.readOffset 0x0C = 0x000186A0#32 ∧ State.reset.readOffset 0x10 = 0x00000001#32 ∧
  State.reset.block.ctx.map HashCtx.phase = [.unset] ∧
  State.reset.cfg.ctrWrap = false ∧ State.reset.cfg.ctrDecMinLenCheck = true ∧ State.reset.cfg.chaosPresent = false

/-- Rules R87, R88: the host's control statements move pc and leave the block alone; MOVR copies a result to a slot, and
a `none` stops the script. -/
def Obligations.ScriptControl : Prop :=
  ∀ s : State, s.schedule = [] → s.block.pending = none →
    (∀ l, s.host.fetch = some (.jnzStatus l) →
      step s = .next (s.jumpTo (if s.block.STATUS.extractLsb' 0 4 ≠ 0#4 then l else s.host.pc + 1))) ∧
    (∀ l, s.host.fetch = some (.jmp l) → step s = .next (s.jumpTo l)) ∧
    (s.host.fetch = some .halt → step s = .next (s.endScript .ended)) ∧
    (∀ x r, s.host.fetch = some (.movr x r) → s.block.result r = none →
      step s = .next ((s.noteRead (.bytes none)).endScript .stopped)) ∧
    (∀ x r v, s.host.fetch = some (.movr x r) → s.block.result r = some v → v.length ≤ s.cfg.maxOperandLen →
      step s = .next (((s.noteRead (.bytes (some v))).replaceSlot x (some v)).jumpTo (s.host.pc + 1))) ∧
    (s.host.fetch = none → step s = .next s)

/-- Rule R88: the pseudo-command SHA256 leaves sha256 of its value in R0, as four statements of a script. -/
def Obligations.Sha256PseudoCommand : Prop :=
  ∀ (s : State) (c : Nat) (v : ByteString), s.Ready → s.schedule = [] → c < s.cfg.hashCtxCount →
    s.block.ctx.length = s.cfg.hashCtxCount → v.length ≤ s.cfg.maxOperandLen →
    ∃ t, Host.Core.run Sys2Proof.core 4 (s.loadScript (expandSha256 c v)) = .next t ∧
      t.block.R0 = some (sha256 v) ∧ t.block.STATUS = 0#32 ∧ t.block.FAULT = 0#32 ∧ t.host.pc = 4 ∧
      t.normalEnd = true

/-! ## The whole machine (rules R6, R30, R42, R305, R342) -/

/-- A configuration is admitted exactly when the tables are bijections, supplied inverses match, ITER_COUNT is at least
1 and HASH_CTX_COUNT is 1 to 16 (rule R6), and MAX_OPERAND_LEN is at most 2^32 - 1 (rule R5). -/
def Obligations.ConfigurationsAdmittedExactly : Prop :=
  ∀ r : RawConfig, (∃ cfg, Config.accept r = some cfg ∧ cfg.toRawConfig = r) ↔
    ((Function.Bijective fun x : Fin 256 => r.sbox[x]) ∧ (Function.Bijective fun p : Fin 128 => r.pbox[p]) ∧
      (∀ t, r.invSboxSupplied = some t → ∀ x : Fin 256, t[(r.sbox[x]).toFin] = BitVec.ofFin x) ∧
      (∀ t, r.invPboxSupplied = some t → ∀ i : Fin 128, t[r.pbox[i]] = i) ∧
      1 ≤ r.iterCount ∧ 1 ≤ r.hashCtxCount ∧ r.hashCtxCount ≤ 16 ∧ r.maxOperandLen ≤ 2 ^ 32 - 1)

/-- Rule R342: the configuration never changes while the block runs. -/
def Obligations.ConfigurationIsFixed : Prop := ∀ s t : State, step s = .next t → t.cfg = s.cfg

/-- Every step keeps the invariant: STATUS and FAULT hold only what rules R35, R36 and R305 let them hold (no
InternalInvariant), every Active context holds the state of the bytes it has absorbed (rule R42), the operand slots
keep their bound (rule R32), and a halted core has nothing pending (rule R307). The bytes absorbed stand in the
model's own field message (assumption log 4), and that a script waits only for a command that is pending is the model's
own clause (assumption log 5). -/
def Obligations.StepKeepsInvariant : Prop := ∀ s t : State, s.Inv → step s = .next t → t.Inv

/-- The invariant holds right after reset (rule R340). -/
def Obligations.InvariantAtReset : Prop := State.reset.Inv
end

