-- ==== Sys2Proof/Laws/Bytes.lean ====
section
/-! SUPPORT. Laws of byte strings: lengths, slices, XOR and splitting (rules R7, R9, R10, R200). -/

namespace Sys2Proof.Machine

@[simp] theorem bytesOf_length (n : Nat) (v : Byte) : (bytesOf n v).length = n := List.length_replicate

@[simp] theorem be32_length (n : Word) : (be32 n).length = 4 := rfl

@[simp] theorem be64_length (n : DWord) : (be64 n).length = 8 := rfl

@[simp] theorem slice_length (s : ByteString) (a b : Nat) : (slice s a b).length = min b s.length - a := by
  simp [slice]

@[simp] theorem xorBytes_length (a b : ByteString) : (xorBytes a b).length = min a.length b.length :=
  List.length_zipWith

/-- XOR with the same bytes twice gives the first string back (rule R177). -/
theorem xorBytes_cancel (a k : ByteString) (h : a.length ≤ k.length) : xorBytes (xorBytes a k) k = a := by
  induction a generalizing k with
  | nil => simp [xorBytes]
  | cons x xs ih =>
    cases k with
    | nil => simp at h
    | cons y ys =>
      simp only [List.length_cons, Nat.add_le_add_iff_right] at h
      have := ih ys h
      simp only [xorBytes] at this ⊢
      simp [List.zipWith, this]

theorem xorPrefix_length (d k : ByteString) (h : d.length ≤ k.length) : (xorPrefix d k).length = d.length := by
  simp [xorPrefix, h]

theorem xorPrefix_cancel (d k : ByteString) (h : d.length ≤ k.length) : xorPrefix (xorPrefix d k) k = d := by
  rw [xorPrefix, xorPrefix_length d k h]
  exact xorBytes_cancel d _ (by simp [h])

/-- Splitting and joining: the first k pieces are the first k * n bytes. -/
theorem splitEvery_flatten (n k : Nat) (s : ByteString) : (splitEvery n k s).flatten = s.take (n * k) := by
  induction k generalizing s with
  | zero => simp [splitEvery]
  | succ k ih =>
    simp only [splitEvery, List.flatten_cons, ih]
    rw [show n * (k + 1) = n + n * k by ring, List.take_add]

@[simp] theorem splitEvery_length (n k : Nat) (s : ByteString) : (splitEvery n k s).length = k := by
  induction k generalizing s with
  | zero => rfl
  | succ k ih => simp [splitEvery, ih]

/-- Every piece has n bytes where the string is long enough. -/
theorem splitEvery_piece_length {n k : Nat} {s : ByteString} (h : n * k ≤ s.length) :
    ∀ p ∈ splitEvery n k s, p.length = n := by
  induction k generalizing s with
  | zero => simp [splitEvery]
  | succ k ih =>
    intro p hp
    rw [Nat.mul_succ] at h
    simp only [splitEvery, List.mem_cons] at hp
    rcases hp with rfl | hp
    · simp; omega
    · exact ih (by simp; omega) p hp

/-- Piece i is `s[n*i .. n*i + n]` (rule R200). -/
theorem splitEvery_getElem? (n k : Nat) (s : ByteString) (i : Nat) (h : i < k) :
    (splitEvery n k s)[i]? = some (slice s (n * i) (n * i + n)) := by
  induction k generalizing s i with
  | zero => omega
  | succ k ih =>
    cases i with
    | zero => simp [splitEvery, slice]
    | succ i =>
      simp only [splitEvery, List.getElem?_cons_succ]
      rw [ih _ _ (by omega)]
      simp only [slice, Option.some.injEq, List.drop_take, List.drop_drop]
      congr 1
      · ring_nf; omega
      · congr 1; ring

/-- Pieces of a prefix: bytes appended behind the pieces do not matter. -/
theorem splitEvery_append (n k : Nat) (s t : ByteString) (h : n * k ≤ s.length) :
    splitEvery n k (s ++ t) = splitEvery n k s := by
  induction k generalizing s with
  | zero => rfl
  | succ k ih =>
    rw [Nat.mul_succ] at h
    simp only [splitEvery]
    rw [List.take_append_of_le_length (by omega), List.drop_append_of_le_length (by omega), ih _ (by simp; omega)]

/-- One piece more at the end. -/
theorem splitEvery_succ (n k : Nat) (s : ByteString) :
    splitEvery n (k + 1) s = splitEvery n k s ++ [(s.drop (n * k)).take n] := by
  induction k generalizing s with
  | zero => simp [splitEvery]
  | succ k ih =>
    rw [splitEvery, ih, splitEvery]
    simp only [List.cons_append, List.drop_drop]
    congr 3
    ring_nf

/-- The blocks of an aligned string joined are the string (rule R200). -/
theorem blocks_flatten (m : ByteString) (h : m.length % 16 = 0) : (blocks m).flatten = m := by
  rw [blocks, splitEvery_flatten, List.take_of_length_le (by omega)]

/-- The blocks of a list of 16-byte blocks joined are that list. -/
theorem blocks_of_flatten (bs : List ByteString) (h : ∀ b ∈ bs, b.length = 16) : blocks bs.flatten = bs := by
  induction bs with
  | nil => rfl
  | cons b bs ih =>
    have hb : b.length = 16 := h b (by simp)
    have := ih fun x hx => h x (by simp [hx])
    rw [blocks] at this ⊢
    rw [List.flatten_cons, List.length_append, hb, show (16 + bs.flatten.length) / 16 = bs.flatten.length / 16 + 1 by omega,
      splitEvery]
    rw [List.take_left' hb, List.drop_left' hb, this]

/-- The slice of a first part. -/
theorem slice_first (a b : ByteString) (n : Nat) (h : a.length = n) : slice (a ++ b) 0 n = a := by
  subst h
  simp [slice]

/-- A slice behind the first part. -/
theorem slice_behind (a b : ByteString) (n i j : Nat) (h : a.length = n) (hi : n ≤ i) :
    slice (a ++ b) i j = slice b (i - n) (j - n) := by
  subst h
  simp only [slice, List.take_append, List.drop_append, List.length_take]
  rcases Nat.lt_or_ge j a.length with h | h
  · rw [List.drop_eq_nil_iff.2 (by simp; omega), show j - a.length = 0 by omega]
    simp
  · rw [List.take_of_length_le h, List.drop_eq_nil_iff.2 (by omega)]
    simp [Nat.min_eq_right h]

/-- A u32 is what its big-endian encoding encodes (rule R9). -/
theorem beVal_be32 (n : Word) : beVal (be32 n) = n.toNat := by
  have h := n.isLt
  simp only [beVal, be32, List.foldl_cons, List.foldl_nil, BitVec.extractLsb'_toNat, Nat.shiftRight_eq_div_pow]
  omega

end Sys2Proof.Machine
end

