-- ==== Sys2Proof/Laws/Cipher.lean ====
section
/-! SUPPORT. Laws of the cipher engine: the inverse tables are inverse (rules R171, R173), a block is its 128 bits
(rule R174), the layers keep the block length, and the padding lengths (rule R201). -/

namespace Sys2Proof.Machine

/-! ## Tables (rules R170 to R173) -/

theorem Config.admissible (cfg : Config) : cfg.toRawConfig.Admissible := (RawConfig.admissible_iff _).1 cfg.ok

theorem sboxAt_eq (cfg : Config) (x : Byte) : sboxAt cfg x = cfg.sbox.toList[x.toNat]'(by simp; exact x.isLt) := by
  simp [sboxAt]

/-- `INV_SBOX[SBOX[x]] = x` (rule R171). -/
@[simp] theorem invSboxAt_sboxAt (cfg : Config) (x : Byte) : invSboxAt cfg (sboxAt cfg x) = x := by
  rw [invSboxAt, sboxAt_eq, (Config.admissible cfg).sbox.idxOf_getElem]
  simp

/-- The S-box takes no value twice. -/
theorem sboxAt_injective (cfg : Config) : Function.Injective (sboxAt cfg) :=
  Function.LeftInverse.injective (invSboxAt_sboxAt cfg)

/-- `SBOX[INV_SBOX[y]] = y`: a bijection on a finite set (rules R170, R171). -/
@[simp] theorem sboxAt_invSboxAt (cfg : Config) (y : Byte) : sboxAt cfg (invSboxAt cfg y) = y := by
  have hfin : Finite Byte := Finite.of_injective BitVec.toFin fun _ _ => BitVec.toFin_inj.1
  obtain ⟨x, rfl⟩ := (Finite.injective_iff_surjective.1 (sboxAt_injective cfg)) y
  rw [invSboxAt_sboxAt]

theorem pboxAt_lt (cfg : Config) (p : Nat) : pboxAt cfg p < 128 := Fin.isLt _

/-- The positions of `PBOX` as numbers, none repeated. -/
theorem pbox_values_nodup (cfg : Config) : (cfg.pbox.toList.map Fin.val).Nodup :=
  (Config.admissible cfg).pbox.map Fin.val_injective

theorem pboxAt_eq (cfg : Config) (p : Nat) (hp : p < 128) :
    pboxAt cfg p = (cfg.pbox.toList.map Fin.val)[p]'(by simpa using hp) := by
  simp [pboxAt, Nat.mod_eq_of_lt hp]

/-- `INV_PBOX[PBOX[p]] = p` (rule R173). -/
theorem invPboxAt_pboxAt (cfg : Config) (p : Nat) (hp : p < 128) : invPboxAt cfg (pboxAt cfg p) = p := by
  rw [invPboxAt, Nat.mod_eq_of_lt (pboxAt_lt cfg p), pboxAt_eq cfg p hp, (pbox_values_nodup cfg).idxOf_getElem]

/-- `PBOX[INV_PBOX[q]] = q` and the position is one of 0..127 (rules R172, R173). -/
theorem pboxAt_invPboxAt (cfg : Config) (q : Nat) (hq : q < 128) :
    invPboxAt cfg q < 128 ∧ pboxAt cfg (invPboxAt cfg q) = q := by
  have hinj : Function.Injective fun p : Fin 128 => (⟨pboxAt cfg p, pboxAt_lt cfg p⟩ : Fin 128) := by
    intro a b h
    have h' : pboxAt cfg a = pboxAt cfg b := by simpa using h
    apply Fin.ext
    rw [← invPboxAt_pboxAt cfg a a.isLt, ← invPboxAt_pboxAt cfg b b.isLt, h']
  obtain ⟨p, hp⟩ := (Finite.injective_iff_surjective.1 hinj) ⟨q, hq⟩
  have hp' : pboxAt cfg p = q := by simpa using hp
  rw [← hp', invPboxAt_pboxAt cfg p p.isLt]
  exact ⟨p.isLt, rfl⟩

/-! ## Bits (rule R174) -/

@[simp] theorem blockOfBits_length (f : Nat → Bool) : (blockOfBits f).length = 16 := by simp [blockOfBits]

/-- Bit p of the block made of bits f is `f p` (rule R174). -/
theorem bitAt_blockOfBits (f : Nat → Bool) (p : Nat) (hp : p < 128) : bitAt (blockOfBits f) p = f p := by
  have h16 : p / 8 < 16 := by omega
  have h8 : 7 - p % 8 < 8 := by omega
  simp only [bitAt, blockOfBits, List.getD_eq_getElem?_getD, List.getElem?_map, List.getElem?_range h16,
    Option.map_some, Option.getD_some, byteOfBits, BitVec.getLsbD_ofFnLE, h8, dif_pos]
  congr 1
  omega

/-- A 16-byte block is known by its 128 bits (rule R174). -/
theorem block_ext {a b : ByteString} (ha : a.length = 16) (hb : b.length = 16)
    (h : ∀ p, p < 128 → bitAt a p = bitAt b p) : a = b := by
  apply List.ext_getElem (by omega)
  intro k hk hk'
  apply BitVec.eq_of_getLsbD_eq
  intro j hj
  have := h (8 * k + (7 - j)) (by omega)
  simp only [bitAt, List.getD_eq_getElem?_getD, show (8 * k + (7 - j)) / 8 = k by omega,
    List.getElem?_eq_getElem hk, List.getElem?_eq_getElem hk', Option.getD_some,
    show 7 - (8 * k + (7 - j)) % 8 = j by omega] at this
  exact this

/-! ## Lengths -/

@[simp] theorem sub_length (cfg : Config) (b : ByteString) : (sub cfg b).length = b.length := by simp [sub]
@[simp] theorem invSub_length (cfg : Config) (b : ByteString) : (invSub cfg b).length = b.length := by simp [invSub]
@[simp] theorem perm_length (cfg : Config) (b : ByteString) : (perm cfg b).length = 16 := by simp [perm]
@[simp] theorem invPerm_length (cfg : Config) (b : ByteString) : (invPerm cfg b).length = 16 := by simp [invPerm]

theorem subkey1_length {K : ByteString} (h : K.length = 32) : (subkey1 K).length = 16 := by simp [subkey1, h]
theorem subkey2_length {K : ByteString} (h : K.length = 32) : (subkey2 K).length = 16 := by simp [subkey2, h]

theorem processBlock_length (cfg : Config) {K : ByteString} (b : ByteString) (h : K.length = 32) :
    (processBlock cfg K b).length = 16 := by
  simp [processBlock, subkey2_length h]

theorem invertBlock_length (cfg : Config) (K c : ByteString) : (invertBlock cfg K c).length = 16 := by
  simp [invertBlock]

/-- The padded length is the next multiple of 16 above the length (rule R201). -/
theorem pkcs7Pad_length (m : ByteString) : (pkcs7Pad m).length = 16 * (m.length / 16 + 1) := by
  simp [pkcs7Pad]
  omega

theorem ctrNonce_length {IV : ByteString} (h : IV.length = 16) : (ctrNonce IV).length = 12 := by simp [ctrNonce, h]

end Sys2Proof.Machine
end

