-- ==== Sys2Proof/Laws/State.lean ====
section
/-! SUPPORT. The small lemmas of the state's updates: what each leaves alone, true by rfl. -/

namespace Sys2Proof.Machine

section Blocks
variable (b : Block) (r0 r1 v : Option ByteString) (x : Slot) (w : ByteString) (c : Nat) (h : HashCtx) (e : Error)
  (k : FaultKind)

@[simp] theorem Block.setResults_R0 : (b.setResults r0 r1).R0 = r0 := rfl
@[simp] theorem Block.setResults_R1 : (b.setResults r0 r1).R1 = r1 := rfl
@[simp] theorem Block.setResults_slot : (b.setResults r0 r1).slot x = b.slot x := by cases x <;> rfl
@[simp] theorem Block.setResults_A : (b.setResults r0 r1).A = b.A := rfl
@[simp] theorem Block.setResults_B : (b.setResults r0 r1).B = b.B := rfl
@[simp] theorem Block.setResults_C : (b.setResults r0 r1).C = b.C := rfl
@[simp] theorem Block.setResults_STATUS : (b.setResults r0 r1).STATUS = b.STATUS := rfl
@[simp] theorem Block.setResults_FAULT : (b.setResults r0 r1).FAULT = b.FAULT := rfl
@[simp] theorem Block.setResults_ctx : (b.setResults r0 r1).ctx = b.ctx := rfl
@[simp] theorem Block.setResults_pending : (b.setResults r0 r1).pending = b.pending := rfl

@[simp] theorem Block.setCtx_ctx : (b.setCtx c h).ctx = b.ctx.set c h := rfl
@[simp] theorem Block.setCtx_A : (b.setCtx c h).A = b.A := rfl
@[simp] theorem Block.setCtx_B : (b.setCtx c h).B = b.B := rfl
@[simp] theorem Block.setCtx_C : (b.setCtx c h).C = b.C := rfl
@[simp] theorem Block.setCtx_STATUS : (b.setCtx c h).STATUS = b.STATUS := rfl
@[simp] theorem Block.setCtx_FAULT : (b.setCtx c h).FAULT = b.FAULT := rfl
@[simp] theorem Block.setCtx_pending : (b.setCtx c h).pending = b.pending := rfl

@[simp] theorem Block.complete_R0 : (b.complete r0 r1).R0 = r0 := rfl
@[simp] theorem Block.complete_R1 : (b.complete r0 r1).R1 = r1 := rfl
@[simp] theorem Block.complete_A : (b.complete r0 r1).A = b.A := rfl
@[simp] theorem Block.complete_B : (b.complete r0 r1).B = b.B := rfl
@[simp] theorem Block.complete_C : (b.complete r0 r1).C = b.C := rfl
@[simp] theorem Block.complete_STATUS : (b.complete r0 r1).STATUS = 0#32 := rfl
@[simp] theorem Block.complete_FAULT : (b.complete r0 r1).FAULT = b.FAULT := rfl
@[simp] theorem Block.complete_ctx : (b.complete r0 r1).ctx = b.ctx := rfl
@[simp] theorem Block.complete_pending : (b.complete r0 r1).pending = b.pending := rfl

@[simp] theorem Block.raise_R0 : (b.raise e).R0 = none := rfl
@[simp] theorem Block.raise_R1 : (b.raise e).R1 = none := rfl
@[simp] theorem Block.raise_A : (b.raise e).A = b.A := rfl
@[simp] theorem Block.raise_B : (b.raise e).B = b.B := rfl
@[simp] theorem Block.raise_C : (b.raise e).C = b.C := rfl
@[simp] theorem Block.raise_STATUS : (b.raise e).STATUS = errorCode e := rfl
@[simp] theorem Block.raise_FAULT : (b.raise e).FAULT = b.FAULT := rfl
@[simp] theorem Block.raise_ctx : (b.raise e).ctx = b.ctx := rfl
@[simp] theorem Block.raise_pending : (b.raise e).pending = b.pending := rfl

@[simp] theorem Block.takeFault_R0 : (b.takeFault k).R0 = none := rfl
@[simp] theorem Block.takeFault_R1 : (b.takeFault k).R1 = none := rfl
@[simp] theorem Block.takeFault_A : (b.takeFault k).A = b.A := rfl
@[simp] theorem Block.takeFault_B : (b.takeFault k).B = b.B := rfl
@[simp] theorem Block.takeFault_C : (b.takeFault k).C = b.C := rfl
@[simp] theorem Block.takeFault_STATUS : (b.takeFault k).STATUS = b.STATUS := rfl
@[simp] theorem Block.takeFault_FAULT : (b.takeFault k).FAULT = setFault b.FAULT k := rfl
@[simp] theorem Block.takeFault_ctx : (b.takeFault k).ctx = b.ctx := rfl
@[simp] theorem Block.takeFault_pending : (b.takeFault k).pending = b.pending := rfl

@[simp] theorem Block.setSlot_R0 : (b.setSlot x w).R0 = b.R0 := by cases x <;> rfl
@[simp] theorem Block.setSlot_R1 : (b.setSlot x w).R1 = b.R1 := by cases x <;> rfl
@[simp] theorem Block.setSlot_STATUS : (b.setSlot x w).STATUS = b.STATUS := by cases x <;> rfl
@[simp] theorem Block.setSlot_FAULT : (b.setSlot x w).FAULT = b.FAULT := by cases x <;> rfl
@[simp] theorem Block.setSlot_ctx : (b.setSlot x w).ctx = b.ctx := by cases x <;> rfl
@[simp] theorem Block.setSlot_pending : (b.setSlot x w).pending = b.pending := by cases x <;> rfl

/-- A slot that was written reads the value written. -/
@[simp] theorem Block.setSlot_slot_same : (b.setSlot x w).slot x = some w := by cases x <;> rfl

/-- Writing a slot leaves the others alone. -/
theorem Block.setSlot_slot_other {y : Slot} (hxy : y ≠ x) : (b.setSlot x w).slot y = b.slot y := by
  cases x <;> cases y <;> first | rfl | exact absurd rfl hxy

end Blocks

section States
variable (s : State) (o : CmdOutcome) (v : ReadValue) (n : Nat) (p : ScriptPhase)

@[simp] theorem State.finish_cfg : (s.finish o).cfg = s.cfg := rfl
@[simp] theorem State.finish_host : (s.finish o).host = s.host := rfl
@[simp] theorem State.finish_schedule : (s.finish o).schedule = s.schedule := rfl
@[simp] theorem State.finish_block : (s.finish o).block = s.block.finish o := rfl

@[simp] theorem State.noteRead_cfg : (s.noteRead v).cfg = s.cfg := rfl
@[simp] theorem State.noteRead_block : (s.noteRead v).block = s.block := rfl
@[simp] theorem State.noteRead_schedule : (s.noteRead v).schedule = s.schedule := rfl
@[simp] theorem State.noteRead_awaiting : (s.noteRead v).host.awaiting = s.host.awaiting := rfl

@[simp] theorem State.jumpTo_cfg : (s.jumpTo n).cfg = s.cfg := rfl
@[simp] theorem State.jumpTo_block : (s.jumpTo n).block = s.block := rfl
@[simp] theorem State.jumpTo_schedule : (s.jumpTo n).schedule = s.schedule := rfl
@[simp] theorem State.jumpTo_awaiting : (s.jumpTo n).host.awaiting = s.host.awaiting := rfl

@[simp] theorem State.advance_cfg : s.advance.cfg = s.cfg := rfl
@[simp] theorem State.advance_block : s.advance.block = s.block := rfl
@[simp] theorem State.advance_schedule : s.advance.schedule = s.schedule := rfl
@[simp] theorem State.advance_awaiting : s.advance.host.awaiting = s.host.awaiting := rfl

@[simp] theorem State.endScript_cfg : (s.endScript p).cfg = s.cfg := rfl
@[simp] theorem State.endScript_block : (s.endScript p).block = s.block := rfl
@[simp] theorem State.endScript_schedule : (s.endScript p).schedule = s.schedule := rfl
@[simp] theorem State.endScript_awaiting : (s.endScript p).host.awaiting = s.host.awaiting := rfl

@[simp] theorem State.applyReset_cfg : s.applyReset.cfg = s.cfg := rfl
@[simp] theorem State.applyReset_block : s.applyReset.block = Block.reset s.cfg.hashCtxCount := rfl
@[simp] theorem State.applyReset_host : s.applyReset.host = s.host := rfl
@[simp] theorem State.applyReset_schedule : s.applyReset.schedule = s.schedule := rfl

@[simp] theorem State.settle_cfg : s.settle.cfg = s.cfg := by unfold State.settle; split <;> rfl
@[simp] theorem State.settle_block : s.settle.block = s.block := by unfold State.settle; split <;> rfl
@[simp] theorem State.settle_schedule : s.settle.schedule = s.schedule := by unfold State.settle; split <;> rfl

@[simp] theorem State.afterStatement_cfg : s.afterStatement.cfg = s.cfg := by
  unfold State.afterStatement; split <;> rfl
@[simp] theorem State.afterStatement_block : s.afterStatement.block = s.block := by
  unfold State.afterStatement; split <;> rfl
@[simp] theorem State.afterStatement_schedule : s.afterStatement.schedule = s.schedule := by
  unfold State.afterStatement; split <;> rfl

/-- After `settle` the script waits only for a command that is pending. -/
theorem State.settle_awaiting (h : s.settle.host.awaiting = true) : s.settle.block.pending.isSome = true := by
  unfold State.settle at h ⊢
  split at h
  · simp at h
  · next hc => 
    rw [if_neg hc]
    simp only [Bool.and_eq_true, Option.isNone_iff_eq_none, not_and] at hc
    simpa [Option.isSome_iff_ne_none] using hc h

/-- The script that does not wait for a command is left alone by `settle`. -/
theorem State.settle_of_not_awaiting (h : s.host.awaiting = false) : s.settle = s := by
  simp [State.settle, h]

end States

section Outcomes
variable (f : State → State) (s : State)

@[simp] theorem mapNext_next : mapNext f (.next s) = .next (f s) := rfl
@[simp] theorem mapNext_fault (k : Fault) : mapNext f (.fault k) = .fault k := rfl
@[simp] theorem mapNext_refused (k : Refusal) : mapNext f (.refused k) = .refused k := rfl

/-- What `mapNext` answers next comes from a next state. -/
theorem mapNext_eq_next {r : Result} {t : State} : mapNext f r = .next t ↔ ∃ u, r = .next u ∧ t = f u := by
  cases r <;> simp [mapNext, eq_comm]

end Outcomes

end Sys2Proof.Machine
end

