-- ==== Sys2Proof/Laws/Ops.lean ====
section
/-! SUPPORT. One lemma for each shared operation: what the end of a command, an operand read and a draw can do. -/

namespace Sys2Proof.Machine

/-! ## The end of a command (rules R89, R306, R307) -/

section Finish
variable (b : Block) (o : CmdOutcome)

@[simp] theorem Block.finish_ok (r0 r1 : Option ByteString) : b.finish (.ok r0 r1) = b.complete r0 r1 := rfl
@[simp] theorem Block.finish_okHash (c : Nat) (x : HashCtx) (r0 : Option ByteString) :
    b.finish (.okHash c x r0) = (b.setCtx c x).complete r0 none := rfl
@[simp] theorem Block.finish_err (e : Error) : b.finish (.err e) = b.raise e := rfl
@[simp] theorem Block.finish_fault (k : FaultKind) : b.finish (.fault k) = b.takeFault k := rfl
@[simp] theorem Block.finish_wait (q : EntropyWait) : b.finish (.wait q) = { b with pending := some q } := rfl

@[simp] theorem Block.finish_A : (b.finish o).A = b.A := by cases o <;> rfl
@[simp] theorem Block.finish_B : (b.finish o).B = b.B := by cases o <;> rfl
@[simp] theorem Block.finish_C : (b.finish o).C = b.C := by cases o <;> rfl
@[simp] theorem Block.finish_slot (x : Slot) : (b.finish o).slot x = b.slot x := by cases o <;> cases x <;> rfl

/-- `finish` replaces at most one context, by the one its outcome carries. -/
theorem Block.finish_ctx :
    (b.finish o).ctx = b.ctx ∨ ∃ c x r0, o = .okHash c x r0 ∧ (b.finish o).ctx = b.ctx.set c x := by
  cases o with
  | okHash c x r0 => exact .inr ⟨c, x, r0, rfl, rfl⟩
  | ok r0 r1 => exact .inl rfl
  | err e => exact .inl rfl
  | fault k => exact .inl rfl
  | wait q => exact .inl rfl

/-- `finish` leaves FAULT alone, or adds the bit of its fault. -/
theorem Block.finish_FAULT :
    (b.finish o).FAULT = b.FAULT ∨ ∃ k, o = .fault k ∧ (b.finish o).FAULT = setFault b.FAULT k := by
  cases o with
  | fault k => exact .inr ⟨k, rfl, rfl⟩
  | ok r0 r1 => exact .inl rfl
  | okHash c x r0 => exact .inl rfl
  | err e => exact .inl rfl
  | wait q => exact .inl rfl

end Finish

/-! ## The status registers -/

/-- Only a kind whose bit is below 7 keeps FAULT below 2^7. -/
theorem setFault_lt (f : Word) (k : FaultKind) (hf : f.toNat < 2 ^ 7) (hk : faultBit k < 7) :
    (setFault f k).toNat < 2 ^ 7 := by
  have h1 : (1#32 <<< faultBit k).toNat < 2 ^ 7 := by
    have : ∀ n, n < 7 → (1#32 <<< n).toNat < 2 ^ 7 := by decide
    exact this _ hk
  rw [setFault, BitVec.toNat_or]
  exact Nat.or_lt_two_pow hf h1

theorem faultBit_lt (k : FaultKind) : faultBit k < 8 := by cases k <;> simp [faultBit]

/-- A fault leaves FAULT not 0: the core is halted (rule R307). -/
theorem setFault_ne_zero (f : Word) (k : FaultKind) : setFault f k ≠ 0#32 := by
  intro h
  have hb : (setFault f k).getLsbD (faultBit k) = true := by
    have := faultBit_lt k
    simp [setFault, show faultBit k < 32 by omega]
  rw [h] at hb
  simp at hb

/-! ## Operands (rules R34, R84) -/

section Operands
variable {b : Block} {x : Slot} {v : ByteString} {k : ByteString → CmdOutcome}

theorem withAny_some (h : b.slot x = some v) : withAny b x k = k v := by
  simp [withAny, withOperand, h]

theorem withFixed_some {n : Nat} (h : b.slot x = some v) (hn : v.length = n) : withFixed b x n k = k v := by
  simp [withFixed, withOperand, h, hn]

theorem withOperand_none {len : Option Nat} (h : b.slot x = none) :
    withOperand b x len k = .fault (.readUnwritten x) := by
  simp [withOperand, h]

theorem withFixed_shape {n : Nat} (h : b.slot x = some v) (hn : v.length ≠ n) :
    withFixed b x n k = .fault (.operandShape x v.length) := by
  simp [withFixed, withOperand, h, hn]

/-- An operand read either faults as `operandFault` says or hands the slot's bytes on. -/
theorem withOperand_cases (b : Block) (x : Slot) (len : Option Nat) (k : ByteString → CmdOutcome) :
    (∃ f, operandFault b x len = some f ∧ withOperand b x len k = .fault f) ∨
    (∃ v, operandFault b x len = none ∧ b.slot x = some v ∧ withOperand b x len k = k v) := by
  cases hx : b.slot x with
  | none => exact .inl ⟨.readUnwritten x, by simp [operandFault, hx], by simp [withOperand, hx]⟩
  | some v =>
    cases len with
    | none => exact .inr ⟨v, by simp [operandFault, hx], rfl, by simp [withOperand, hx]⟩
    | some n =>
      by_cases hn : v.length = n
      · exact .inr ⟨v, by simp [operandFault, hx, hn], rfl, by simp [withOperand, hx, hn]⟩
      · exact .inl ⟨.operandShape x v.length, by simp [operandFault, hx, hn], by simp [withOperand, hx, hn]⟩

theorem withCtx_some {i : Instr} {c : Nat} {x : HashCtx} {k : HashCtx → CmdOutcome} (h : b.ctx[c]? = some x) :
    withCtx b i c k = k x := by
  simp [withCtx, h]

end Operands

/-! ## Draws (rules R13, R240) -/

/-- A draw for which no answer comes next leaves the command waiting. -/
theorem runDraw_waits (cfg : Config) (q : EntropyWait) (ms : List Move) (h : ∀ a rest, ms ≠ .answer a :: rest) :
    runDraw cfg q ms = .done (.wait q) ms := by
  cases ms with
  | nil => rfl
  | cons m rest =>
    cases m with
    | script => rfl
    | host h => rfl
    | answer a => exact absurd rfl (h a rest)

/-- What a draw can end in: results, EntropyUnavailable, or a wait; never a fault and never a hash context. -/
theorem runDraw_done {cfg : Config} {q : EntropyWait} {ms rest : List Move} {o : CmdOutcome}
    (h : runDraw cfg q ms = .done o rest) :
    (∃ v, o = .ok (some v) none) ∨ o = .err .entropyUnavailable ∨ ∃ q', o = .wait q' := by
  induction ms generalizing q with
  | nil => simp only [runDraw, DrawResult.done.injEq] at h; exact .inr (.inr ⟨q, h.1.symm⟩)
  | cons m ms ih =>
    cases m with
    | script => simp only [runDraw, DrawResult.done.injEq] at h; exact .inr (.inr ⟨q, h.1.symm⟩)
    | host a => simp only [runDraw, DrawResult.done.injEq] at h; exact .inr (.inr ⟨q, h.1.symm⟩)
    | answer a =>
      rw [runDraw] at h
      split at h
      · cases q <;> cases a <;> simp only [continueDraw, DrawResult.done.injEq] at h
        · exact .inl ⟨_, h.1.symm⟩
        · exact .inr (.inl h.1.symm)
        · exact ih h
        · exact .inr (.inl h.1.symm)
        · exact .inl ⟨_, h.1.symm⟩
        · exact .inr (.inl h.1.symm)
      · cases h

/-- A draw answers next with `finish` of what `runDraw_done` lists, and consumes only moves of the schedule. -/
theorem State.draw_next {s t : State} {q : EntropyWait} (h : s.draw q = .next t) :
    ∃ o rest, runDraw s.cfg q s.schedule = .done o rest ∧ t = { s with schedule := rest }.finish o := by
  unfold State.draw at h
  split at h
  · next o rest ho => exact ⟨o, rest, ho, by cases h; rfl⟩
  · cases h

end Sys2Proof.Machine
end

