-- ==== Sys2Proof/Laws/Exec.lean ====
section
/-! SUPPORT. What a command can do, said once: `exec` ends with `finish` of an outcome, or draws (rules R12, R89). Later
proofs cite `exec_cases` and `exec_next` and unfold no command. -/

namespace Sys2Proof.Machine

/-! ## Outcomes that carry no wait, no hash context and no IoFailure -/

/-- The outcome is not `wait`. -/
def CmdOutcome.NoWait (o : CmdOutcome) : Prop := ∀ q, o ≠ .wait q

/-- The outcome is not the IoFailure error (rule R303). -/
def CmdOutcome.NoIoFailure (o : CmdOutcome) : Prop := o ≠ .err .ioFailure

/-- An outcome of a command that is no hash command and draws nothing. -/
structure CmdOutcome.Plain (o : CmdOutcome) : Prop where
  noWait : o.NoWait
  noIo : o.NoIoFailure
  noHash : ∀ c x r, o ≠ .okHash c x r

theorem plain_ok {r0 r1 : Option ByteString} : (CmdOutcome.ok r0 r1).Plain := ⟨nofun, nofun, nofun⟩

theorem plain_fault {k : FaultKind} : (CmdOutcome.fault k).Plain := ⟨nofun, nofun, nofun⟩

theorem plain_err {e : Error} (h : e ≠ .ioFailure) : (CmdOutcome.err e).Plain :=
  ⟨nofun, fun h' => h (CmdOutcome.err.inj h'), nofun⟩

section Plain
variable {b : Block} {x : Slot} {k : ByteString → CmdOutcome}

theorem plain_operand {len : Option Nat} (h : ∀ v, (k v).Plain) : (withOperand b x len k).Plain := by
  rcases withOperand_cases b x len k with ⟨f, _, e⟩ | ⟨v, _, _, e⟩ <;> rw [e]
  · exact plain_fault
  · exact h v

theorem plain_any (h : ∀ v, (k v).Plain) : (withAny b x k).Plain := plain_operand h

theorem plain_fixed {n : Nat} (h : ∀ v, (k v).Plain) : (withFixed b x n k).Plain := plain_operand h

theorem plain_mode {k : ByteString → ByteString → ByteString → CmdOutcome} (h : ∀ u v w, (k u v w).Plain) :
    (withModeOperands b k).Plain :=
  plain_fixed fun u => plain_fixed fun v => plain_any fun w => h u v w

theorem plain_count {cfg : Config} {count : ByteString} {k : Nat → CmdOutcome} (h : ∀ n, (k n).Plain) :
    (withCount cfg x count k).Plain := by
  unfold withCount
  split
  · exact plain_fault
  · exact h _

end Plain

/-! ## The errors the crypto functions give (rules R202, R204, R264) -/

theorem pkcs7Unpad_error {p : ByteString} {e : Error} (h : pkcs7Unpad p = .error e) : e = .invalidPadding := by
  unfold pkcs7Unpad at h
  split at h <;> simp_all

theorem cbcDecrypt_error {cfg : Config} {K IV C : ByteString} {e : Error} (h : cbcDecrypt cfg K IV C = .error e) :
    e = .invalidPadding ∨ e = .invalidLength := by
  unfold cbcDecrypt at h
  split at h
  · simp_all
  · exact .inl (pkcs7Unpad_error h)

theorem decryptEnvelope_error {cfg : Config} {E pw : ByteString} {e : Error}
    (h : decryptEnvelope cfg E pw = .error e) : e = .invalidPadding ∨ e = .invalidLength := by
  unfold decryptEnvelope at h
  split at h
  · simp_all
  · exact cbcDecrypt_error h

theorem plain_okOrErr {r : Except Error ByteString}
    (h : ∀ e, r = .error e → e = .invalidPadding ∨ e = .invalidLength) : (okOrErr r).Plain := by
  cases r with
  | ok p => exact plain_ok
  | error e => exact plain_err (by rcases h e rfl with rfl | rfl <;> simp)

theorem plain_okOrFault (r : Except FaultKind ByteString) : (okOrFault r).Plain := by
  cases r with
  | ok p => exact plain_ok
  | error k => exact plain_fault

/-! ## Hash commands -/

/-- A hash command on context c faults, or writes that context. -/
def CmdOutcome.HashKind (c : Nat) (o : CmdOutcome) : Prop := (∃ k, o = .fault k) ∨ ∃ x r, o = .okHash c x r

theorem hashKind_update (c : Nat) (x : HashCtx) (v : ByteString) : (performHashUpdate c x v).HashKind c := by
  unfold performHashUpdate
  split
  · exact .inl ⟨_, rfl⟩
  split
  · exact .inl ⟨_, rfl⟩
  split
  · exact .inl ⟨_, rfl⟩
  · exact .inr ⟨_, _, rfl⟩

theorem hashKind_final (c : Nat) (x : HashCtx) : (performHashFinal c x).HashKind c := by
  unfold performHashFinal
  split
  · exact .inl ⟨_, rfl⟩
  split
  · exact .inl ⟨_, rfl⟩
  · exact .inr ⟨_, _, rfl⟩

/-! ## All commands -/

/-- The two shapes of a command: an end of its own, or a draw (RNG.FILL and ENC.BYTES only). -/
inductive ExecShape (i : Instr) (s : State) : Prop
  | ends (o : CmdOutcome) (h : exec i s = .next (s.finish o)) (noWait : o.NoWait) (noIo : o.NoIoFailure)
      (own : ∀ c x r, o = .okHash c x r → i.ctxIndex = some c)
  | draws (q : EntropyWait) (h : exec i s = s.draw q) (which : i = .rngFill ∨ i = .encBytes)

theorem ExecShape.of_plain {i : Instr} {s : State} {o : CmdOutcome} (h : exec i s = .next (s.finish o))
    (hp : o.Plain) : ExecShape i s :=
  .ends o h hp.noWait hp.noIo fun c x r e => absurd e (hp.noHash c x r)

theorem ExecShape.of_ctx {i : Instr} {s : State} {c : Nat} {k : HashCtx → CmdOutcome}
    (h : exec i s = .next (s.finish (withCtx s.block i c k))) (hi : i.ctxIndex = some c)
    (hk : ∀ x, (k x).HashKind c) : ExecShape i s := by
  have hc : (withCtx s.block i c k).HashKind c := by
    unfold withCtx
    split
    · exact .inl ⟨_, rfl⟩
    · exact hk _
  rcases hc with ⟨f, e⟩ | ⟨x, r, e⟩
  · rw [e] at h; exact .of_plain h plain_fault
  · rw [e] at h
    exact .ends _ h nofun nofun fun c' x' r' e' => by cases e'; exact hi

/-- What every command does, in one of two shapes. -/
theorem exec_cases (i : Instr) (s : State) : ExecShape i s := by
  cases i with
  | hashInit c => exact .of_ctx (c := c) rfl rfl fun x => .inr ⟨_, _, rfl⟩
  | hashUpdate c =>
    refine .of_ctx (c := c) rfl rfl fun x => ?_
    rcases withOperand_cases s.block .a none (performHashUpdate c x) with ⟨f, _, e⟩ | ⟨v, _, _, e⟩
    · exact .inl ⟨f, e⟩
    · show CmdOutcome.HashKind c (withOperand s.block .a none (performHashUpdate c x))
      rw [e]
      exact hashKind_update c x v
  | hashFinal c => exact .of_ctx (c := c) rfl rfl fun x => hashKind_final c x
  | hmac => exact .of_plain rfl (plain_any fun _ => plain_any fun _ => plain_ok)
  | kdf => exact .of_plain rfl (plain_any fun _ => plain_any fun _ => plain_ok)
  | blkEnc => exact .of_plain rfl (plain_fixed fun _ => plain_fixed fun _ => plain_ok)
  | blkDec => exact .of_plain rfl (plain_fixed fun _ => plain_fixed fun _ => plain_ok)
  | cbcEnc => exact .of_plain rfl (plain_mode fun _ _ _ => plain_ok)
  | cbcDec => exact .of_plain rfl (plain_mode fun _ _ _ => plain_okOrErr fun _ h => cbcDecrypt_error h)
  | ctrEnc => exact .of_plain rfl (plain_mode fun _ _ _ => plain_okOrFault _)
  | ctrDec =>
    refine .of_plain rfl (plain_mode fun _ _ _ => ?_)
    split
    · exact plain_err nofun
    · exact plain_okOrFault _
  | envPack => exact .of_plain rfl (plain_fixed fun _ => plain_fixed fun _ => plain_ok)
  | envUnpack =>
    refine .of_plain rfl (plain_any fun _ => ?_)
    split
    · exact plain_ok
    · next e he =>
      refine plain_err ?_
      unfold envUnpack at he
      split at he <;> simp_all
      simp [← he]
  | chaosFill =>
    refine .of_plain rfl (plain_any fun _ => plain_fixed fun _ => ?_)
    split
    · exact plain_fault
    · exact plain_count fun _ => plain_ok
  | decBytes => exact .of_plain rfl (plain_any fun _ => plain_any fun _ => plain_okOrErr fun _ h => decryptEnvelope_error h)
  | rngFill =>
    have e : exec .rngFill s = s.finishOrDraw (performRngFill s) := rfl
    rw [performRngFill, withFixed] at e
    rcases withOperand_cases s.block .a (some 4) (fun count => withCount s.cfg .a count fun n =>
      if n = 0 then .ok (some []) none else .wait (.rngFill n)) with ⟨f, _, h⟩ | ⟨v, _, _, h⟩
    · rw [h] at e; exact .of_plain e plain_fault
    · rw [h, withCount] at e
      split at e
      · exact .of_plain e plain_fault
      · split at e
        · exact .of_plain e plain_ok
        · exact .draws _ e (.inl rfl)
  | encBytes =>
    have e : exec .encBytes s = s.finishOrDraw (performEncBytes s) := rfl
    rw [performEncBytes, withAny] at e
    rcases withOperand_cases s.block .a none (fun plaintext => withAny s.block .b fun password =>
      .wait (.encSalt plaintext password)) with ⟨f, _, h⟩ | ⟨v, _, _, h⟩
    · rw [h] at e; exact .of_plain e plain_fault
    · rw [h, withAny] at e
      rcases withOperand_cases s.block .b none (fun password => .wait (.encSalt v password)) with
        ⟨f, _, h'⟩ | ⟨w, _, _, h'⟩
      · rw [h'] at e; exact .of_plain e plain_fault
      · rw [h'] at e; exact .draws _ e (.inr rfl)

/-- A draw consumes answers of the oracle and no other move. -/
theorem runDraw_consumes {cfg : Config} {q : EntropyWait} {ms rest : List Move} {o : CmdOutcome}
    (h : runDraw cfg q ms = .done o rest) : ∃ as : List OracleAnswer, ms = as.map Move.answer ++ rest := by
  induction ms generalizing q with
  | nil => simp only [runDraw, DrawResult.done.injEq] at h; exact ⟨[], by simp [h.2]⟩
  | cons m ms ih =>
    cases m with
    | script => simp only [runDraw, DrawResult.done.injEq] at h; exact ⟨[], by simp [← h.2]⟩
    | host a => simp only [runDraw, DrawResult.done.injEq] at h; exact ⟨[], by simp [← h.2]⟩
    | answer a =>
      rw [runDraw] at h
      split at h
      · split at h
        · obtain ⟨as, e⟩ := ih h; exact ⟨a :: as, by simp [e]⟩
        all_goals (simp only [DrawResult.done.injEq] at h; exact ⟨[a], by simp [h.2]⟩)
      · cases h

/-- A next state of a command is `finish` of an outcome, with some answers of the oracle consumed; a fault, and any
command but RNG.FILL and ENC.BYTES, consumes none. -/
theorem exec_next {i : Instr} {s t : State} (h : exec i s = .next t) :
    ∃ o rest, t = (s.withSchedule rest).finish o ∧
      (∃ as : List OracleAnswer, s.schedule = as.map Move.answer ++ rest) ∧
      (∀ c x r, o = .okHash c x r → i.ctxIndex = some c) ∧ o.NoIoFailure ∧
      (∀ k, o = .fault k → rest = s.schedule) ∧
      (i ≠ .rngFill → i ≠ .encBytes → rest = s.schedule ∧ o.NoWait) := by
  rcases exec_cases i s with ⟨o, e, hw, hio, hc⟩ | ⟨q, e, hi⟩
  · rw [e] at h; cases h
    exact ⟨o, s.schedule, rfl, ⟨[], rfl⟩, hc, hio, fun _ _ => rfl, fun _ _ => ⟨rfl, hw⟩⟩
  · rw [e] at h
    obtain ⟨o, rest, hd, ht⟩ := State.draw_next h
    refine ⟨o, rest, ht, runDraw_consumes hd, ?_, ?_, ?_, fun a b => absurd hi (by simp [a, b])⟩ <;>
      rcases runDraw_done hd with ⟨v, rfl⟩ | rfl | ⟨q', rfl⟩ <;> exact nofun

end Sys2Proof.Machine
end

