-- ==== Sys2Proof/Laws/Hash.lean ====
section
/-! SUPPORT. Laws of the hash engine: lengths, and what one absorbed byte does to a context that holds the state of an
absorbed byte string (rules R42, R115). -/

namespace Sys2Proof.Machine

@[simp] theorem digest_length (H : Words8) : (digest H).length = 32 := rfl

@[simp] theorem sha256_length (m : ByteString) : (sha256 m).length = 32 := rfl

theorem hmacKeyBlock_length (key : ByteString) : (hmacKeyBlock key).length = 64 := by
  rw [hmacKeyBlock]
  split
  · simp
  · simp; omega

@[simp] theorem hmac_length (key message : ByteString) : (hmac key message).length = 32 := rfl

/-- One more block is one more compression (rule R112). -/
theorem compressBlocks_succ (H : Words8) (k : Nat) (m : ByteString) :
    compressBlocks H (k + 1) m = compress (compressBlocks H k m) ((m.drop (64 * k)).take 64) := by
  simp [compressBlocks, splitEvery_succ]

/-- Bytes behind the first k blocks do not matter to them. -/
theorem compressBlocks_append (H : Words8) (k : Nat) (m n : ByteString) (h : 64 * k ≤ m.length) :
    compressBlocks H k (m ++ n) = compressBlocks H k m := by
  rw [compressBlocks, splitEvery_append 64 k m n h, compressBlocks]

@[simp] theorem HashCtx.absorb_phase (x : HashCtx) (v : Byte) : (x.absorb v).phase = x.phase := by
  simp only [HashCtx.absorb]; split <;> rfl

@[simp] theorem HashCtx.absorb_BITLEN (x : HashCtx) (v : Byte) : (x.absorb v).BITLEN = x.BITLEN := by
  simp only [HashCtx.absorb]; split <;> rfl

@[simp] theorem HashCtx.foldl_absorb_phase (data : ByteString) (x : HashCtx) :
    (data.foldl HashCtx.absorb x).phase = x.phase := by
  induction data generalizing x with
  | nil => rfl
  | cons v vs ih => simp [ih]

@[simp] theorem HashCtx.update_message (x : HashCtx) (data : ByteString) :
    (x.update data).message = x.message ++ data := rfl

@[simp] theorem HashCtx.init_phase (x : HashCtx) : x.init.phase = .active := rfl
@[simp] theorem HashCtx.init_message (x : HashCtx) : x.init.message = [] := rfl
@[simp] theorem HashCtx.finalize_phase (x : HashCtx) : x.finalize.phase = .finalized := rfl
@[simp] theorem HashCtx.finalize_message (x : HashCtx) : x.finalize.message = x.message := rfl

@[simp] theorem HashCtx.update_phase (x : HashCtx) (data : ByteString) : (x.update data).phase = x.phase := by
  simp [HashCtx.update]

/-- The buffer part of rule R42, without the bit count: what the loop of rule R115 keeps. -/
structure HashCtx.Holds (x : HashCtx) (m : ByteString) : Prop where
  bufLen : x.BUFLEN = m.length % 64
  chain : x.H = compressBlocks shaH0 (m.length / 64) m
  buffer : x.tail = m.drop (64 * (m.length / 64))

theorem HashCtx.Absorbed.bitLen {x : HashCtx} {m : ByteString} (h : x.Absorbed m) :
    x.BITLEN.toNat = 8 * m.length := h.message ▸ h.sound.bitLen

theorem HashCtx.Absorbed.holds {x : HashCtx} {m : ByteString} (h : x.Absorbed m) : x.Holds m := by
  have h1 := h.bitLen
  have h2 := h.sound.bufLen
  have h3 := h.sound.chain
  have h4 : (x.BITLEN.toNat / 8 - x.BUFLEN) / 64 = m.length / 64 := by omega
  rw [h4, h.message] at h3
  exact ⟨by omega, h3, h.buffer⟩

/-- The buffer part and the bit count of a message are all that `Absorbed` asks (rule R42). -/
theorem HashCtx.Holds.absorbed {x : HashCtx} (h : x.Holds x.message) (hb : x.BITLEN.toNat = 8 * x.message.length) :
    x.Absorbed x.message := by
  have h1 := h.bufLen
  refine ⟨rfl, ⟨by omega, hb, by omega, ?_⟩, h.buffer⟩
  rw [h.chain]
  congr 1
  omega

/-- Writing the byte behind the buffered ones appends it to them. -/
theorem take_setIfInBounds (buf : Vector Byte 64) (n : Nat) (v : Byte) (h : n < 64) :
    (buf.setIfInBounds n v).toList.take (n + 1) = buf.toList.take n ++ [v] := by
  rw [Vector.toList_setIfInBounds, List.take_add_one]
  simp [List.take_set, List.set_eq_of_length_le, h]

/-- One byte absorbed (the body of the loop of rule R115). -/
theorem HashCtx.Holds.absorb {x : HashCtx} {m : ByteString} (h : x.Holds m) (v : Byte) :
    (x.absorb v).Holds (m ++ [v]) := by
  have hlt : x.BUFLEN < 64 := by rw [h.bufLen]; omega
  have hlen : (m ++ [v]).length = m.length + 1 := by simp
  have hbuf : (x.BUF.setIfInBounds x.BUFLEN v).toList.take (x.BUFLEN + 1) =
      (m ++ [v]).drop (64 * (m.length / 64)) := by
    rw [take_setIfInBounds _ _ _ hlt, List.drop_append_of_le_length (by omega), ← h.buffer, HashCtx.tail]
  by_cases hfull : x.BUFLEN + 1 = 64
  · have hq : (m.length + 1) / 64 = m.length / 64 + 1 := by have := h.bufLen; omega
    have hr : (m.length + 1) % 64 = 0 := by have := h.bufLen; omega
    have hlist : (x.BUF.setIfInBounds x.BUFLEN v).toList = (m ++ [v]).drop (64 * (m.length / 64)) := by
      rw [← hbuf, hfull, List.take_of_length_le (by simp)]
    have e : x.absorb v = { x with H := compress x.H (x.BUF.setIfInBounds x.BUFLEN v).toList, BUF := x.BUF.setIfInBounds x.BUFLEN v, BUFLEN := 0 } := by
      simp [HashCtx.absorb, hfull]
    rw [e]
    refine ⟨?_, ?_, ?_⟩
    · show 0 = _; rw [hlen, hr]
    · show compress x.H _ = _
      rw [hlen, hq, compressBlocks_succ, hlist, h.chain, compressBlocks_append _ _ _ _ (by omega)]
      congr 1
      rw [List.take_of_length_le]
      simp only [List.length_drop, hlen]
      have := h.bufLen
      omega
    · show List.take 0 _ = _
      rw [hlen, hq, List.drop_of_length_le (by rw [hlen]; have := h.bufLen; omega)]
      simp
  · have hq : (m.length + 1) / 64 = m.length / 64 := by have := h.bufLen; omega
    have e : x.absorb v = { x with BUF := x.BUF.setIfInBounds x.BUFLEN v, BUFLEN := x.BUFLEN + 1 } := by
      simp [HashCtx.absorb, hfull]
    rw [e]
    refine ⟨?_, ?_, ?_⟩
    · show x.BUFLEN + 1 = _; rw [hlen]; have := h.bufLen; omega
    · show x.H = _
      rw [hlen, hq, compressBlocks_append _ _ _ _ (by omega), h.chain]
    · show (x.BUF.setIfInBounds x.BUFLEN v).toList.take (x.BUFLEN + 1) = _
      rw [hbuf, hlen, hq]

/-- A whole string absorbed (the loop of rule R115). -/
theorem HashCtx.Holds.absorbAll {x : HashCtx} {m : ByteString} (h : x.Holds m) (data : ByteString) :
    (data.foldl HashCtx.absorb x).Holds (m ++ data) := by
  induction data generalizing x m with
  | nil => simpa
  | cons v vs ih => simpa using ih (h.absorb v)

/-- HASH.INIT starts a context on the empty string (rules R42, R114). -/
theorem HashCtx.init_absorbed (x : HashCtx) : x.init.Absorbed [] :=
  HashCtx.Holds.absorbed ⟨rfl, by simp [HashCtx.init, compressBlocks, splitEvery], by simp [HashCtx.init, HashCtx.tail]⟩ rfl

/-- The test of rule R42 decides its four clauses. -/
theorem HashCtx.consistent_iff (x : HashCtx) : x.consistent = true ↔ x.Sound := by
  simp only [HashCtx.consistent, Bool.and_eq_true, decide_eq_true_eq]
  exact ⟨fun h => ⟨h.1.1.1, h.1.1.2, h.1.2, h.2⟩, fun h => ⟨⟨⟨h.1, h.2⟩, h.3⟩, h.4⟩⟩

/-- A context with a history passes the test of rule R42. -/
theorem HashCtx.Absorbed.consistent {x : HashCtx} {m : ByteString} (h : x.Absorbed m) : x.consistent = true :=
  x.consistent_iff.2 h.sound

end Sys2Proof.Machine
end

