-- ==== Sys2Proof/Laws/PerInstr.lean ====
section
/-! SUPPORT. Family `EncodedRow`: the word of an encodable command selects the command's own row of rule R82 and has
its reserved fields 0 (rule R80). -/

namespace Sys2Proof.Laws.EncodedRow

/-- What the family says of a command. -/
def Statement (i : Instr) : Prop :=
  i.encodable → i.row.selects (encode i) = true ∧ fieldRSV0 (encode i) = 0 ∧ fieldRSV1 (encode i) = 0

/-- The hash rows, for the sixteen values of CTX. -/
theorem ctx_cases {i : Nat → Instr} (hx : ∀ c, (i c).ctxIndex = some c)
    (h : ∀ c, c < 16 → (i c).row.selects (encode (i c)) = true ∧ fieldRSV0 (encode (i c)) = 0 ∧
      fieldRSV1 (encode (i c)) = 0) (c : Nat) : Statement (i c) := by
  intro he
  refine h c ?_
  simpa [Instr.encodable, Instr.wellFormed, hx c] using he

theorem hashInit (c : Nat) : Statement (.hashInit c) := ctx_cases (fun _ => rfl) (by decide) c
theorem hashUpdate (c : Nat) : Statement (.hashUpdate c) := ctx_cases (fun _ => rfl) (by decide) c
theorem hashFinal (c : Nat) : Statement (.hashFinal c) := ctx_cases (fun _ => rfl) (by decide) c
theorem hmac : Statement .hmac := fun _ => by decide
theorem kdf : Statement .kdf := fun _ => by decide
theorem blkEnc : Statement .blkEnc := fun _ => by decide
theorem blkDec : Statement .blkDec := fun _ => by decide
theorem cbcEnc : Statement .cbcEnc := fun _ => by decide
theorem cbcDec : Statement .cbcDec := fun _ => by decide
theorem ctrEnc : Statement .ctrEnc := fun _ => by decide
theorem ctrDec : Statement .ctrDec := fun _ => by decide
theorem envPack : Statement .envPack := fun _ => by decide
theorem envUnpack : Statement .envUnpack := fun _ => by decide
theorem rngFill : Statement .rngFill := fun _ => by decide
theorem chaosFill : Statement .chaosFill := fun _ => by decide
theorem encBytes : Statement .encBytes := fun _ => by decide
theorem decBytes : Statement .decBytes := fun _ => by decide

end Sys2Proof.Laws.EncodedRow
end

