-- ==== Sys2Proof/Laws/Step.lean ====
section
/-! SUPPORT. What one step can do to the block, said once (rules R17, R30, R316): an invariant of the block is proved by
the cases of `BlockMove` and nothing else. -/

namespace Sys2Proof.Machine

/-- The ways in which one step can change the block. -/
inductive BlockMove (s : State) (b : Block) : Prop
  /-- Nothing in the block changes: a read, a jump, a CMD write while halted. -/
  | same (h : b = s.block)
  /-- The host writes an operand slot (rule R32). -/
  | slot (x : Slot) (v : ByteString) (idle : s.block.pending = none) (len : v.length ≤ s.cfg.maxOperandLen)
      (h : b = s.block.setSlot x v)
  /-- A well-formed command runs (rule R89). -/
  | cmd (i : Instr) (u t : State) (ready : s.Ready) (wf : i.wellFormed s.cfg.hashCtxCount = true)
      (block : u.block = s.block) (cfg : u.cfg = s.cfg) (runs : exec i u = .next t) (h : b = t.block)
  /-- An illegal word faults (rule R83). -/
  | illegal (w : Word) (ready : s.Ready) (h : b = s.block.takeFault (.illegalCommand w))
  /-- The oracle answers the pending command (rule R240). -/
  | answer (q : EntropyWait) (o : CmdOutcome) (ms rest : List Move) (pending : s.block.pending = some q)
      (draw : runDraw s.cfg q ms = .done o rest) (h : b = Block.finish { s.block with pending := none } o)
  /-- RESET (rule R340). -/
  | reset (h : b = Block.reset s.cfg.hashCtxCount)

/-- `BlockMove` depends on the block and the configuration only. -/
theorem BlockMove.congr {s s' : State} {b : Block} (hb : s'.block = s.block) (hc : s'.cfg = s.cfg)
    (h : BlockMove s' b) : BlockMove s b := by
  rcases h with h | ⟨x, v, hp, hl, h⟩ | ⟨i, u, t, hr, hw, h1, h2, he, h⟩ | ⟨w, hr, h⟩ | ⟨q, o, ms, rest, hp, hd, h⟩ | h
  · exact .same (h.trans hb)
  · exact .slot x v (hb ▸ hp) (hc ▸ hl) (by rw [h, hb])
  · exact .cmd i u t ⟨hb ▸ hr.notHalted, hb ▸ hr.notPending⟩ (hc ▸ hw) (h1.trans hb) (h2.trans hc) he h
  · exact .illegal w ⟨hb ▸ hr.notHalted, hb ▸ hr.notPending⟩ (by rw [h, hb])
  · exact .answer q o ms rest (hb ▸ hp) (hc ▸ hd) (by rw [h, hb])
  · exact .reset (by rw [h, hc])

/-- What `decodeFor` accepts is well formed (rule R83). -/
theorem decodeFor_wellFormed {n : Nat} {w : Word} {i : Instr} (h : decodeFor n w = .ok i) : i.wellFormed n = true := by
  unfold decodeFor at h
  split at h
  · cases h
  · split at h
    · cases h; assumption
    · cases h

/-- A command keeps the configuration and the host. -/
theorem exec_keeps {i : Instr} {s t : State} (h : exec i s = .next t) : t.cfg = s.cfg ∧ t.host = s.host := by
  obtain ⟨o, rest, rfl, -⟩ := exec_next h
  exact ⟨rfl, rfl⟩

theorem issueCommand_next {w : Word} {s t : State} (h : issueCommand exec w s = .next t) :
    t.cfg = s.cfg ∧ t.host = s.host ∧ BlockMove s t.block := by
  unfold issueCommand at h
  split at h
  · cases h; exact ⟨rfl, rfl, .same rfl⟩
  · next hh =>
    split at h
    · cases h
    · next hp =>
      have hr : s.Ready := ⟨by simpa [Block.halted] using hh, by simpa using hp⟩
      split at h
      · cases h; exact ⟨rfl, rfl, .illegal w hr rfl⟩
      · next i hd =>
        exact ⟨(exec_keeps h).1, (exec_keeps h).2, .cmd i s t hr (decodeFor_wellFormed hd) rfl rfl h rfl⟩

theorem writeSlot_next {x : Slot} {v : ByteString} {s t : State} (h : writeSlot x v s = .next t) :
    t.cfg = s.cfg ∧ t.host = s.host ∧ BlockMove s t.block := by
  unfold writeSlot at h
  split at h
  · cases h
  · next hp =>
    split at h
    · cases h
    · next hl => cases h; exact ⟨rfl, rfl, .slot x v (by simpa using hp) (by omega) rfl⟩

theorem hostAct_next {a : HostAction} {s t : State} (h : hostAct exec a s = .next t) :
    t.cfg = s.cfg ∧ t.host.awaiting = s.host.awaiting ∧ BlockMove s t.block := by
  cases a with
  | wr x v => obtain ⟨h1, h2, h3⟩ := writeSlot_next h; exact ⟨h1, by rw [h2], h3⟩
  | rd r => cases h; exact ⟨rfl, rfl, .same rfl⟩
  | rdReg r => cases h; exact ⟨rfl, rfl, .same rfl⟩
  | cmd w => obtain ⟨h1, h2, h3⟩ := issueCommand_next h; exact ⟨h1, by rw [h2], h3⟩
  | reset => cases h; exact ⟨rfl, rfl, .reset rfl⟩
  | busRead addr width =>
    simp only [hostAct, busRead] at h
    split at h <;> cases h
    exact ⟨rfl, rfl, .same rfl⟩
  | busWrite addr width v =>
    simp only [hostAct, busWrite] at h
    split at h
    · cases h
    · split at h
      · obtain ⟨h1, h2, h3⟩ := issueCommand_next h; exact ⟨h1, by rw [h2], h3⟩
      · split at h <;> cases h
        exact ⟨rfl, rfl, .same rfl⟩

theorem runStmt_next {a : Stmt} {s t : State} (h : runStmt exec a s = .next t) :
    t.cfg = s.cfg ∧ BlockMove s t.block := by
  cases a with
  | act a =>
    simp only [runStmt, mapNext_eq_next] at h
    obtain ⟨u, h, rfl⟩ := h
    obtain ⟨h1, -, h3⟩ := hostAct_next h
    exact ⟨by simpa using h1, by simpa using h3⟩
  | movr dst src =>
    simp only [runStmt, runMovr] at h
    split at h
    · cases h; exact ⟨rfl, .same rfl⟩
    · rw [mapNext_eq_next] at h
      obtain ⟨u, h, rfl⟩ := h
      obtain ⟨h1, -, h3⟩ := writeSlot_next h
      exact ⟨by simpa using h1, BlockMove.congr (s' := s.noteRead _) rfl rfl h3⟩
  | jnzStatus l => simp only [runStmt] at h; cases h; split <;> exact ⟨rfl, .same rfl⟩
  | jmp l => cases h; exact ⟨rfl, .same rfl⟩
  | halt => cases h; exact ⟨rfl, .same rfl⟩

theorem scriptMove_next {s t : State} (h : scriptMove exec s = .next t) : t.cfg = s.cfg ∧ BlockMove s t.block := by
  unfold scriptMove at h
  split at h
  · cases h; exact ⟨rfl, .same rfl⟩
  · split at h
    · cases h; exact ⟨rfl, .same rfl⟩
    · exact runStmt_next h

theorem answer_next {a : OracleAnswer} {s t : State} (h : s.answer a = .next t) :
    t.cfg = s.cfg ∧ BlockMove s t.block := by
  unfold State.answer at h
  split at h
  · cases h; exact ⟨rfl, .same rfl⟩
  · next q hq =>
    obtain ⟨o, rest, hd, rfl⟩ := State.draw_next h
    exact ⟨rfl, .answer q o _ rest hq hd rfl⟩

/-- Every next state of a step comes from one of the moves of `BlockMove`. -/
theorem step_blockMove {s t : State} (h : step s = .next t) : BlockMove s t.block := by
  unfold step stepWith at h
  split at h
  · exact (scriptMove_next h).2
  · next m rest _ =>
    refine BlockMove.congr (s' := { s with schedule := rest }) rfl rfl ?_
    cases m with
    | script => exact (scriptMove_next h).2
    | host a =>
      simp only [makeMove, mapNext_eq_next] at h
      obtain ⟨u, h, rfl⟩ := h
      simpa using (hostAct_next h).2.2
    | answer a =>
      simp only [makeMove, mapNext_eq_next] at h
      obtain ⟨u, h, rfl⟩ := h
      simpa using (answer_next h).2

end Sys2Proof.Machine
end

