-- ==== Sys2Proof/Tests/Slice0.lean ====
section
/-! SUPPORT. The model's own tests: ill-formed terms that the checks refuse, words written out from rules R80 and R82,
one-step tests with the values of 95_test_vectors.md, and for every obligation with hypotheses a witness that meets
them. Expected values are the spec's; each test names its vector. -/

namespace Sys2Proof.Tests

open Sys2Proof Sys2Proof.Machine

set_option Elab.async false

/-! ## Test configurations (95_test_vectors.md §2) -/

/-- `SBOX` of TCFG-A. -/
def sboxA : Vector Byte 256 := ⟨((List.range 256).map fun x => BitVec.ofNat 8 (7 * x + 99)).toArray, by simp⟩

/-- `PBOX` of TCFG-A. -/
def pboxA : Vector (Fin 128) 128 := ⟨((List.range 128).map fun p => Fin.ofNat 128 (5 * p + 3)).toArray, by simp⟩

/-- `SBOX` of TCFG-ID. -/
def sboxId : Vector Byte 256 := ⟨((List.range 256).map fun x => BitVec.ofNat 8 x).toArray, by simp⟩

/-- `PBOX` of TCFG-ID. -/
def pboxId : Vector (Fin 128) 128 := ⟨((List.range 128).map fun p => Fin.ofNat 128 p).toArray, by simp⟩

/-- A list mapped from 0..n-1 by a function with a left inverse repeats nothing. -/
theorem nodup_of_inverse {α : Type} (n : Nat) (f : Nat → α) (g : α → Nat) (h : ∀ x < n, g (f x) = x) :
    ((List.range n).map f).Nodup := by
  refine List.Nodup.map_on ?_ List.nodup_range
  intro x hx y hy e
  rw [← h x (List.mem_range.1 hx), ← h y (List.mem_range.1 hy), e]

theorem sboxA_nodup : sboxA.toList.Nodup :=
  nodup_of_inverse 256 (fun x => BitVec.ofNat 8 (7 * x + 99)) (fun y => 183 * (y.toNat + 256 - 99) % 256) (by decide +kernel)

theorem pboxA_nodup : pboxA.toList.Nodup :=
  nodup_of_inverse 128 (fun p => Fin.ofNat 128 (5 * p + 3)) (fun q => 77 * (q.val + 128 - 3) % 128) (by decide +kernel)

theorem sboxId_nodup : sboxId.toList.Nodup := nodup_of_inverse 256 _ BitVec.toNat (by decide +kernel)

theorem pboxId_nodup : pboxId.toList.Nodup := nodup_of_inverse 128 _ Fin.val (by decide +kernel)

/-- TCFG-A with the other parameters given. MAX_OPERAND_LEN is 1024, REG_BASE is 4096. -/
def rawA (iter nctx : Nat) (wrap minLen chaos : Bool) : RawConfig where
  sbox := sboxA
  pbox := pboxA
  invSboxSupplied := none
  invPboxSupplied := none
  iterCount := iter
  hashCtxCount := nctx
  ctrWrap := wrap
  ctrDecMinLenCheck := minLen
  maxOperandLen := 1024
  chaosPresent := chaos
  regBase := 4096

theorem rawA_ok {iter nctx : Nat} {wrap minLen chaos : Bool} (h1 : 1 ≤ iter) (h2 : 1 ≤ nctx) (h3 : nctx ≤ 16) :
    (rawA iter nctx wrap minLen chaos).admissible = true :=
  (RawConfig.admissible_iff _).2 ⟨sboxA_nodup, pboxA_nodup, nofun, nofun, h1, h2, h3, show 1024 ≤ 2 ^ 32 - 1 by decide⟩

/-- TCFG-A with one iteration and two hash contexts. -/
def cfgA : Config := ⟨rawA 1 2 false true false, rawA_ok (by decide) (by decide) (by decide)⟩

/-- TCFG-A with two iterations. -/
def cfgA2 : Config := ⟨rawA 2 2 false true false, rawA_ok (by decide) (by decide) (by decide)⟩

/-- TCFG-A with CTR_WRAP, without CTR_DEC_MIN_LEN_CHECK, with CHAOS_GEN. -/
def cfgWrap : Config := ⟨rawA 1 1 true false true, rawA_ok (by decide) (by decide) (by decide)⟩

/-- TCFG-ID. -/
def cfgId : Config :=
  ⟨{ rawA 1 1 false true false with sbox := sboxId, pbox := pboxId },
   (RawConfig.admissible_iff _).2
    ⟨sboxId_nodup, pboxId_nodup, nofun, nofun, by decide, by decide, by decide, by decide⟩⟩

/-! ## Small states and observers -/

/-- The bytes of a hex literal. -/
def hex (s : String) : ByteString := (hexBytes s.toList).getD []

/-- The bytes of an ASCII string. -/
def ascii (s : String) : ByteString := (asciiBytes s.toList).getD []

/-- The reset state in a configuration, with the operand slots given. -/
def st (cfg : Config) (a b c : Option ByteString) : State where
  cfg := cfg
  block := { Block.reset cfg.hashCtxCount with A := a, B := b, C := c }
  host := HostAgent.idle
  schedule := []

/-- The reset state with a script whose first statement is next. -/
def stScript (script : List Stmt) : State := (st cfgA none none none).loadScript script

/-- A halted core: FAULT = 8. -/
def stHalted : State := { st cfgA none none none with block := { Block.reset 2 with FAULT := 8#32 } }

/-- The state with the given context in place of context 0. -/
def stCtx (x : HashCtx) (a : Option ByteString) : State :=
  { st cfgA a none none with block := { Block.reset 2 with A := a, ctx := [x, HashCtx.reset] } }

/-- A command that waits as q says. -/
def stWait (q : EntropyWait) : State := { st cfgA none none none with block := { Block.reset 2 with pending := some q } }

/-- An Active context that holds what the given bytes leave. -/
def ctxOf (m : ByteString) : HashCtx := (HashCtx.init HashCtx.reset).update m

/-- An Active context whose bit count is near the top: it has absorbed m, of 2^61 - 1 bytes (V-SHA-17). -/
def ctxFull (m : ByteString) : HashCtx :=
  { HashCtx.reset with
    phase := .active, BUFLEN := 63, BITLEN := 0xFFFFFFFFFFFFFFF8#64, message := m,
    H := compressBlocks shaH0 (2 ^ 55 - 1) m }

theorem ctxFull_bitLen (m : ByteString) : (ctxFull m).BITLEN.toNat = 18446744073709551608 := by
  simp only [ctxFull]
  decide +kernel

/-- It keeps rule R42. -/
theorem ctxFull_sound {m : ByteString} (h : m.length = 2 ^ 61 - 1) : (ctxFull m).Sound := by
  have hb : (0xFFFFFFFFFFFFFFF8#64).toNat = 18446744073709551608 := by decide +kernel
  refine ⟨?_, ?_, ?_, ?_⟩ <;> simp only [ctxFull, hb, h]
  all_goals norm_num

/-- A view of the block of a next state. -/
def view {α : Type} (f : Block → α) (r : Result) : Option α :=
  match r with
  | .next s => some (f s.block)
  | .fault _ => none
  | .refused _ => none

/-- What a command leaves in R0, R1, STATUS and FAULT. -/
structure End where
  r0 : Option ByteString
  r1 : Option ByteString
  status : Word
  fault : Word
  deriving DecidableEq, Repr

/-- R0, R1, STATUS and FAULT after a result. -/
def ends (r : Result) : Option End := view (fun b => ⟨b.R0, b.R1, b.STATUS, b.FAULT⟩) r

/-- The refusal of a step, where it is one. -/
def refusal (r : Result) : Option Refusal :=
  match r with
  | .next _ => none
  | .fault _ => none
  | .refused k => some k

/-- The next state, where there is one. -/
def isNext (r : Result) : Bool := (view (fun _ => ()) r).isSome

def K0 : ByteString := (List.range 32).map (BitVec.ofNat 8)
def B0 : ByteString := (List.range 16).map (BitVec.ofNat 8)
def S0 : ByteString := K0
def IVa : ByteString := hex "a0a1a2a3a4a5a6a7a8a9aaabacadaeaf"
def IV2 : ByteString := hex "202122232425262728292a2b2c2d2e2f"
def Z16 : ByteString := bytesOf 16 0
def Z32 : ByteString := bytesOf 32 0

/-! ## WellFormed smoke tests (rules R6, R83) -/

theorem test_ill_formed_context_index_refused :
    (Instr.hashInit 2).wellFormed 2 = false ∧ (Instr.hashUpdate 1).wellFormed 1 = false ∧
    (Instr.hashFinal 16).wellFormed 16 = false ∧ (Instr.hashFinal 15).wellFormed 16 = true ∧
    Instr.hmac.wellFormed 1 = true := by decide

theorem admit_refuses {r : RawConfig} (h : ¬ r.Admissible) : Config.accept r = none := by
  rw [← RawConfig.admissible_iff] at h
  simp [Config.accept, h]

theorem test_config_refused_sbox_not_bijective :
    Config.accept { rawA 1 1 false true false with sbox := Vector.replicate 256 0 } = none :=
  admit_refuses fun h => absurd h.sbox (by decide +kernel)

theorem test_config_refused_pbox_not_bijective :
    Config.accept { rawA 1 1 false true false with pbox := Vector.replicate 128 0 } = none :=
  admit_refuses fun h => absurd h.pbox (by decide +kernel)

theorem test_config_refused_inv_sbox_wrong :
    Config.accept { rawA 1 1 false true false with invSboxSupplied := some sboxA } = none :=
  admit_refuses fun h => absurd (h.invSbox _ rfl 0) (by decide +kernel)

theorem test_config_refused_inv_pbox_wrong :
    Config.accept { rawA 1 1 false true false with invPboxSupplied := some pboxA } = none :=
  admit_refuses fun h => absurd (h.invPbox _ rfl 0) (by decide +kernel)

theorem test_config_refused_no_iterations : Config.accept (rawA 0 1 false true false) = none :=
  admit_refuses fun h => absurd h.iter (by decide)

theorem test_config_refused_context_count :
    Config.accept (rawA 1 0 false true false) = none ∧ Config.accept (rawA 1 17 false true false) = none :=
  ⟨admit_refuses fun h => absurd h.ctxLow (by decide), admit_refuses fun h => absurd h.ctxHigh (by decide)⟩

theorem test_config_refused_operand_bound :
    Config.accept { rawA 1 1 false true false with maxOperandLen := 2 ^ 32 } = none :=
  admit_refuses fun h => absurd h.maxLen (by decide)

theorem test_config_admitted : ∃ cfg, Config.accept (rawA 1 2 false true false) = some cfg :=
  ⟨cfgA, by simp [Config.accept, rawA_ok, cfgA]⟩

/-! ## Decoding: words written out bit by bit from rules R80 and R82 -/

theorem test_decode_hash :
    decode 0b00000000000000000000000000000001#32 = .ok (.hashInit 0) ∧
    decode 0b00000000000000001111000000000010#32 = .ok (.hashUpdate 15) ∧
    decode 0b00000000000000000011000000000011#32 = .ok (.hashFinal 3) := ⟨rfl, rfl, rfl⟩

theorem test_decode_mac :
    decode 0b00000000000000000000000000010000#32 = .ok .hmac ∧
    decode 0b00000000000000000000000000010001#32 = .ok .kdf := ⟨rfl, rfl⟩

theorem test_decode_block :
    decode 0b00000000000000000000000000100000#32 = .ok .blkEnc ∧
    decode 0b00000000000000000000000000100001#32 = .ok .blkDec := ⟨rfl, rfl⟩

theorem test_decode_modes :
    decode 0b00000000000000000000000000100010#32 = .ok .cbcEnc ∧
    decode 0b00000000000000000000000000100011#32 = .ok .cbcDec ∧
    decode 0b00000000000000000000000100100010#32 = .ok .ctrEnc ∧
    decode 0b00000000000000000000000100100011#32 = .ok .ctrDec := ⟨rfl, rfl, rfl, rfl⟩

theorem test_decode_envelope :
    decode 0b00000000000000000000000000110000#32 = .ok .envPack ∧
    decode 0b00000000000000000000000000110001#32 = .ok .envUnpack ∧
    decode 0b00000000000000000000000001010000#32 = .ok .encBytes ∧
    decode 0b00000000000000000000000001010001#32 = .ok .decBytes := ⟨rfl, rfl, rfl, rfl⟩

theorem test_decode_random :
    decode 0b00000000000000000000000001000000#32 = .ok .rngFill ∧
    decode 0b00000000000000000000000001000001#32 = .ok .chaosFill := ⟨rfl, rfl⟩

/-- V-ENC-5 to V-ENC-11. -/
theorem test_decode_illegal :
    decodeFor 1 0x00001001#32 = .error (.contextOutOfRange 1) ∧
    decodeFor 1 0x00000000#32 = .error (.unassignedOpcode 0x00#8) ∧
    decodeFor 1 0x00000120#32 = .error .modeBitSet ∧
    decodeFor 1 0x00000222#32 = .error .reserved0Set ∧
    decodeFor 1 0x00010022#32 = .error .reserved1Set ∧
    decodeFor 1 0x00001022#32 = .error (.contextBitsSet 1#4) ∧
    decodeFor 1 0xFFFFFFFF#32 = .error .reserved1Set := ⟨rfl, rfl, rfl, rfl, rfl, rfl, rfl⟩

theorem test_table_word :
    decodeTableWord 32 0x123 = some .ctrDec ∧ decodeTableWord 32 0x52 = none ∧
    encode .ctrDec = 0x00000123#32 ∧ encode (.hashFinal 3) = 0x00003003#32 := by decide

/-! ## One command from a small state (95_test_vectors.md §3) -/

/-- V-SHA-16: a Finalized context may be started again, with SHA_H0. -/
theorem test_hashInit_of_finalized :
    view (fun b => (b.ctx.map HashCtx.phase, (b.ctx.map HashCtx.H).head?))
      (exec (.hashInit 0) (stCtx { ctxOf [1] with phase := .finalized } none)) =
      some ([.active, .unset], some shaH0) := by decide +kernel

/-- V-ENC-5 with two contexts: an index without a context is an illegal command. -/
theorem test_hashInit_without_context :
    ends (exec (.hashInit 2) (st cfgA none none none)) = some ⟨none, none, 0#32, 0x01#32⟩ := by decide +kernel

/-- V-SHA-19: a full block is compressed at once. -/
theorem test_hashUpdate_full_block :
    view (fun b => b.ctx.map fun x => (x.BUFLEN, x.BITLEN)) (exec (.hashUpdate 0) (stCtx (ctxOf []) (some (bytesOf 64 0x61)))) =
      some [(0, 512#64), (0, 0#64)] := by decide +kernel

/-- V-SHA-17: one byte too many faults; the length is tested before rule R42. -/
theorem test_hashUpdate_overflow :
    ends (exec (.hashUpdate 0) (stCtx (ctxFull []) (some [0]))) = some ⟨none, none, 0#32, 0x10#32⟩ := by decide +kernel

/-- V-SHA-17: no byte is Ok. -/
theorem test_hashUpdate_no_byte {m : ByteString} (h : m.length = 2 ^ 61 - 1) :
    performHashUpdate 0 (ctxFull m) [] = .okHash 0 ((ctxFull m).update []) none := by
  have hp : (ctxFull m).phase = .active := by simp only [ctxFull]
  simp only [performHashUpdate, hp, ctxFull_bitLen, (ctxFull m).consistent_iff.2 (ctxFull_sound h)]
  norm_num

/-- Rules R42, R305: an Active context without a byte and with another H than SHA_H0 gives no digest, nor does one whose
counts disagree. -/
theorem test_hashFinal_broken_context :
    ends (exec (.hashFinal 0) (stCtx { ctxOf [] with H := ⟨0, 0, 0, 0, 0, 0, 0, 0⟩ } none)) =
      some ⟨none, none, 0#32, 0x80#32⟩ ∧
    ends (exec (.hashFinal 0) (stCtx { ctxOf [1] with BUFLEN := 2 } none)) = some ⟨none, none, 0#32, 0x80#32⟩ := by
  decide +kernel

/-- V-SHA-8: "a", then "bc". -/
theorem test_hashFinal_abc :
    ends (exec (.hashFinal 0) (stCtx ((ctxOf (ascii "a")).update (ascii "bc")) none)) =
      some ⟨some (hex "ba7816bf8f01cfea414140de5dae2223b00361a396177a9cb410ff61f20015ad"), none, 0#32, 0#32⟩ := by
  decide +kernel

/-- V-SHA-13, V-SHA-14: an Unset and a Finalized context fault. -/
theorem test_hashFinal_inactive :
    ends (exec (.hashFinal 1) (st cfgA none none none)) = some ⟨none, none, 0#32, 0x08#32⟩ ∧
    ends (exec (.hashFinal 0) (stCtx { ctxOf [] with phase := .finalized } none)) =
      some ⟨none, none, 0#32, 0x08#32⟩ := by decide +kernel

/-- V-SHA-1, V-SHA-4 (the smallest two-block pad) and V-SHA-12. -/
theorem test_sha256_lengths :
    sha256 [] = hex "e3b0c44298fc1c149afbf4c8996fb92427ae41e4649b934ca495991b7852b855" ∧
    sha256 (bytesOf 56 0x61) = hex "b35439a4ac6f0948b6d6f9e3c6af0f5f590ce20f1bde7090ef7970686ec6738a" ∧
    sha256 (bytesOf 128 0x61) = hex "6836cf13bac400e9105071cd6af47084dfacad4e5e302c94bfed24e013afb73e" := by
  decide +kernel

/-- V-HMAC-2. -/
theorem test_hmac_short_key :
    ends (exec .hmac (st cfgA (some (ascii "Jefe")) (some (ascii "what do ya want for nothing?")) none)) =
      some ⟨some (hex "5bdcc146bf60754e6a042426089575c75a003f089d2739839dec58b964ec3843"), none, 0#32, 0#32⟩ := by
  decide +kernel

/-- V-HMAC-5: a key of 65 bytes is hashed. -/
theorem test_hmac_long_key :
    ends (exec .hmac (st cfgA (some (bytesOf 65 1)) (some (ascii "abc")) none)) =
      some ⟨some (hex "fb1e9b9f783337ca807b11cd396d1c31eb5267d95d2d2bb0f1d83ffafbbf64e9"), none, 0#32, 0#32⟩ := by
  decide +kernel

/-- V-KDF-4, at one iteration. -/
theorem test_kdf_one_iteration :
    ends (exec .kdf (st cfgA (some (ascii "secret")) (some S0) none)) =
      some ⟨some (hex "f86fe1e11f5c6c57b9e3423024bceb98938749264d66be7f6e4a465f22a6f7ce"), none, 0#32, 0#32⟩ := by
  decide +kernel

/-- V-KDF-2, at two iterations. -/
theorem test_kdf_two_iterations :
    ends (exec .kdf (st cfgA2 (some (ascii "password")) (some (ascii "salt")) none)) =
      some ⟨some (hex "ae4d0c95af6b46d32d0adff928f06dd02a303f8ef3c251dfd6e2d85a95474c43"), none, 0#32, 0#32⟩ := by
  decide +kernel

/-- V-BLK-0: gather, not scatter. -/
theorem test_perm_direction :
    perm cfgA (0x80#8 :: bytesOf 15 0) = hex "00000040000000000000000000000000" ∧
    invPerm cfgA (0x80#8 :: bytesOf 15 0) = hex "10000000000000000000000000000000" := by decide +kernel

/-- V-BLK-7. -/
theorem test_blkEnc :
    ends (exec .blkEnc (st cfgA (some K0) (some B0) none)) =
      some ⟨some (hex "af573638e90021e9c43c5f9180f858d0"), none, 0#32, 0#32⟩ := by decide +kernel

/-- V-BLK-13. -/
theorem test_blkEnc_shape :
    ends (exec .blkEnc (st cfgA (some (K0.take 31)) (some []) none)) = some ⟨none, none, 0#32, 0x02#32⟩ ∧
    ends (exec .blkEnc (st cfgA (some K0) (some []) none)) = some ⟨none, none, 0#32, 0x02#32⟩ := by decide +kernel

/-- V-BLK-12. -/
theorem test_blkDec :
    ends (exec .blkDec (st cfgA (some K0) (some (hex "af573638e90021e9c43c5f9180f858d0")) none)) =
      some ⟨some B0, none, 0#32, 0#32⟩ := by decide +kernel

/-- V-CBC-2. -/
theorem test_cbcEnc_hello :
    ends (exec .cbcEnc (st cfgA (some K0) (some IVa) (some (ascii "hello world")))) =
      some ⟨some (hex "6a8e007dad842c5a7afb5243b62d1a93"), none, 0#32, 0#32⟩ := by decide +kernel

/-- V-CBC-3: an aligned plaintext gets a whole block of padding. -/
theorem test_cbcEnc_aligned :
    ends (exec .cbcEnc (st cfgA (some K0) (some IVa) (some Z16))) =
      some ⟨some (hex "7e87367aabd3b028066c1dc3106acb032aecb8e86ae27f16ca6b213fbfe87fcc"), none, 0#32, 0#32⟩ := by
  decide +kernel

/-- V-CBC-7: a wrong IV can yield wrong bytes with no error. -/
theorem test_cbcDec_wrong_iv :
    ends (exec .cbcDec (st cfgA (some K0) (some (hex "a0a1a2a3a4a5a6a7a8a9aaabacadaeab"))
      (some (hex "6a8e007dad842c5a7afb5243b62d1a93")))) =
      some ⟨some (hex "68656c6c6f20776f726c6405050505"), none, 0#32, 0#32⟩ := by decide +kernel

/-- V-CBC-5, V-CBC-10 and V-CBC-12: the errors. -/
theorem test_cbcDec_errors :
    ends (exec .cbcDec (st cfgA (some K0) (some IVa) (some []))) = some ⟨none, none, 1#32, 0#32⟩ ∧
    ends (exec .cbcDec (st cfgId (some Z32) (some Z16) (some (bytesOf 15 0 ++ [0x11])))) =
      some ⟨none, none, 2#32, 0#32⟩ ∧
    ends (exec .cbcDec (st cfgId (some Z32) (some Z16) (some (bytesOf 13 0 ++ [3, 3, 2])))) =
      some ⟨none, none, 2#32, 0#32⟩ := by decide +kernel

/-- V-CTR-4: 33 bytes, a partial last block. -/
theorem test_ctrEnc_partial :
    ends (exec .ctrEnc (st cfgA (some K0) (some IVa) (some ((List.range 33).map (BitVec.ofNat 8))))) =
      some ⟨some (hex "7e863479afd6b62f0e6517c81c67c50c6ed63469af42a63f1e7d45c80877d13c5e"), none, 0#32, 0#32⟩ := by
  decide +kernel

/-- V-CTR-7, V-CTR-8: the last counter overflows, or wraps. -/
theorem test_ctrEnc_overflow :
    ends (exec .ctrEnc (st cfgA (some K0) (some (bytesOf 12 0 ++ bytesOf 4 0xff)) (some (bytesOf 17 0)))) =
      some ⟨none, none, 0#32, 0x20#32⟩ ∧
    ends (exec .ctrEnc (st cfgWrap (some K0) (some (bytesOf 12 0 ++ bytesOf 4 0xff)) (some (bytesOf 17 0)))) =
      some ⟨some (hex "0c69d51e965fc12218f9cb54ecb1218614"), none, 0#32, 0#32⟩ := by decide +kernel

/-- V-CTR-5. -/
theorem test_ctrDec_short :
    ends (exec .ctrDec (st cfgA (some K0) (some IVa) (some (hex "16e25a16c4")))) = some ⟨none, none, 1#32, 0#32⟩ := by
  decide +kernel

/-- V-CTR-10: no alignment test. -/
theorem test_ctrDec_unaligned :
    ends (exec .ctrDec (st cfgA (some K0) (some IVa) (some (hex "7e87367aabd3b028066c1dc3106acb037e")))) =
      some ⟨some (bytesOf 17 0), none, 0#32, 0#32⟩ := by decide +kernel

/-- V-ENV-1. -/
theorem test_envPack :
    ends (exec .envPack (st cfgA (some S0) (some IV2) none)) =
      some ⟨some ((List.range 48).map (BitVec.ofNat 8)), none, 0#32, 0#32⟩ := by decide +kernel

/-- V-ENV-2, V-ENV-3. -/
theorem test_envUnpack :
    ends (exec .envUnpack (st cfgA (some (S0 ++ IV2)) none none)) = some ⟨some S0, some IV2, 0#32, 0#32⟩ ∧
    ends (exec .envUnpack (st cfgA (some (bytesOf 47 0)) none none)) = some ⟨none, none, 1#32, 0#32⟩ ∧
    ends (exec .envUnpack (st cfgA (some (bytesOf 49 0)) none none)) = some ⟨none, none, 1#32, 0#32⟩ := by
  decide +kernel

/-- V-RNG-1, V-RNG-2, V-RNG-3. -/
theorem test_rngFill :
    ends (exec .rngFill (st cfgA (some [0, 0, 0, 0]) none none)) = some ⟨some [], none, 0#32, 0#32⟩ ∧
    ends (exec .rngFill ((st cfgA (some [0, 0, 0, 16]) none none).withSchedule [.answer (.bytes (bytesOf 16 0x5a))])) =
      some ⟨some (bytesOf 16 0x5a), none, 0#32, 0#32⟩ ∧
    ends (exec .rngFill ((st cfgA (some [0, 0, 0, 16]) none none).withSchedule [.answer .unavailable])) =
      some ⟨none, none, 3#32, 0#32⟩ := by decide +kernel

/-- V-RNG-4, V-RNG-6: no answer leaves the command pending; a count above MAX_OPERAND_LEN faults. -/
theorem test_rngFill_pending :
    view Block.pending (exec .rngFill (st cfgA (some [0, 0, 0, 16]) none none)) = some (some (.rngFill 16)) ∧
    ends (exec .rngFill (st cfgA (some [0, 0, 4, 1]) none none)) = some ⟨none, none, 0#32, 0x02#32⟩ := by decide +kernel

/-- V-PRI-6, V-PRI-7: the operands come before the refusal. -/
theorem test_chaosFill_absent :
    ends (exec .chaosFill (st cfgA none none none)) = some ⟨none, none, 0#32, 0x04#32⟩ ∧
    ends (exec .chaosFill (st cfgA (some [0x78]) (some [0, 0, 0, 0]) none)) = some ⟨none, none, 0#32, 0x40#32⟩ := by
  decide +kernel

/-- Rule R244 where CHAOS_GEN is present: the length is the count, whatever the bytes are. -/
theorem test_chaosFill_present :
    view (fun b => (b.R0.map List.length, b.STATUS))
      (exec .chaosFill (st cfgWrap (some [0x78]) (some [0, 0, 0, 2]) none)) = some (some 2, 0#32) := by decide +kernel

/-- V-ENV-11: no salt is returned when the second draw fails. -/
theorem test_encBytes_iv_unavailable :
    ends (exec .encBytes ((st cfgA (some []) (some (ascii "secret")) none).withSchedule
      [.answer (.bytes Z32), .answer .unavailable])) = some ⟨none, none, 3#32, 0#32⟩ := by decide +kernel

/-- W5: an envelope of 64 bytes whose first 48 are salt and IV. -/
theorem test_encBytes_length :
    view (fun b => (b.R0.map List.length, b.R0.map (List.take 48)))
      (exec .encBytes ((st cfgA (some (ascii "hello world")) (some (ascii "secret")) none).withSchedule
        [.answer (.bytes S0), .answer (.bytes IV2)])) = some (some 64, some (S0 ++ IV2)) := by decide +kernel

/-- V-ENV-5 and V-ENV-8 at function level: the ciphertexts under the key of V-KDF-5. -/
theorem test_envelope_ciphertext :
    cbcEncrypt cfgA (hex "95e1a5e741b1e4f11372dee9aad7eeb59b43900952363ee187e09888139a3f34") IV2 (ascii "hello world") =
      hex "ad4fd4978c905f1d7640af0defd8831b" ∧
    cbcEncrypt cfgA (hex "95e1a5e741b1e4f11372dee9aad7eeb59b43900952363ee187e09888139a3f34") IV2 [] =
      hex "7b87f3d25815133ddb16f29dc95dc01b" := by decide +kernel

/-- V-ENV-9. -/
theorem test_decBytes_short :
    ends (exec .decBytes (st cfgA (some (bytesOf 47 0)) (some []) none)) = some ⟨none, none, 1#32, 0#32⟩ ∧
    ends (exec .decBytes (st cfgA (some (bytesOf 48 0)) (some []) none)) = some ⟨none, none, 1#32, 0#32⟩ ∧
    ends (exec .decBytes (st cfgA (some (bytesOf 50 0)) (some []) none)) = some ⟨none, none, 1#32, 0#32⟩ := by
  decide +kernel

/-! ## Steps of the machine -/

/-- V-PRI-1: an illegal word is decided before any slot is read. -/
theorem test_step_illegal_first :
    ends (step ((st cfgA none none none).withFetchWord 32 0x00010022)) = some ⟨none, none, 0#32, 0x01#32⟩ := by
  decide +kernel

/-- V-PRI-2, V-PRI-3, V-PRI-5. -/
theorem test_step_operands_in_order :
    ends (step ((st cfgA none none none).withFetchWord 32 0x22)) = some ⟨none, none, 0#32, 0x04#32⟩ ∧
    ends (step ((st cfgA (some (bytesOf 31 0)) none none).withFetchWord 32 0x22)) = some ⟨none, none, 0#32, 0x02#32⟩ ∧
    ends (step ((st cfgA none none none).withFetchWord 32 0x02)) = some ⟨none, none, 0#32, 0x04#32⟩ := by decide +kernel

/-- V-PRI-8. -/
theorem test_step_halted :
    view id (step (stHalted.withFetchWord 32 0x01)) = some stHalted.block := by decide +kernel

/-- The first step after reset runs the word placed for it, in the hardware's own configuration. -/
theorem test_step_from_reset :
    view (fun b => b.ctx.map HashCtx.phase) (step (State.reset.withFetchWord 32 0x01)) = some [.active] := by
  decide +kernel

/-- V-RNG-5: a write during a wait is refused. -/
theorem test_step_write_while_pending :
    refusal (step ((stWait (.rngFill 16)).withSchedule [.host (.wr .b [0x78])])) = some .hostWriteWhilePending := by
  decide +kernel

/-- Program P5 of 95_test_vectors.md as text, assembled (rules R86, R87). -/
theorem test_assemble_P5 :
    assemble "WR A, BE32(16)\nretry: CMD RNG.FILL ; 0x00000040\nJNZ STATUS, retry\nHALT".toList =
      some [.act (.wr .a [0, 0, 0, 16]), .act (.cmd 0x00000040#32), .jnzStatus 1, .halt] := by decide +kernel

/-- A pseudo-command of rule R88, and texts that have no meaning. -/
theorem test_assemble_pseudo :
    assemble "SHA256 0, \"abc\"".toList =
      some [.act (.cmd 1#32), .act (.wr .a (ascii "abc")), .act (.cmd 2#32), .act (.cmd 3#32)] ∧
    assemble "CMD HASH.INIT 16".toList = none ∧ assemble "JMP nowhere".toList = none := by decide +kernel

/-! ## Witnesses: for every obligation with hypotheses, data that meets them -/

/-- A command completes, as the witnesses below use it. -/
theorem exists_next {r : Result} (h : isNext r = true) : ∃ t, r = .next t := by
  cases r with
  | next t => exact ⟨t, rfl⟩
  | fault k => cases h
  | refused k => cases h

theorem witness_DecodeOfEncode :
    (16 ≤ 16 ∧ (Instr.hashInit 15).wellFormed 16 = true) ∧ (1 ≤ 16 ∧ Instr.ctrDec.wellFormed 1 = true) := by decide

theorem witness_EncodeOfDecode : decode 0x0000F003#32 = .ok (.hashFinal 15) := rfl

theorem witness_DecoderFollowsOpcodeTable :
    decode 0x00000122#32 = .ok .ctrEnc ∧ Instr.ctrEnc.row ∈ opcodeTable ∧ Instr.ctrEnc.row.selects 0x00000122#32 = true :=
  ⟨rfl, by decide, by decide⟩

theorem witness_StepRunsDecodedCommand :
    (stScript [.act (.cmd 1#32)]).Ready ∧ decodeFor (stScript [.act (.cmd 1#32)]).cfg.hashCtxCount 1#32 = .ok (.hashInit 0) ∧
    (stScript [.act (.cmd 1#32)]).host.fetch = some (.act (.cmd 1#32)) := ⟨⟨rfl, rfl⟩, rfl, rfl⟩

/-- Both clauses, at the first index out of range and at the last one in range. -/
theorem witness_IllegalWordFaults :
    (st cfgA none none none).Ready ∧ illegalWord (st cfgA none none none).cfg.hashCtxCount 0x2001#32 ∧
    ¬ illegalWord (st cfgA none none none).cfg.hashCtxCount 0x1001#32 := by
  refine ⟨⟨rfl, rfl⟩, .inr (.inr (.inr (.inl ⟨by decide, .inl (by decide)⟩))), ?_⟩
  show ¬ illegalWord 2 0x1001#32
  simp only [illegalWord]
  decide

/-- One state for each way to end: Ok, an error, a fault, a wait. -/
theorem witness_CommandEndsOneWay :
    (∃ t, (st cfgA none none none).block.pending = none ∧ exec (.hashInit 0) (st cfgA none none none) = .next t) ∧
    (∃ t, (st cfgA (some []) none none).block.pending = none ∧ exec .envUnpack (st cfgA (some []) none none) = .next t) ∧
    (∃ t, (st cfgA none none none).block.pending = none ∧ exec .hmac (st cfgA none none none) = .next t) ∧
    (∃ t, (st cfgA (some [0, 0, 0, 1]) none none).block.pending = none ∧
      exec .rngFill (st cfgA (some [0, 0, 0, 1]) none none) = .next t) :=
  ⟨⟨_, rfl, rfl⟩, ⟨_, rfl, rfl⟩, ⟨_, rfl, rfl⟩, ⟨_, rfl, rfl⟩⟩

theorem witness_OperandFaultsInOrder :
    (∀ c, Instr.cbcEnc.ctxIndex = some c → c < (st cfgA (some [1]) none none).block.ctx.length) ∧
    firstOperandFault (st cfgA (some [1]) none none).block (operandShapes .cbcEnc) = some (.operandShape .a 1) ∧
    (∀ c, (Instr.hashUpdate 1).ctxIndex = some c → c < (st cfgA none none none).block.ctx.length) ∧
    firstOperandFault (st cfgA none none none).block (operandShapes (.hashUpdate 1)) = some (.readUnwritten .a) :=
  ⟨nofun, by decide, fun c h => by cases h; decide, by decide⟩

theorem witness_UnreadSlotsDoNotMatter : Slot.c ∉ (operandShapes .hmac).map Prod.fst := by decide

theorem witness_CommandFrame : ∃ t, exec (.hashInit 1) (st cfgA none none none) = .next t := ⟨_, rfl⟩

theorem witness_ErrorFreeCommands :
    ∃ t, Instr.hmac ≠ .cbcDec ∧ Instr.hmac ≠ .ctrDec ∧ Instr.hmac ≠ .envUnpack ∧ Instr.hmac ≠ .decBytes ∧
      Instr.hmac ≠ .rngFill ∧ Instr.hmac ≠ .encBytes ∧
      exec .hmac (st cfgA (some []) (some []) none) = .next t :=
  ⟨_, by decide, by decide, by decide, by decide, by decide, by decide, rfl⟩

theorem witness_IoFailureNeverWritten :
    ∃ t, step (st cfgA none none none) = .next t ∧ (st cfgA none none none).block.STATUS ≠ 4#32 := ⟨_, rfl, by decide⟩

theorem witness_HashInitCompletes :
    (st cfgA none none none).block.ctx[1]? = some HashCtx.reset ∧ (st cfgA none none none).block.ctx.length ≤ 2 :=
  ⟨rfl, by decide⟩

theorem witness_HashUpdateCompletes :
    ((stCtx (ctxOf []) (some [1])).block.ctx[0]? = some (ctxOf []) ∧ (ctxOf []).phase = .active ∧
      (stCtx (ctxOf []) (some [1])).block.A = some [1] ∧ (ctxOf []).BITLEN.toNat + 8 * [1#8].length ≤ 2 ^ 64 - 1 ∧
      (ctxOf []).Sound) ∧
    ∃ m, (ctxFull m).phase = .active ∧ (ctxFull m).BITLEN.toNat + 8 * ([] : ByteString).length ≤ 2 ^ 64 - 1 ∧
      (ctxFull m).Sound :=
  ⟨⟨rfl, rfl, rfl, by decide +kernel, (HashCtx.consistent_iff _).1 (by decide +kernel)⟩, List.replicate (2 ^ 61 - 1) 0,
    by simp only [ctxFull], by rw [ctxFull_bitLen]; norm_num, ctxFull_sound List.length_replicate⟩

/-- The clause of HashUpdateCompletes and HashFinalCompletes about a context that breaks rule R42. -/
theorem witness_broken_context :
    (stCtx { ctxOf [] with H := ⟨0, 0, 0, 0, 0, 0, 0, 0⟩ } (some [])).block.ctx[0]? =
      some { ctxOf [] with H := ⟨0, 0, 0, 0, 0, 0, 0, 0⟩ } ∧
    ({ ctxOf [] with H := ⟨0, 0, 0, 0, 0, 0, 0, 0⟩ } : HashCtx).phase = .active ∧
    ¬ ({ ctxOf [] with H := ⟨0, 0, 0, 0, 0, 0, 0, 0⟩ } : HashCtx).Sound :=
  ⟨rfl, rfl, fun h => absurd ((HashCtx.consistent_iff _).2 h) (by decide +kernel)⟩

/-- The history clause of HashUpdateCompletes and HashFinalCompletes: an Active context that has absorbed "". -/
theorem witness_Absorbed : (HashCtx.init HashCtx.reset).Absorbed [] := HashCtx.init_absorbed _

theorem witness_HashFinalCompletes :
    (stCtx (ctxOf [1]) none).block.ctx[0]? = some (ctxOf [1]) ∧ (ctxOf [1]).phase = .active ∧ (ctxOf [1]).Sound :=
  ⟨rfl, rfl, (HashCtx.consistent_iff _).1 (by decide +kernel)⟩

theorem witness_IncrementalEquivalence :
    1 < (st cfgA none none none).block.ctx.length ∧
    8 * ([ascii "a", [], ascii "bc"] : List ByteString).flatten.length ≤ 2 ^ 64 - 1 := by decide

theorem witness_InactiveContextFaults :
    (st cfgA (some []) none none).block.ctx[0]? = some HashCtx.reset ∧
    (HashCtx.reset.phase = .unset ∨ HashCtx.reset.phase = .finalized) ∧ (st cfgA (some []) none none).block.A = some [] := by
  decide

theorem witness_LengthOverflowFaults :
    (stCtx (ctxFull []) (some [1])).block.ctx[0]? = some (ctxFull []) ∧ (ctxFull []).phase = .active ∧
    (stCtx (ctxFull []) (some [1])).block.A = some [1] ∧ (ctxFull []).BITLEN.toNat + 8 * [1#8].length > 2 ^ 64 - 1 :=
  ⟨rfl, by simp only [ctxFull], rfl, by rw [ctxFull_bitLen]; decide +kernel⟩

/-- Two operands of any length, or one missing: HMAC, KDF, ENC.BYTES, DEC.BYTES, and ENV.UNPACK for slot A. -/
theorem witness_HmacCompletes_KdfCompletes :
    (st cfgA (some []) (some []) none).block.A = some [] ∧ (st cfgA (some []) (some []) none).block.B = some [] ∧
    ((st cfgA (some []) none none).block.A = none ∨ (st cfgA (some []) none none).block.B = none) ∧
    (st cfgA none none none).block.A = none := by
  decide

theorem witness_BlockCommandsComplete :
    (st cfgA (some K0) (some B0) none).block.A = some K0 ∧ K0.length = 32 ∧
    (st cfgA (some K0) (some B0) none).block.B = some B0 ∧ B0.length = 16 := by decide +kernel

theorem witness_PermutationGathers : (0 < 128) ∧ (127 < 128) := by decide

theorem witness_LayersInvert_BlockInvertibility : B0.length = 16 ∧ IVa.length = 16 ∧ K0.length = 32 := by decide +kernel

/-- A padded string, and one that is none. -/
theorem witness_PaddingCheckedExactly :
    (16 ≤ (bytesOf 16 0x10).length ∧ (bytesOf 16 0x10).length % 16 = 0 ∧ pkcs7Pad [] = bytesOf 16 0x10) ∧
    (16 ≤ Z16.length ∧ Z16.length % 16 = 0 ∧ paddingValid Z16 = false) := by decide +kernel

/-- Key, IV and data for the four mode commands, and a ciphertext for each clause of CbcDecOutcomes. -/
theorem witness_CbcEncCompletes_CbcDecOutcomes_CbcRoundTrip :
    (st cfgA (some K0) (some IVa) (some [])).block.A = some K0 ∧ K0.length = 32 ∧
    (st cfgA (some K0) (some IVa) (some [])).block.B = some IVa ∧ IVa.length = 16 ∧
    (st cfgA (some K0) (some IVa) (some [])).block.C = some [] ∧
    ((bytesOf 15 0).length < 16 ∨ (bytesOf 15 0).length % 16 ≠ 0) ∧
    ((bytesOf 17 0).length < 16 ∨ (bytesOf 17 0).length % 16 ≠ 0) ∧ (16 ≤ Z16.length ∧ Z16.length % 16 = 0) := by
  decide +kernel

/-- Each clause of `ctrFits`: no data, the last counter exactly 2^32 - 1, a counter that may wrap. -/
theorem witness_CtrEncCompletes :
    ctrFits cfgA (bytesOf 16 0xff) [] ∧ ctrFits cfgA (bytesOf 16 0xff) Z16 ∧
    ctrFits cfgWrap (bytesOf 16 0xff) (bytesOf 17 0) := by
  refine ⟨.inl rfl, .inr (.inl ?_), .inr (.inr rfl)⟩
  decide +kernel

theorem witness_CtrDecOutcomes :
    (cfgA.ctrDecMinLenCheck = true ∧ (bytesOf 15 0).length < 16) ∧ (cfgA.ctrDecMinLenCheck = false ∨ 16 ≤ Z16.length) ∧
    (cfgWrap.ctrDecMinLenCheck = false ∨ 16 ≤ ([] : ByteString).length) := by decide +kernel

theorem witness_CtrCounterOverflowFaults : ¬ ctrFits cfgA (bytesOf 16 0xff) (bytesOf 17 0) := by
  rintro (h | h | h)
  · revert h; decide +kernel
  · revert h; decide +kernel
  · cases h

theorem witness_CtrInvolution :
    K0.length = 32 ∧ IVa.length = 16 ∧ (ctrXcrypt cfgA K0 IVa [0]).toOption = some [0x7e] := by decide +kernel

/-- Counts 0, 1, MAX_OPERAND_LEN and one more, and a schedule for each clause. -/
theorem witness_RngFillOutcomes :
    beVal [0, 0, 0, 0] = 0 ∧ 0 < beVal [0, 0, 0, 1] ∧ beVal [0, 0, 4, 0] ≤ cfgA.maxOperandLen ∧
    beVal [0, 0, 4, 1] > cfgA.maxOperandLen ∧
    (st cfgA (some [0, 0, 0, 1]) none none).block.A = some [0, 0, 0, 1] ∧ ([0, 0, 0, 1] : ByteString).length = 4 ∧
    ((st cfgA (some [0, 0, 0, 1]) none none).withSchedule [.answer (.bytes [7])]).schedule = .answer (.bytes [7]) :: [] ∧
    ([7] : ByteString).length = beVal [0, 0, 0, 1] ∧
    ((st cfgA (some [0, 0, 0, 1]) none none).withSchedule [.answer .unavailable]).schedule = .answer .unavailable :: [] := by
  decide +kernel

theorem witness_no_answer_next : ∀ a rest, (st cfgA (some [0, 0, 0, 1]) none none).schedule ≠ .answer a :: rest := nofun

theorem witness_OracleAnswerResumes :
    (stWait (.rngFill 1)).block.pending = some (.rngFill 1) ∧ ([7] : ByteString).length = 1 ∧
    (stWait (.encIv [] [] Z32)).block.pending = some (.encIv [] [] Z32) ∧ IV2.length = 16 ∧
    (stWait (.encSalt [] [])).block.pending = some (.encSalt [] []) ∧ Z32.length = 32 := by decide +kernel

/-- What may stand behind the salt's answer: no answer, the IV, Unavailable. -/
theorem witness_OracleAnswerResumes_second_draw :
    (∀ a rest, ([.script] : List Move) ≠ .answer a :: rest) ∧
    ([.answer (.bytes IV2)] : List Move) = .answer (.bytes IV2) :: [] ∧
    ([.answer .unavailable] : List Move) = .answer .unavailable :: [] := ⟨nofun, rfl, rfl⟩

theorem witness_PendingHoldsTheBlock :
    (stWait (.rngFill 1)).block.pending.isSome = true ∧ (stWait (.rngFill 1)).block.FAULT = 0#32 ∧ 4 % 4 = 0 ∧ 4 ≠ 0 ∧
    (st cfgA none none none).block.pending = none ∧ (st cfgA none none none).host.awaiting = false := by decide

theorem witness_WaitIsInvisible :
    ∃ t, (st cfgA (some [0, 0, 0, 1]) none none).block.pending = none ∧
      exec .rngFill (st cfgA (some [0, 0, 0, 1]) none none) = .next t ∧ t.block.pending ≠ none :=
  ⟨_, rfl, rfl, nofun⟩

theorem witness_ChaosFillOutcomes :
    (st cfgWrap (some []) (some [0, 0, 4, 0]) none).block.A = some [] ∧
    (st cfgWrap (some []) (some [0, 0, 4, 0]) none).block.B = some [0, 0, 4, 0] ∧ ([0, 0, 4, 0] : ByteString).length = 4 ∧
    cfgA.chaosPresent = false ∧ (cfgWrap.chaosPresent = true ∧ beVal [0, 0, 4, 1] > cfgWrap.maxOperandLen) ∧
    (cfgWrap.chaosPresent = true ∧ beVal [0, 0, 4, 0] ≤ cfgWrap.maxOperandLen) := by decide +kernel

theorem witness_EnvelopeHeaderCommands :
    (st cfgA (some S0) (some IV2) none).block.A = some S0 ∧ S0.length = 32 ∧
    (st cfgA (some S0) (some IV2) none).block.B = some IV2 ∧ IV2.length = 16 ∧ (S0 ++ IV2).length = 48 ∧
    (bytesOf 47 0).length ≠ 48 := by decide +kernel

/-- The schedules of the clauses of EncBytesOutcomes, and of EnvelopeLength and EnvelopeRoundTrip. -/
theorem witness_EncBytesOutcomes_EnvelopeRoundTrip :
    (st cfgA (some []) (some []) none).block.A = some [] ∧ (st cfgA (some []) (some []) none).block.B = some [] ∧
    ((st cfgA (some []) (some []) none).withSchedule [.answer (.bytes S0), .answer (.bytes IV2)]).schedule =
      .answer (.bytes S0) :: .answer (.bytes IV2) :: [] ∧ S0.length = 32 ∧ IV2.length = 16 ∧
    ((st cfgA (some []) (some []) none).withSchedule [.answer .unavailable]).schedule = .answer .unavailable :: [] ∧
    ((st cfgA (some []) (some []) none).withSchedule [.answer (.bytes S0), .answer .unavailable]).schedule =
      .answer (.bytes S0) :: .answer .unavailable :: [] := by decide +kernel

theorem witness_EncBytesOutcomes_pending :
    ((st cfgA (some []) (some []) none).withSchedule [.answer (.bytes S0)]).schedule = .answer (.bytes S0) :: [] ∧
    (∀ a rest, ([] : List Move) ≠ .answer a :: rest) ∧
    (∀ a rest, (st cfgA (some []) (some []) none).schedule ≠ .answer a :: rest) := ⟨rfl, nofun, nofun⟩

theorem witness_DecBytesOutcomes :
    (st cfgA (some (bytesOf 64 0)) (some []) none).block.A = some (bytesOf 64 0) ∧
    (st cfgA (some (bytesOf 64 0)) (some []) none).block.B = some [] ∧
    ((bytesOf 63 0).length < 64 ∨ (bytesOf 63 0).length % 16 ≠ 0) ∧
    (64 ≤ (bytesOf 64 0).length ∧ (bytesOf 64 0).length % 16 = 0) := by decide +kernel

theorem witness_EnvelopeLength :
    (st cfgA (some (bytesOf 15 0)) (some []) none).block.A = some (bytesOf 15 0) ∧
    (st cfgA (some (bytesOf 15 0)) (some []) none).block.B = some [] ∧
    ((st cfgA (some (bytesOf 15 0)) (some []) none).withSchedule [.answer (.bytes S0), .answer (.bytes IV2)]).schedule =
      .answer (.bytes S0) :: .answer (.bytes IV2) :: [] ∧
    S0.length = 32 ∧ IV2.length = 16 ∧ (bytesOf 15 0).length ≤ 15 ∧
    (stWait (.encSalt (bytesOf 15 0) [])).block.pending = some (.encSalt (bytesOf 15 0) []) ∧
    (stWait (.encIv (bytesOf 15 0) [] S0)).block.pending = some (.encIv (bytesOf 15 0) [] S0) := by decide +kernel

theorem witness_RegisterWindowReads :
    (0x00 % 4 = 0 ∧ 0x04 % 4 = 0 ∧ 0x10 % 4 = 0 ∧ 0x14 % 4 = 0) ∧
    (stScript [.act (.rd .r1)]).block.pending = none ∧
    (stScript [.act (.rd .r1)]).host.fetch = some (.act (.rd .r1)) := ⟨by decide, rfl, rfl⟩

theorem witness_RegisterWindowWrites :
    (st cfgA none none none).host.awaiting = false ∧ (st cfgA none none none).block.pending = none ∧
    (0x14 % 4 = 0 ∧ 0x14 ≠ 0) ∧ (16 ≠ 32 ∨ 0 % 4 ≠ 0) ∧ (32 ≠ 32 ∨ 2 % 4 ≠ 0) := by decide

theorem witness_HostSlotWrite :
    (st cfgA none none none).block.pending = none ∧ (st cfgA none none none).host.awaiting = false ∧
    (bytesOf 1024 0).length ≤ (st cfgA none none none).cfg.maxOperandLen ∧
    (st cfgA none none none).cfg.maxOperandLen < (bytesOf 1025 0).length := by decide +kernel

theorem witness_HostSlotWrite_script :
    (stScript [.act (.wr .b [7])]).block.pending = none ∧ (stScript [.act (.wr .b [7])]).host.awaiting = false ∧
    (stScript [.act (.wr .b [7])]).host.fetch = some (.act (.wr .b [7])) := ⟨rfl, rfl, rfl⟩

theorem witness_ResetMove_script :
    (stScript [.act .reset]).block.pending = none ∧ (stScript [.act .reset]).host.fetch = some (.act .reset) :=
  ⟨rfl, rfl⟩

theorem witness_FaultIsSticky_HaltedCoreIsFrozen :
    ∃ t, stHalted.block.FAULT ≠ 0#32 ∧ stHalted.block.pending = none ∧
      step (stHalted.withSchedule [.host (.cmd 1#32)]) = .next t ∧
      (stHalted.withSchedule [.host (.cmd 1#32)]).nextIsReset = false := ⟨_, by decide, rfl, rfl, by decide⟩

theorem witness_HaltedCoreIsFrozen_script :
    (stHalted.loadScript [.act (.cmd 1#32)]).block.FAULT ≠ 0#32 ∧
    (stHalted.loadScript [.act (.cmd 1#32)]).block.pending = none ∧
    (stHalted.loadScript [.act (.cmd 1#32)]).host.fetch = some (.act (.cmd 1#32)) := ⟨by decide, rfl, rfl⟩

/-- A script whose first statement is the one each clause of ScriptControl names, and an empty one. -/
theorem witness_ScriptControl :
    (stScript [.halt]).schedule = [] ∧ (stScript [.halt]).block.pending = none ∧
    (stScript [.jnzStatus 5]).host.fetch = some (.jnzStatus 5) ∧ (stScript [.jmp 5]).host.fetch = some (.jmp 5) ∧
    (stScript [.halt]).host.fetch = some .halt ∧ (stScript [.movr .a .r0]).host.fetch = some (.movr .a .r0) ∧
    (stScript [.movr .a .r0]).block.result .r0 = none ∧ (stScript []).host.fetch = none :=
  ⟨rfl, rfl, rfl, rfl, rfl, rfl, rfl, rfl⟩

/-- The clause of ScriptControl in which MOVR copies, at the greatest length. -/
theorem witness_ScriptControl_copy :
    ∃ s : State, s.schedule = [] ∧ s.block.pending = none ∧ s.host.fetch = some (.movr .b .r1) ∧
      s.block.result .r1 = some (bytesOf 1024 0) ∧ (bytesOf 1024 0).length ≤ s.cfg.maxOperandLen :=
  ⟨(stScript [.movr .b .r1]).afterOk (some []) (some (bytesOf 1024 0)), rfl, rfl, rfl, rfl, by decide +kernel⟩

theorem witness_Sha256PseudoCommand :
    (st cfgA none none none).Ready ∧ (st cfgA none none none).schedule = [] ∧
    1 < (st cfgA none none none).cfg.hashCtxCount ∧
    (st cfgA none none none).block.ctx.length = (st cfgA none none none).cfg.hashCtxCount ∧
    (bytesOf 1024 0).length ≤ (st cfgA none none none).cfg.maxOperandLen :=
  ⟨⟨rfl, rfl⟩, rfl, by decide, rfl, by decide +kernel⟩

theorem witness_ConfigurationsAdmittedExactly :
    ∃ cfg, Config.accept (rawA 1 2 false true false) = some cfg ∧ cfg.toRawConfig = rawA 1 2 false true false :=
  ⟨cfgA, by simp [Config.accept, rawA_ok, cfgA], rfl⟩

theorem witness_ConfigurationIsFixed : ∃ t, step (st cfgA none none none) = .next t := ⟨_, rfl⟩

/-- A state with the invariant whose step answers next: an Active context, a written slot, results of both kinds. -/
theorem witness_StepKeepsInvariant :
    ∃ s t : State, s.Inv ∧ step s = .next t ∧ s.block.ctx.any (fun x => x.phase == .active) = true := by
  refine ⟨(stCtx (HashCtx.init HashCtx.reset) (some [1])).afterOk (some []) (some []), _, ?_, rfl, by decide⟩
  refine ⟨by decide, by decide, rfl, ?_, ?_, fun _ => rfl, nofun, nofun⟩
  · intro x hx hp
    rcases List.mem_cons.1 hx with rfl | hx
    · exact witness_Absorbed
    · rcases List.mem_cons.1 hx with rfl | hx
      · cases hp
      · cases hx
  · intro x v hv
    cases x with
    | a => cases hv; decide
    | b => cases hv
    | c => cases hv

end Sys2Proof.Tests
end

section
/-! A table without repetitions is a bijection, and a configuration is accepted exactly when it is admissible (rules R5,
R6, R170, R172). -/

namespace Sys2Proof

/-- A table of n entries, over a type of n elements, that repeats no entry takes every value exactly once. -/
theorem toList_nodup_iff_bijective {α : Type} {n : Nat} (e : Fin n ≃ α) (v : Vector α n) :
    v.toList.Nodup ↔ Function.Bijective fun i : Fin n => v[i] := by
  have hv : v.toList = List.ofFn fun i : Fin n => v[i] := List.ext_getElem (by simp) (by simp)
  have hsurj : Function.Injective (fun i : Fin n => v[i]) ↔ Function.Surjective fun i : Fin n => v[i] :=
    Finite.injective_iff_surjective_of_equiv e
  rw [hv, List.nodup_ofFn, Function.Bijective, ← hsurj, and_self]

theorem RawConfig.sboxBijective_iff (r : RawConfig) :
    r.SboxBijective ↔ Function.Bijective fun x : Fin 256 => r.sbox[x] :=
  toList_nodup_iff_bijective (BitVec.equivFin (m := 8)).symm.toEquiv r.sbox

theorem RawConfig.pboxBijective_iff (r : RawConfig) :
    r.PboxBijective ↔ Function.Bijective fun p : Fin 128 => r.pbox[p] :=
  toList_nodup_iff_bijective (Equiv.refl _) r.pbox

/-- Admission hands back the parameters unchanged, and only admissible ones. -/
theorem Config.accept_iff (r : RawConfig) :
    (∃ cfg, Config.accept r = some cfg ∧ cfg.toRawConfig = r) ↔ r.Admissible := by
  rw [← RawConfig.admissible_iff]
  constructor
  · rintro ⟨cfg, -, rfl⟩
    exact cfg.ok
  · intro h
    exact ⟨⟨r, h⟩, dif_pos h, rfl⟩

/-- Settles O57: acceptance is admissibility, whose two clauses "no entry repeated" are bijectivity on a finite set. -/
theorem configurationsAdmittedExactly : Obligations.ConfigurationsAdmittedExactly := by
  intro r
  rw [Config.accept_iff, ← RawConfig.sboxBijective_iff, ← RawConfig.pboxBijective_iff]
  constructor
  · rintro ⟨hsbox, hpbox, hinvSbox, hinvPbox, hiter, hlow, hhigh, hlen⟩
    exact ⟨hsbox, hpbox, hinvSbox, hinvPbox, hiter, hlow, hhigh, hlen⟩
  · rintro ⟨hsbox, hpbox, hinvSbox, hinvPbox, hiter, hlow, hhigh, hlen⟩
    exact ⟨hsbox, hpbox, hinvSbox, hinvPbox, hiter, hlow, hhigh, hlen⟩

end Sys2Proof
end

section
/-! How a command ends, read off the outcome that `exec_next` gives (rules R12, R306, R307). -/

namespace Sys2Proof.Machine

section Ends
variable (s : State)

theorem State.finish_err (e : Error) : s.finish (.err e) = s.afterError (errorCode e) := rfl

theorem State.finish_fault (k : FaultKind) : s.finish (.fault k) = s.afterFault (faultBit k) := rfl

theorem State.finish_wait (q : EntropyWait) : s.finish (.wait q) = s.nowPending q := rfl

@[simp] theorem State.withSchedule_self : s.withSchedule s.schedule = s := rfl

/-- `finish` touches no move to come: another schedule can be put back after it. -/
theorem State.finish_withSchedule_restore (o : CmdOutcome) (rest : List Move) :
    ((s.withSchedule rest).finish o).withSchedule s.schedule = s.finish o := rfl

end Ends

/-- An error of the core has a code of rule R300 other than IoFailure's (rule R303). -/
theorem errorCode_mem {e : Error} (h : e ≠ .ioFailure) : errorCode e ∈ [1#32, 2#32, 3#32] := by
  cases e with
  | ioFailure => exact absurd rfl h
  | invalidLength => simp [errorCode]
  | invalidPadding => simp [errorCode]
  | entropyUnavailable => simp [errorCode]

/-- Settles O8: a next state of `exec` is `finish` of an outcome, and each kind of outcome is one of the four ways. -/
theorem commandEndsOneWay : Obligations.CommandEndsOneWay := by
  intro i s t hidle hexec
  obtain ⟨o, rest, rfl, -, -, hio, hrest, -⟩ := exec_next hexec
  cases o with
  | ok r0 r1 => exact .inl ⟨rfl, rfl, hidle⟩
  | okHash c x r0 => exact .inl ⟨rfl, rfl, hidle⟩
  | err e =>
    have hcode : errorCode e ∈ [1#32, 2#32, 3#32] := errorCode_mem fun he => hio (congrArg _ he)
    refine .inr (.inl ⟨errorCode e, hcode, ?_⟩)
    rw [State.finish_withSchedule_restore, State.finish_err]
  | fault k =>
    refine .inr (.inr (.inl ⟨faultBit k, faultBit_lt k, ?_⟩))
    rw [hrest k rfl, State.withSchedule_self, State.finish_fault]
  | wait q =>
    refine .inr (.inr (.inr ⟨q, ?_⟩))
    rw [State.finish_withSchedule_restore, State.finish_wait]

end Sys2Proof.Machine
end

section
/-! What one step is: a move of the script, of the host outside it, or of the oracle (rules R17, R316), with each form
of the schedule stated once. -/

namespace Sys2Proof.Machine

/-- The moves a step to t can have taken: the script's, where it comes next or the schedule is empty, a host action's, or
an answer's. -/
inductive StepShape (s t : State) : Prop
  | script (ms : List Move) (next : s.schedule = [] ∨ s.schedule = .script :: ms)
      (move : scriptMove exec (s.withSchedule ms) = .next t)
  | host (a : HostAction) (rest : List Move) (u : State) (next : s.schedule = .host a :: rest)
      (act : hostAct exec a (s.withSchedule rest) = .next u) (settled : t = u.settle)
  | answer (a : OracleAnswer) (rest : List Move) (u : State) (next : s.schedule = .answer a :: rest)
      (resumes : (s.withSchedule rest).answer a = .next u) (settled : t = u.settle)

theorem step_shape {s t : State} (h : step s = .next t) : StepShape s t := by
  unfold step stepWith at h
  split at h
  · next hs => exact .script [] (.inl hs) (by rwa [← hs])
  · next m rest hs =>
    cases m with
    | script => exact .script rest (.inr hs) h
    | host a =>
      obtain ⟨u, hu, ht⟩ := (mapNext_eq_next _).1 h
      exact .host a rest u hs hu ht
    | answer a =>
      obtain ⟨u, hu, ht⟩ := (mapNext_eq_next _).1 h
      exact .answer a rest u hs hu ht

end Sys2Proof.Machine
end

section
/-! What the outcome of a command does to the invariant (rules R33, R42, R303, R305), said once for every command. -/

namespace Sys2Proof.Machine

/-! ## Contexts (rules R42, R115) -/

/-- Rule R42 for one context: while it is Active, it holds the state of the bytes it has absorbed. -/
def HashCtx.KeepsHistory (x : HashCtx) : Prop := x.phase = .active → x.Absorbed x.message

theorem HashCtx.init_keepsHistory (x : HashCtx) : x.init.KeepsHistory := fun _ => x.init_absorbed

theorem HashCtx.finalize_keepsHistory (x : HashCtx) : x.finalize.KeepsHistory := nofun

/-- Bytes absorbed below the bound of rule R112 extend the history. -/
theorem HashCtx.Absorbed.update {x : HashCtx} {m : ByteString} (h : x.Absorbed m) (data : ByteString)
    (hbound : x.BITLEN.toNat + 8 * data.length ≤ 2 ^ 64 - 1) : (x.update data).Absorbed (m ++ data) := by
  obtain ⟨hlen, hchain, hbuf⟩ := h.holds.absorbAll data
  have hholds : (x.update data).Holds (m ++ data) := ⟨hlen, hchain, hbuf⟩
  have hmessage : (x.update data).message = m ++ data := by rw [HashCtx.update_message, h.message]
  have hbits : (x.update data).BITLEN.toNat = 8 * (m ++ data).length := by
    show (x.BITLEN + BitVec.ofNat 64 (8 * data.length)).toNat = _
    rw [BitVec.toNat_add, BitVec.toNat_ofNat, List.length_append, h.bitLen]
    rw [h.bitLen] at hbound
    omega
  rw [← hmessage] at hholds hbits ⊢
  exact hholds.absorbed hbits

/-! ## The faults of the counter mode (rule R208) -/

theorem counterBlock_error {cfg : Config} {nonce : ByteString} {ctr0 j : Nat} {k : FaultKind}
    (h : counterBlock cfg nonce ctr0 j = .error k) : k = .counterOverflow j := by
  unfold counterBlock at h
  split at h <;> cases h
  rfl

theorem ctrBlocks_error {cfg : Config} {K nonce : ByteString} {ctr0 n j : Nat} {d : ByteString} {k : FaultKind}
    (h : ctrBlocks cfg K nonce ctr0 n j d = .error k) : ∃ j', k = .counterOverflow j' := by
  induction n generalizing j d with
  | zero => cases h
  | succ n ih =>
    rw [ctrBlocks] at h
    split at h
    · next hk => cases h; exact ⟨j, counterBlock_error hk⟩
    · split at h
      · next hk => cases h; exact ih hk
      · cases h

theorem ctrXcrypt_error {cfg : Config} {K IV D : ByteString} {k : FaultKind} (h : ctrXcrypt cfg K IV D = .error k) :
    ∃ j, k = .counterOverflow j := by
  simp only [ctrXcrypt] at h
  split at h
  · cases h
  · split at h
    · next hk => cases h; exact ⟨_, counterBlock_error hk⟩
    · exact ctrBlocks_error h

/-! ## Outcomes that keep the invariant -/

/-- The outcome writes nothing that the invariant excludes: R1 only beside R0, a context with its history, no IoFailure
and no InternalInvariant (rules R33, R42, R303, R305). -/
def CmdOutcome.KeepsInv : CmdOutcome → Prop
  | .ok r0 r1 => r1.isSome = true → r0.isSome = true
  | .okHash _ x _ => x.KeepsHistory
  | .err e => e ≠ .ioFailure
  | .fault k => ∀ c, k ≠ .internalInvariant c
  | .wait _ => True

theorem keepsInv_ok (v : ByteString) (r1 : Option ByteString) : (CmdOutcome.ok (some v) r1).KeepsInv := fun _ => rfl

section Operands
variable {b : Block} {x : Slot} {k : ByteString → CmdOutcome}

theorem keepsInv_operand {len : Option Nat} (h : ∀ v, (k v).KeepsInv) : (withOperand b x len k).KeepsInv := by
  rcases withOperand_cases b x len k with ⟨f, hf, e⟩ | ⟨v, _, _, e⟩ <;> rw [e]
  · unfold operandFault at hf
    split at hf
    · cases hf; exact nofun
    · split at hf
      · cases hf
      · split at hf <;> cases hf
        exact nofun
  · exact h v

theorem keepsInv_any (h : ∀ v, (k v).KeepsInv) : (withAny b x k).KeepsInv := keepsInv_operand h

theorem keepsInv_fixed {n : Nat} (h : ∀ v, (k v).KeepsInv) : (withFixed b x n k).KeepsInv := keepsInv_operand h

theorem keepsInv_mode {k : ByteString → ByteString → ByteString → CmdOutcome} (h : ∀ u v w, (k u v w).KeepsInv) :
    (withModeOperands b k).KeepsInv :=
  keepsInv_fixed fun u => keepsInv_fixed fun v => keepsInv_any fun w => h u v w

theorem keepsInv_count {cfg : Config} {count : ByteString} {k : Nat → CmdOutcome} (h : ∀ n, (k n).KeepsInv) :
    (withCount cfg x count k).KeepsInv := by
  unfold withCount
  split
  · exact nofun
  · exact h _

theorem keepsInv_ctx {i : Instr} {c : Nat} {k : HashCtx → CmdOutcome} (h : ∀ x ∈ b.ctx, (k x).KeepsInv) :
    (withCtx b i c k).KeepsInv := by
  unfold withCtx
  split
  · exact nofun
  · next x hx => exact h x (List.mem_of_getElem? hx)

end Operands

theorem keepsInv_okOrErr {r : Except Error ByteString}
    (h : ∀ e, r = .error e → e = .invalidPadding ∨ e = .invalidLength) : (okOrErr r).KeepsInv := by
  cases r with
  | ok p => exact keepsInv_ok p none
  | error e => exact fun he => (plain_okOrErr h).noIo (congrArg _ he)

theorem keepsInv_okOrFault {r : Except FaultKind ByteString}
    (h : ∀ k, r = .error k → ∃ j, k = .counterOverflow j) : (okOrFault r).KeepsInv := by
  cases r with
  | ok p => exact keepsInv_ok p none
  | error k =>
    obtain ⟨j, rfl⟩ := h k rfl
    exact nofun

/-- A context with its history passes the test of rule R42, and HASH.UPDATE extends the history (rule R115). -/
theorem keepsInv_update (c : Nat) {x : HashCtx} (hx : x.KeepsHistory) (data : ByteString) :
    (performHashUpdate c x data).KeepsInv := by
  unfold performHashUpdate
  split
  · exact nofun
  · next hactive =>
    have habs : x.Absorbed x.message := hx (not_not.1 hactive)
    split
    · exact nofun
    · next hbound =>
      rw [habs.consistent]
      exact fun _ => habs.update data (Nat.not_lt.1 hbound)

theorem keepsInv_final (c : Nat) {x : HashCtx} (hx : x.KeepsHistory) : (performHashFinal c x).KeepsInv := by
  unfold performHashFinal
  split
  · exact nofun
  · next hactive =>
    rw [(hx (not_not.1 hactive)).consistent]
    exact x.finalize_keepsHistory

/-! ## Every command -/

/-- A next state of r is `finish` of an outcome that keeps the invariant, with other moves to come at most. -/
def EndsKeepingInv (s : State) (r : Result) : Prop :=
  ∀ t, r = .next t → ∃ o rest, t = (s.withSchedule rest).finish o ∧ o.KeepsInv

section Ends
variable {s : State} {o : CmdOutcome}

theorem endsKeepingInv_finish (h : o.KeepsInv) : EndsKeepingInv s (.next (s.finish o)) := by
  rintro t ⟨⟩
  exact ⟨o, s.schedule, rfl, h⟩

/-- A draw ends with results, EntropyUnavailable or a wait (rules R240, R304). -/
theorem runDraw_keepsInv {cfg : Config} {q : EntropyWait} {ms rest : List Move}
    (h : runDraw cfg q ms = .done o rest) : o.KeepsInv := by
  rcases runDraw_done h with ⟨v, rfl⟩ | rfl | ⟨q', rfl⟩
  · exact keepsInv_ok v none
  · exact nofun
  · trivial

theorem endsKeepingInv_finishOrDraw (h : o.KeepsInv) : EndsKeepingInv s (s.finishOrDraw o) := by
  cases o with
  | wait q =>
    intro t ht
    obtain ⟨o, rest, hdraw, rfl⟩ := State.draw_next ht
    exact ⟨o, rest, rfl, runDraw_keepsInv hdraw⟩
  | ok r0 r1 => exact endsKeepingInv_finish h
  | okHash c x r0 => exact endsKeepingInv_finish h
  | err e => exact endsKeepingInv_finish h
  | fault k => exact endsKeepingInv_finish h

/-- Every command, from contexts with their histories, ends with an outcome that keeps the invariant. -/
theorem exec_endsKeepingInv (i : Instr) (hist : ∀ x ∈ s.block.ctx, x.KeepsHistory) : EndsKeepingInv s (exec i s) := by
  cases i with
  | hashInit c => exact endsKeepingInv_finish (keepsInv_ctx fun x _ => x.init_keepsHistory)
  | hashUpdate c =>
    exact endsKeepingInv_finish (keepsInv_ctx fun x hx => keepsInv_any fun data => keepsInv_update c (hist x hx) data)
  | hashFinal c => exact endsKeepingInv_finish (keepsInv_ctx fun x hx => keepsInv_final c (hist x hx))
  | hmac => exact endsKeepingInv_finish (keepsInv_any fun _ => keepsInv_any fun _ => keepsInv_ok _ _)
  | kdf => exact endsKeepingInv_finish (keepsInv_any fun _ => keepsInv_any fun _ => keepsInv_ok _ _)
  | blkEnc => exact endsKeepingInv_finish (keepsInv_fixed fun _ => keepsInv_fixed fun _ => keepsInv_ok _ _)
  | blkDec => exact endsKeepingInv_finish (keepsInv_fixed fun _ => keepsInv_fixed fun _ => keepsInv_ok _ _)
  | cbcEnc => exact endsKeepingInv_finish (keepsInv_mode fun _ _ _ => keepsInv_ok _ _)
  | cbcDec =>
    exact endsKeepingInv_finish (keepsInv_mode fun _ _ _ => keepsInv_okOrErr fun _ h => cbcDecrypt_error h)
  | ctrEnc =>
    exact endsKeepingInv_finish (keepsInv_mode fun _ _ _ => keepsInv_okOrFault fun _ h => ctrXcrypt_error h)
  | ctrDec =>
    refine endsKeepingInv_finish (keepsInv_mode fun _ _ _ => ?_)
    split
    · exact nofun
    · exact keepsInv_okOrFault fun _ h => ctrXcrypt_error h
  | envPack => exact endsKeepingInv_finish (keepsInv_fixed fun _ => keepsInv_fixed fun _ => keepsInv_ok _ _)
  | envUnpack =>
    refine endsKeepingInv_finish (keepsInv_any fun header => ?_)
    unfold envUnpack
    split
    · next e =>
      split at e <;> cases e
      exact keepsInv_ok _ _
    · next e =>
      split at e <;> cases e
      exact nofun
  | rngFill =>
    refine endsKeepingInv_finishOrDraw (keepsInv_fixed fun _ => keepsInv_count fun n => ?_)
    split
    · exact keepsInv_ok _ _
    · trivial
  | chaosFill =>
    refine endsKeepingInv_finish (keepsInv_any fun _ => keepsInv_fixed fun _ => ?_)
    split
    · exact nofun
    · exact keepsInv_count fun _ => keepsInv_ok _ _
  | encBytes => exact endsKeepingInv_finishOrDraw (keepsInv_any fun _ => keepsInv_any fun _ => trivial)
  | decBytes =>
    exact endsKeepingInv_finish (keepsInv_any fun _ => keepsInv_any fun _ =>
      keepsInv_okOrErr fun _ h => decryptEnvelope_error h)

end Ends

end Sys2Proof.Machine
end

section
/-! The invariant of the block is kept by every move, and that of the script by every step (rules R30, R42, R316). -/

namespace Sys2Proof.Machine

/-! ## The block -/

/-- The clauses of `State.Inv` that speak of the block. -/
structure Block.Inv (cfg : Config) (b : Block) : Prop where
  status : b.STATUS.toNat ≤ 3
  fault : b.FAULT.toNat < 2 ^ 7
  contexts : b.ctx.length = cfg.hashCtxCount
  history : ∀ x ∈ b.ctx, x.KeepsHistory
  operands : ∀ x v, b.slot x = some v → v.length ≤ cfg.maxOperandLen
  results : b.R1.isSome = true → b.R0.isSome = true
  haltedIdle : b.pending.isSome = true → b.FAULT = 0#32

/-- The invariant is that of the block, and that a script waits only for a pending command. -/
theorem State.inv_iff {s : State} :
    s.Inv ↔ s.block.Inv s.cfg ∧ (s.host.awaiting = true → s.block.pending.isSome = true) := by
  constructor
  · rintro ⟨hstatus, hfault, hctx, hhist, hops, hres, hidle, hwait⟩
    exact ⟨⟨hstatus, hfault, hctx, hhist, hops, hres, hidle⟩, hwait⟩
  · rintro ⟨⟨hstatus, hfault, hctx, hhist, hops, hres, hidle⟩, hwait⟩
    exact ⟨hstatus, hfault, hctx, hhist, hops, hres, hidle, hwait⟩

theorem errorCode_le {e : Error} (h : e ≠ .ioFailure) : (errorCode e).toNat ≤ 3 := by
  have hmem := errorCode_mem h
  simp only [List.mem_cons, List.not_mem_nil, or_false] at hmem
  rcases hmem with hcode | hcode | hcode <;> rw [hcode] <;> decide

/-- Every fault but InternalInvariant has its bit below bit 7 (rule R305). -/
theorem faultBit_lt_seven {k : FaultKind} (h : ∀ c, k ≠ .internalInvariant c) : faultBit k < 7 := by
  cases k with
  | internalInvariant c => exact absurd rfl (h c)
  | illegalCommand w => show 0 < 7; decide
  | operandShape x n => show 1 < 7; decide
  | readUnwritten x => show 2 < 7; decide
  | hashCtxState c => show 3 < 7; decide
  | lengthOverflow c => show 4 < 7; decide
  | counterOverflow j => show 5 < 7; decide
  | refused i => show 6 < 7; decide

namespace Block.Inv
variable {cfg : Config} {b : Block}

/-- A command that is over, or waits, leaves a block that was not halted and had nothing pending with its invariant. -/
theorem finish (h : b.Inv cfg) (hrun : b.FAULT = 0#32) (hidle : b.pending = none) {o : CmdOutcome} (ho : o.KeepsInv) :
    (b.finish o).Inv cfg := by
  have hnot : b.pending.isSome = true → (b.finish o).FAULT = 0#32 := by simp [hidle]
  have hops : ∀ x v, (b.finish o).slot x = some v → v.length ≤ cfg.maxOperandLen := by simpa using h.operands
  obtain ⟨hstatus, hfault, hctx, hhist, -, hres, -⟩ := h
  cases o with
  | ok r0 r1 => exact ⟨Nat.zero_le _, hfault, hctx, hhist, hops, ho, hnot⟩
  | okHash c x r0 =>
    refine ⟨Nat.zero_le _, hfault, by simpa using hctx, fun y hy => ?_, hops, nofun, hnot⟩
    rcases List.mem_or_eq_of_mem_set hy with hy | rfl
    · exact hhist y hy
    · exact ho
  | err e => exact ⟨errorCode_le ho, hfault, hctx, hhist, hops, nofun, hnot⟩
  | fault k => exact ⟨hstatus, setFault_lt _ k hfault (faultBit_lt_seven ho), hctx, hhist, hops, nofun, hnot⟩
  | wait q => exact ⟨hstatus, hfault, hctx, hhist, hops, hres, fun _ => hrun⟩

theorem setSlot (h : b.Inv cfg) (x : Slot) {v : ByteString} (hv : v.length ≤ cfg.maxOperandLen) :
    (b.setSlot x v).Inv cfg := by
  have hops : ∀ y w, (b.setSlot x v).slot y = some w → w.length ≤ cfg.maxOperandLen := by
    intro y w hw
    by_cases hyx : y = x
    · subst hyx
      rw [Block.setSlot_slot_same] at hw
      cases hw
      exact hv
    · rw [Block.setSlot_slot_other b x v hyx] at hw
      exact h.operands y w hw
  obtain ⟨hstatus, hfault, hctx, hhist, -, hres, hidle⟩ := h
  exact ⟨by simpa, by simpa, by simpa, by simpa, hops, by simpa, by simpa⟩

/-- Nothing pending is always allowed. -/
theorem noPending (h : b.Inv cfg) : Block.Inv cfg { b with pending := none } := by
  obtain ⟨hstatus, hfault, hctx, hhist, hops, hres, -⟩ := h
  exact ⟨hstatus, hfault, hctx, hhist, fun x v hv => hops x v (by cases x <;> exact hv), hres, nofun⟩

theorem reset (cfg : Config) : (Block.reset cfg.hashCtxCount).Inv cfg := by
  refine ⟨Nat.zero_le _, Nat.two_pow_pos 7, List.length_replicate, fun x hx => ?_, ?_, nofun, nofun⟩
  · rw [List.eq_of_mem_replicate hx]
    exact nofun
  · rintro (_ | _ | _) v ⟨⟩

/-- Every move of `BlockMove` keeps the block's invariant. -/
theorem blockMove {s : State} (h : s.block.Inv s.cfg) (hm : BlockMove s b) : b.Inv s.cfg := by
  cases hm with
  | same hb => exact hb ▸ h
  | slot x v _ hlen hb => exact hb ▸ h.setSlot x hlen
  | cmd i u t hready _ hblock _ hruns hb =>
    obtain ⟨o, rest, rfl, ho⟩ := exec_endsKeepingInv i (hblock ▸ h.history) t hruns
    have hkept : (s.block.finish o).Inv s.cfg := h.finish hready.notHalted hready.notPending ho
    rw [hb, State.finish_block]
    exact hblock ▸ hkept
  | illegal w hready hb => exact hb ▸ h.finish hready.notHalted hready.notPending (o := .fault _) nofun
  | answer q o ms rest hpending hdraw hb =>
    have hrun : s.block.FAULT = 0#32 := h.haltedIdle (by simp [hpending])
    exact hb ▸ h.noPending.finish hrun rfl (runDraw_keepsInv hdraw)
  | reset hb => exact hb ▸ reset s.cfg

end Block.Inv

/-! ## The script -/

/-- After a statement the script waits for the command pending, or as it did before. -/
theorem State.afterStatement_awaiting (s : State) :
    s.afterStatement.host.awaiting = (s.block.pending.isSome || s.host.awaiting) := by
  unfold State.afterStatement
  split
  · next hp => rw [hp]; rfl
  · next hp => rw [Bool.eq_false_of_not_eq_true hp]; rfl

/-- A statement makes a script wait only for a command that is pending. -/
theorem runStmt_awaiting {a : Stmt} {s t : State} (h : runStmt exec a s = .next t) (hs : s.host.awaiting = false)
    (ht : t.host.awaiting = true) : t.block.pending.isSome = true := by
  cases a with
  | act a =>
    simp only [runStmt, mapNext_eq_next] at h
    obtain ⟨u, hu, rfl⟩ := h
    obtain ⟨-, hawait, -⟩ := hostAct_next hu
    rw [State.afterStatement_awaiting, hawait, hs, Bool.or_false] at ht
    rwa [State.afterStatement_block]
  | movr dst src =>
    simp only [runStmt, runMovr] at h
    split at h
    · cases h
      simp [hs] at ht
    · rw [mapNext_eq_next] at h
      obtain ⟨u, hu, rfl⟩ := h
      obtain ⟨-, hhost, -⟩ := writeSlot_next hu
      simp [hhost, hs] at ht
  | jnzStatus l =>
    simp only [runStmt] at h
    cases h
    split at ht <;> simp [hs] at ht
  | jmp l => cases h; simp [hs] at ht
  | halt => cases h; simp [hs] at ht

theorem scriptMove_awaiting {s t : State} (h : scriptMove exec s = .next t)
    (hs : s.host.awaiting = true → s.block.pending.isSome = true) (ht : t.host.awaiting = true) :
    t.block.pending.isSome = true := by
  unfold scriptMove at h
  split at h
  · next hp => cases h; exact hp
  · next hp =>
    split at h
    · cases h; exact absurd (hs ht) hp
    · exact runStmt_awaiting h (Bool.eq_false_of_not_eq_true fun hw => hp (hs hw)) ht

/-- A step keeps the configuration (rule R342). -/
theorem step_cfg {s t : State} (h : step s = .next t) : t.cfg = s.cfg := by
  cases step_shape h with
  | script ms _ hmove => exact (scriptMove_next hmove).1
  | host a rest u _ hact ht => rw [ht, State.settle_cfg]; exact (hostAct_next hact).1
  | answer a rest u _ hans ht => rw [ht, State.settle_cfg]; exact (answer_next hans).1

theorem step_awaiting {s t : State} (h : step s = .next t)
    (hs : s.host.awaiting = true → s.block.pending.isSome = true) (ht : t.host.awaiting = true) :
    t.block.pending.isSome = true := by
  cases step_shape h with
  | script ms _ hmove => exact scriptMove_awaiting hmove hs ht
  | host a rest u _ _ hu => subst hu; exact u.settle_awaiting ht
  | answer a rest u _ _ hu => subst hu; exact u.settle_awaiting ht

/-- Settles O59: the block's clauses are kept by each case of `BlockMove`, and the script's clause by each move. -/
theorem stepKeepsInvariant : Obligations.StepKeepsInvariant := by
  intro s t hinv hstep
  obtain ⟨hblock, hwait⟩ := State.inv_iff.1 hinv
  have hblock' : t.block.Inv s.cfg := hblock.blockMove (step_blockMove hstep)
  exact State.inv_iff.2 ⟨step_cfg hstep ▸ hblock', step_awaiting hstep hwait⟩

end Sys2Proof.Machine
end

section
/-! What a command leaves alone, and that every move but RESET keeps the bits of FAULT (rules R32, R36, R89). -/

namespace Sys2Proof.Machine

theorem Block.finish_ctx_length (b : Block) (o : CmdOutcome) : (b.finish o).ctx.length = b.ctx.length := by
  rcases b.finish_ctx o with h | ⟨c, x, r0, -, h⟩
  · rw [h]
  · rw [h, List.length_set]

/-- Settles O12: a next state of `exec` is `finish` of an outcome, which writes the command's own context at most. -/
theorem commandFrame : Obligations.CommandFrame := by
  intro i s t hexec
  obtain ⟨o, rest, rfl, hanswers, hown, -, -, hrest⟩ := exec_next hexec
  have hctx : ∀ c, i.ctxIndex ≠ some c → (s.block.finish o).ctx[c]? = s.block.ctx[c]? := by
    intro c hc
    rcases s.block.finish_ctx o with h | ⟨c', x, r0, ho, h⟩
    · rw [h]
    · have hne : c' ≠ c := fun he => hc (he ▸ hown c' x r0 ho)
      rw [h, List.getElem?_set_ne hne]
  exact ⟨rfl, s.block.finish_A o, s.block.finish_B o, s.block.finish_C o, rfl, s.block.finish_ctx_length o, hctx,
    hanswers, fun hrng henc => (hrest hrng henc).1⟩

/-! ## FAULT is sticky (rule R36) -/

/-- Every bit of FAULT set in b is set in b'. -/
def Block.FaultKept (b b' : Block) : Prop := b'.FAULT &&& b.FAULT = b.FAULT

theorem Block.faultKept_of_eq {b b' : Block} (h : b'.FAULT = b.FAULT) : b.FaultKept b' := by
  rw [Block.FaultKept, h, BitVec.and_self]

/-- A fault adds its bit to the bits of FAULT (rule R307). -/
theorem setFault_and (f : Word) (k : FaultKind) : setFault f k &&& f = f := by
  ext j hj
  simp only [setFault, BitVec.getElem_and, BitVec.getElem_or]
  cases f[j] <;> simp

theorem Block.finish_faultKept (b : Block) (o : CmdOutcome) : b.FaultKept (b.finish o) := by
  rcases b.finish_FAULT o with h | ⟨k, -, h⟩
  · exact Block.faultKept_of_eq h
  · rw [Block.FaultKept, h, setFault_and]

theorem issueCommand_faultKept {w : Word} {s t : State} (h : issueCommand exec w s = .next t) :
    s.block.FaultKept t.block := by
  unfold issueCommand at h
  split at h
  · cases h; exact Block.faultKept_of_eq rfl
  · split at h
    · cases h
    · split at h
      · cases h; exact s.block.finish_faultKept _
      · obtain ⟨o, rest, rfl, -⟩ := exec_next h
        exact s.block.finish_faultKept o

theorem writeSlot_faultKept {x : Slot} {v : ByteString} {s t : State} (h : writeSlot x v s = .next t) :
    s.block.FaultKept t.block := by
  unfold writeSlot at h
  split at h
  · cases h
  · split at h
    · cases h
    · cases h; exact Block.faultKept_of_eq (by simp)

theorem hostAct_faultKept {a : HostAction} {s t : State} (h : hostAct exec a s = .next t) (ha : a ≠ .reset) :
    s.block.FaultKept t.block := by
  cases a with
  | wr x v => exact writeSlot_faultKept h
  | rd r => cases h; exact Block.faultKept_of_eq rfl
  | rdReg r => cases h; exact Block.faultKept_of_eq rfl
  | cmd w => exact issueCommand_faultKept h
  | reset => exact absurd rfl ha
  | busRead addr width =>
    simp only [hostAct, busRead] at h
    split at h <;> cases h
    exact Block.faultKept_of_eq rfl
  | busWrite addr width v =>
    simp only [hostAct, busWrite] at h
    split at h
    · cases h
    · split at h
      · exact issueCommand_faultKept h
      · split at h <;> cases h
        exact Block.faultKept_of_eq rfl

theorem runStmt_faultKept {a : Stmt} {s t : State} (h : runStmt exec a s = .next t) (ha : a ≠ .act .reset) :
    s.block.FaultKept t.block := by
  cases a with
  | act a =>
    obtain ⟨u, hu, rfl⟩ := (mapNext_eq_next _).1 h
    rw [State.afterStatement_block]
    exact hostAct_faultKept hu fun he => ha (congrArg _ he)
  | movr dst src =>
    simp only [runStmt, runMovr] at h
    split at h
    · cases h; exact Block.faultKept_of_eq rfl
    · obtain ⟨u, hu, rfl⟩ := (mapNext_eq_next _).1 h
      rw [State.advance_block]
      exact writeSlot_faultKept (s := s.noteRead _) hu
  | jnzStatus l => cases h; split <;> exact Block.faultKept_of_eq rfl
  | jmp l => cases h; exact Block.faultKept_of_eq rfl
  | halt => cases h; exact Block.faultKept_of_eq rfl

theorem scriptMove_faultKept {s t : State} (h : scriptMove exec s = .next t) (hs : s.host.fetch ≠ some (.act .reset)) :
    s.block.FaultKept t.block := by
  unfold scriptMove at h
  split at h
  · cases h; exact Block.faultKept_of_eq rfl
  · split at h
    · cases h; exact Block.faultKept_of_eq rfl
    · next a ha => exact runStmt_faultKept h fun he => hs (ha.trans (congrArg _ he))

theorem answer_faultKept {a : OracleAnswer} {s t : State} (h : s.answer a = .next t) : s.block.FaultKept t.block := by
  unfold State.answer at h
  split at h
  · cases h; exact Block.faultKept_of_eq rfl
  · obtain ⟨o, rest, -, rfl⟩ := State.draw_next h
    exact Block.finish_faultKept _ o

/-- Settles O51: each kind of move but RESET leaves FAULT alone or adds the bit of a fault. -/
theorem faultIsSticky : Obligations.FaultIsSticky := by
  intro s t hstep hreset
  cases step_shape hstep with
  | script ms hnext hmove =>
    refine scriptMove_faultKept (s := s.withSchedule ms) hmove fun (hfetch : s.host.fetch = _) => ?_
    rcases hnext with hnext | hnext <;> simp [State.nextIsReset, hnext, hfetch] at hreset
  | host a rest u hnext hact ht =>
    rw [ht, State.settle_block]
    refine hostAct_faultKept (s := s.withSchedule rest) hact fun ha => ?_
    simp [State.nextIsReset, hnext, ha] at hreset
  | answer a rest u hnext hans ht =>
    rw [ht, State.settle_block]
    exact answer_faultKept (s := s.withSchedule rest) hans

end Sys2Proof.Machine
end

section
/-! The host's reads and slot writes, as its own actions and as statements of its script (rules R32 to R39, R61, R66,
R86, R87). -/

namespace Sys2Proof.Machine

/-! ## A move of the host -/

section Moves
variable {s : State}

theorem step_host (s : State) (a : HostAction) (rest : List Move) : step (s.withSchedule (.host a :: rest)) =
    mapNext State.settle (hostAct exec a (s.withSchedule rest)) := rfl

/-- With the script next, or with no move to come, a step is the script's move. -/
theorem step_script {ms rest : List Move} (h : (ms = [] ∧ rest = []) ∨ ms = .script :: rest) :
    step (s.withSchedule ms) = scriptMove exec (s.withSchedule rest) := by
  rcases h with ⟨rfl, rfl⟩ | rfl <;> rfl

@[simp] theorem State.settle_reads (s : State) : s.settle.host.reads = s.host.reads := by
  unfold State.settle
  split <;> rfl

/-- With nothing pending a statement is over at once (rule R87). -/
theorem State.afterStatement_of_idle (h : s.block.pending = none) : s.afterStatement = s.advance := by
  simp [State.afterStatement, h]

theorem scriptMove_act {a : HostAction} (hidle : s.block.pending = none)
    (hfetch : s.host.fetch = some (.act a)) : scriptMove exec s = mapNext State.afterStatement (hostAct exec a s) := by
  simp [scriptMove, hidle, hfetch, runStmt]

end Moves

/-! ## Reads (rules R33 to R39, R66) -/

/-- The action a reads v: wherever it runs, the host notes v and nothing else happens. -/
def HostAction.Reads (a : HostAction) (s : State) (v : ReadValue) : Prop :=
  ∀ ms, hostAct exec a (s.withSchedule ms) = .next ((s.withSchedule ms).noteRead v)

section Reads
variable {s : State} {a : HostAction} {v : ReadValue}

/-- A read by the host outside its script (rule R316). -/
theorem HostAction.Reads.move (h : a.Reads s v) (rest : List Move) :
    ∃ t, step (s.withSchedule (.host a :: rest)) = .next t ∧ s.HasRead t v := by
  refine ⟨((s.withSchedule rest).noteRead v).settle, ?_, ?_⟩
  · rw [step_host, h rest, mapNext_next]
  · exact ⟨by rw [State.settle_block]; rfl, by rw [State.settle_cfg]; rfl, by rw [State.settle_reads]; rfl⟩

/-- A read by a statement of the script (rules R86, R87). -/
theorem HostAction.Reads.statement (h : a.Reads s v) (hidle : s.block.pending = none)
    (hfetch : s.host.fetch = some (.act a)) (rest : List Move) :
    ∃ t, step (s.withSchedule []) = .next t ∧ step (s.withSchedule (.script :: rest)) = .next (t.withSchedule rest) ∧
      s.HasRead t v ∧ t.host.pc = s.host.pc + 1 := by
  have hmove : ∀ ms, scriptMove exec (s.withSchedule ms) = .next ((s.withSchedule ms).noteRead v).advance := by
    intro ms
    rw [scriptMove_act (s := s.withSchedule ms) hidle hfetch, h ms, mapNext_next, State.afterStatement_of_idle]
    exact hidle
  refine ⟨((s.withSchedule []).noteRead v).advance, ?_, ?_, ⟨rfl, rfl, rfl⟩, rfl⟩
  · rw [step_script (.inl ⟨rfl, rfl⟩), hmove]
  · rw [step_script (.inr rfl), hmove]
    rfl

/-- A 32-bit access at a multiple of 4 reaches the offset it names (rules R60, R61). -/
theorem windowOffset_ok (cfg : Config) {off : Nat} (h : off % 4 = 0) :
    windowOffset cfg (cfg.regBase + off) 32 = .ok off := by
  simp [windowOffset, h]

theorem busRead_reads (s : State) {off : Nat} (h : off % 4 = 0) :
    (HostAction.busRead (s.cfg.regBase + off) 32).Reads s (.word (s.readOffset off)) := by
  intro ms
  have hoff : windowOffset (s.withSchedule ms).cfg (s.cfg.regBase + off) 32 = .ok off := windowOffset_ok s.cfg h
  rw [hostAct, busRead, hoff]
  rfl

end Reads

/-- Settles O48: each read is a host action that notes its value, run by the host's move or by the script's. -/
theorem registerWindowReads : Obligations.RegisterWindowReads := by
  intro s rest word
  refine ⟨fun off hoff => (busRead_reads s hoff).move rest, fun a v hav => ?_⟩
  have hreads : a.Reads s v := by
    simp only [List.mem_cons, Prod.mk.injEq, List.not_mem_nil, or_false] at hav
    rcases hav with ⟨rfl, rfl⟩ | ⟨rfl, rfl⟩ | ⟨rfl, rfl⟩ | ⟨rfl, rfl⟩ | ⟨rfl, rfl⟩ | ⟨rfl, rfl⟩ <;> exact fun _ => rfl
  exact ⟨hreads.move rest, fun hidle hfetch => hreads.statement hidle hfetch rest⟩

/-! ## Slot writes (rule R32) -/

theorem State.setSlot_eq_replaceSlot (s : State) (x : Slot) (v : ByteString) :
    { s with block := s.block.setSlot x v } = s.replaceSlot x (some v) := by
  cases x <;> rfl

theorem writeSlot_fits {s : State} {v : ByteString} (x : Slot) (hidle : s.block.pending = none)
    (hv : v.length ≤ s.cfg.maxOperandLen) : writeSlot x v s = .next (s.replaceSlot x (some v)) := by
  simp [writeSlot, hidle, Nat.not_lt.2 hv, State.setSlot_eq_replaceSlot]

theorem writeSlot_tooLong {s : State} {v : ByteString} (x : Slot) (hidle : s.block.pending = none)
    (hv : s.cfg.maxOperandLen < v.length) : writeSlot x v s = .refused (.hostWriteTooLong x v.length) := by
  simp [writeSlot, hidle, hv]

@[simp] theorem State.replaceSlot_host (s : State) (x : Slot) (v : Option ByteString) :
    (s.replaceSlot x v).host = s.host := by cases x <;> rfl

@[simp] theorem State.replaceSlot_pending (s : State) (x : Slot) (v : Option ByteString) :
    (s.replaceSlot x v).block.pending = s.block.pending := by cases x <;> rfl

/-- Settles O50: the host's move and the script's both run `writeSlot`, which writes the slot or refuses. -/
theorem hostSlotWrite : Obligations.HostSlotWrite := by
  intro s x v rest hidle hwait
  have hfits (ms) (hv : v.length ≤ s.cfg.maxOperandLen) :
      writeSlot x v (s.withSchedule ms) = .next ((s.withSchedule ms).replaceSlot x (some v)) :=
    writeSlot_fits x hidle hv
  have hlong (ms) (hv : s.cfg.maxOperandLen < v.length) :
      writeSlot x v (s.withSchedule ms) = .refused (.hostWriteTooLong x v.length) :=
    writeSlot_tooLong x hidle hv
  refine ⟨fun hv => ?_, fun hv => ?_, fun hfetch ms rest hms => ?_⟩
  · rw [step_host, hostAct, hfits rest hv, mapNext_next, State.settle_of_not_awaiting]
    rwa [State.replaceSlot_host]
  · rw [step_host, hostAct, hlong rest hv, mapNext_refused]
  · rw [step_script hms, scriptMove_act (s := s.withSchedule rest) hidle hfetch, hostAct]
    refine ⟨fun hv => ?_, fun hv => ?_⟩
    · have hidle' : ((s.withSchedule rest).replaceSlot x (some v)).block.pending = none := by
        rwa [State.replaceSlot_pending]
      rw [hfits rest hv, mapNext_next, State.afterStatement_of_idle hidle', State.advance, State.replaceSlot_host]
      rfl
    · rw [hlong rest hv, mapNext_refused]

end Sys2Proof.Machine
end

section
/-! The block while a command waits, and the host's accesses of the register window that do nothing or are refused
(rules R39, R46, R60, R61, R66, R67, R343). -/

namespace Sys2Proof.Machine

/-! ## A command that starts to wait (rules R67, R89) -/

/-- Only the outcome `wait` leaves something else pending than before. -/
theorem Block.finish_pending (b : Block) (o : CmdOutcome) :
    (b.finish o).pending = b.pending ∨ ∃ q, o = .wait q := by
  cases o with
  | wait q => exact .inr ⟨q, rfl⟩
  | ok r0 r1 => exact .inl rfl
  | okHash c x r0 => exact .inl rfl
  | err e => exact .inl rfl
  | fault k => exact .inl rfl

/-- What is pending is no part of what the host observes (rule R46). -/
@[simp] theorem State.observe_nowPending (s : State) (q : EntropyWait) : (s.nowPending q).observe = s.observe := rfl

@[simp] theorem State.observe_withSchedule (s : State) (ms : List Move) : (s.withSchedule ms).observe = s.observe := rfl

/-- Settles O41: a next state with a command pending is `finish` of a `wait`, which sets the pending command alone. -/
theorem waitIsInvisible : Obligations.WaitIsInvisible := by
  intro i s t hidle hexec hpending
  obtain ⟨o, rest, rfl, -⟩ := exec_next hexec
  rcases s.block.finish_pending o with hsame | ⟨q, rfl⟩
  · exact absurd (hsame.trans hidle) hpending
  · refine ⟨?_, rfl, s.block.finish_slot (.wait q)⟩
    rw [State.finish_wait, State.observe_nowPending, State.observe_withSchedule]

/-! ## Host moves that are refused or do nothing (rules R61, R66, R67) -/

section HostMoves
variable {s : State} {a : HostAction} {rest : List Move}

theorem step_host_refused {k : Refusal} (h : hostAct exec a (s.withSchedule rest) = .refused k) :
    step (s.withSchedule (.host a :: rest)) = .refused k := by
  rw [step_host, h, mapNext_refused]

theorem step_host_ignored (hfree : s.host.awaiting = false)
    (h : hostAct exec a (s.withSchedule rest) = .next (s.withSchedule rest)) :
    step (s.withSchedule (.host a :: rest)) = .next (s.withSchedule rest) := by
  rw [step_host, h, mapNext_next, State.settle_of_not_awaiting]
  exact hfree

end HostMoves

/-! ## Accesses of the register window (rules R39, R61, R66) -/

section Window
variable {s : State} {off width : Nat}

/-- An access of another width than 32 bits, or at an offset that is no multiple of 4 (rule R61). -/
theorem windowOffset_misshaped (cfg : Config) (h : width ≠ 32 ∨ off % 4 ≠ 0) :
    windowOffset cfg (cfg.regBase + off) width = .error (.registerAccessShape (cfg.regBase + off) width) := by
  have hshape : width ≠ 32 ∨ (cfg.regBase + off - cfg.regBase) % 4 ≠ 0 := by rwa [Nat.add_sub_cancel_left]
  rw [windowOffset, if_neg (by omega), if_pos hshape]

theorem busWrite_misshaped (s : State) (h : width ≠ 32 ∨ off % 4 ≠ 0) (w : Word) :
    busWrite exec (s.cfg.regBase + off) width w s =
      .refused (.registerAccessShape (s.cfg.regBase + off) width) := by
  rw [busWrite, windowOffset_misshaped s.cfg h]

theorem busRead_misshaped (s : State) (h : width ≠ 32 ∨ off % 4 ≠ 0) :
    busRead (s.cfg.regBase + off) width s = .refused (.registerAccessShape (s.cfg.regBase + off) width) := by
  rw [busRead, windowOffset_misshaped s.cfg h]

/-- With nothing pending a write of a register other than CMD is ignored (rules R39, R66). -/
theorem busWrite_ignored (hidle : s.block.pending = none) (halign : off % 4 = 0) (hcmd : off ≠ 0) (w : Word) :
    busWrite exec (s.cfg.regBase + off) 32 w s = .next s := by
  simp [busWrite, windowOffset_ok s.cfg halign, hcmd, hidle]

/-- During a wait it is refused (rules R67, R343). -/
theorem busWrite_refused (hwait : s.block.pending.isSome = true) (halign : off % 4 = 0) (hcmd : off ≠ 0) (w : Word) :
    busWrite exec (s.cfg.regBase + off) 32 w s = .refused .hostWriteWhilePending := by
  simp [busWrite, windowOffset_ok s.cfg halign, hcmd, hwait]

end Window

/-- Settles O49: a well-shaped write with nothing pending is ignored, and `windowOffset` refuses a misshaped access. -/
theorem registerWindowWrites : Obligations.RegisterWindowWrites := by
  intro s off width w rest hfree
  refine ⟨fun hidle halign hcmd => ?_, fun hshape => ⟨?_, ?_⟩⟩
  · exact step_host_ignored hfree (busWrite_ignored (s := s.withSchedule rest) hidle halign hcmd w)
  · exact step_host_refused (busWrite_misshaped (s.withSchedule rest) hshape w)
  · exact step_host_refused (busRead_misshaped (s.withSchedule rest) hshape)

/-! ## During a wait (rules R67, R240, R343) -/

section Waiting
variable {s : State} (hwait : s.block.pending.isSome = true)
include hwait

theorem scriptMove_of_pending : scriptMove exec s = .next s := by
  rw [scriptMove, if_pos hwait]

theorem writeSlot_of_pending (x : Slot) (v : ByteString) : writeSlot x v s = .refused .hostWriteWhilePending := by
  rw [writeSlot, if_pos hwait]

theorem issueCommand_of_pending (hrun : s.block.FAULT = 0#32) (w : Word) :
    issueCommand exec w s = .refused .commandWhilePending := by
  simp [issueCommand, Block.halted, hrun, hwait]

end Waiting

/-- An answer with nothing pending, the late one of a command that RESET has abandoned, is discarded (rule R340). -/
theorem step_answer_discarded {s : State} (hidle : s.block.pending = none) (hfree : s.host.awaiting = false)
    (a : OracleAnswer) (rest : List Move) :
    step (s.withSchedule (.answer a :: rest)) = .next (s.withSchedule rest) := by
  have hanswer : (s.withSchedule rest).answer a = .next (s.withSchedule rest) := by
    simp [State.answer, State.withSchedule, hidle]
  calc step (s.withSchedule (.answer a :: rest))
    _ = mapNext State.settle ((s.withSchedule rest).answer a) := rfl
    _ = .next (s.withSchedule rest).settle := by rw [hanswer, mapNext_next]
    _ = .next (s.withSchedule rest) := congrArg _ (State.settle_of_not_awaiting _ hfree)

theorem rdReg_reads (s : State) (r : RegName) : (HostAction.rdReg r).Reads s (.word (s.readReg r)) := fun _ => rfl

/-- Settles O40: during a wait the script's move stays, each write is refused and a read leaves the block alone. -/
theorem pendingHoldsTheBlock : Obligations.PendingHoldsTheBlock := by
  intro s rest
  refine ⟨fun hpending => ?_, fun hidle hfree a => step_answer_discarded hidle hfree a rest⟩
  have hwait (ms : List Move) : (s.withSchedule ms).block.pending.isSome = true := hpending
  refine ⟨?_, ?_, fun x v => ?_, fun w hrun => ?_, fun off w halign hcmd => ?_, fun r => ?_⟩
  · rw [step_script (.inl ⟨rfl, rfl⟩), scriptMove_of_pending (hwait [])]
  · rw [step_script (.inr rfl), scriptMove_of_pending (hwait rest)]
  · exact step_host_refused (writeSlot_of_pending (hwait rest) x v)
  · exact step_host_refused (issueCommand_of_pending (hwait rest) hrun w)
  · exact step_host_refused (busWrite_refused (hwait rest) halign hcmd w)
  · obtain ⟨t, hstep, hread⟩ := (rdReg_reads s r).move rest
    exact ⟨t, hstep, hread.block, hread.reads⟩

end Sys2Proof.Machine
end

section
/-! The decoder and the encoder are inverse to each other: a word is its five fields, and the opcode map has one row for
the columns of a command (rules R80 to R82). -/

namespace Sys2Proof

/-! ## The fields of a word (rule R80) -/

/-- Bit j of an encoded command, by the field it lies in (rule R80). -/
theorem getLsbD_encode (i : Instr) (j : Nat) : (encode i).getLsbD j =
    if j < 8 then i.opc.getLsbD j else if j < 9 then i.modeBit.getLsbD (j - 8) else if j < 12 then false
    else if j < 16 then i.ctxField.getLsbD (j - 12) else false := by
  have h : (encode i).getLsbD j = (0#16 ++ i.ctxField ++ 0#3 ++ i.modeBit ++ i.opc).getLsbD j := rfl
  simp only [h, BitVec.getLsbD_append, BitVec.getLsbD_zero]
  grind

section Fields
variable (i : Instr)

theorem fieldOPC_encode : fieldOPC (encode i) = i.opc := by
  refine BitVec.eq_of_getLsbD_eq fun j hj => ?_
  grind [fieldOPC, getLsbD_encode]

theorem fieldRSV0_encode : fieldRSV0 (encode i) = 0 := by
  refine BitVec.eq_of_getLsbD_eq fun j hj => ?_
  grind [fieldRSV0, getLsbD_encode]

theorem fieldM_encode : fieldM (encode i) = i.modeBit.getLsbD 0 := by
  rw [fieldM, getLsbD_encode, if_neg (by omega), if_pos (by omega)]

theorem fieldCTX_encode : fieldCTX (encode i) = i.ctxField := by
  refine BitVec.eq_of_getLsbD_eq fun j hj => ?_
  grind [fieldCTX, getLsbD_encode]

theorem fieldRSV1_encode : fieldRSV1 (encode i) = 0 := by
  refine BitVec.eq_of_getLsbD_eq fun j hj => ?_
  grind [fieldRSV1, getLsbD_encode]

end Fields

theorem word_eq_of_fields {w v : Word} (ho : fieldOPC w = fieldOPC v) (hm : fieldM w = fieldM v)
    (h0 : fieldRSV0 w = fieldRSV0 v) (hc : fieldCTX w = fieldCTX v) (h1 : fieldRSV1 w = fieldRSV1 v) : w = v := by
  refine BitVec.eq_of_getLsbD_eq fun j hj => ?_
  have bit {n : Nat} (a : Nat) (h : w.extractLsb' a n = v.extractLsb' a n) (hj : a ≤ j ∧ j < a + n) :
      w.getLsbD j = v.getLsbD j := by
    have hbit := congrArg (BitVec.getLsbD · (j - a)) h
    simp only [BitVec.getLsbD_extractLsb'] at hbit
    grind
  obtain h | h | h | h | h : j < 8 ∨ j = 8 ∨ 9 ≤ j ∧ j < 12 ∨ 12 ≤ j ∧ j < 16 ∨ 16 ≤ j := by omega
  · exact bit 0 ho (by omega)
  · exact h ▸ hm
  · exact bit 9 h0 h
  · exact bit 12 hc h
  · exact bit 16 h1 (by omega)

/-! ## The columns of the opcode map (rule R82) -/

/-- f gives the commands of one hash row, one for each context index. -/
structure HashRow (f : Nat → Instr) (opc : BitVec 8) : Prop where
  opc_eq : ∀ c, (f c).opc = opc
  modeBit : ∀ c, (f c).modeBit.getLsbD 0 = false
  ctxIndex : ∀ c, (f c).ctxIndex = some c
  row : ∀ c, (f c).row = ⟨encode (f 0), 0xFFFF0FFF#32⟩

theorem hashInit_row : HashRow .hashInit 0x01#8 :=
  ⟨fun _ => rfl, fun _ => BitVec.getLsbD_zero, fun _ => rfl, fun _ => rfl⟩

theorem hashUpdate_row : HashRow .hashUpdate 0x02#8 :=
  ⟨fun _ => rfl, fun _ => BitVec.getLsbD_zero, fun _ => rfl, fun _ => rfl⟩

theorem hashFinal_row : HashRow .hashFinal 0x03#8 :=
  ⟨fun _ => rfl, fun _ => BitVec.getLsbD_zero, fun _ => rfl, fun _ => rfl⟩

/-- The OPC codes of the rows of rule R82. -/
def assignedOpcodes : List (BitVec 8) :=
  [0x01#8, 0x02#8, 0x03#8, 0x10#8, 0x11#8, 0x20#8, 0x21#8, 0x22#8, 0x23#8, 0x30#8, 0x31#8, 0x40#8, 0x41#8, 0x50#8,
    0x51#8]

/-- The OPC codes whose rows take a context index. -/
def hashOpcodes : List (BitVec 8) := [0x01#8, 0x02#8, 0x03#8]

/-- The OPC codes with a row for each value of M. -/
def modeOpcodes : List (BitVec 8) := [0x22#8, 0x23#8]

/-- The family of the opcode map that an OPC belongs to, and the decoder of that family. -/
inductive OpcodeFamily (opc : BitVec 8) : Prop
  | hash (f : Nat → Instr) (range : opc ∈ assignedOpcodes ∧ opc ∈ hashOpcodes ∧ opc ∉ modeOpcodes)
      (row : HashRow f opc) (decodes : ∀ m ctx, decodeOpcode opc m ctx = decodeHash f m ctx)
  | plain (i : Instr) (range : opc ∈ assignedOpcodes ∧ opc ∉ hashOpcodes ∧ opc ∉ modeOpcodes)
      (columns : i.opc = opc ∧ i.modeBit.getLsbD 0 = false ∧ i.ctxIndex = none)
      (decodes : ∀ m ctx, decodeOpcode opc m ctx = decodePlain i m ctx)
  | mode (cbc ctr : Instr) (range : opc ∈ assignedOpcodes ∧ opc ∉ hashOpcodes ∧ opc ∈ modeOpcodes)
      (columns : ∀ m : Bool, (if m then ctr else cbc).opc = opc ∧ (if m then ctr else cbc).modeBit.getLsbD 0 = m ∧
        (if m then ctr else cbc).ctxIndex = none)
      (decodes : ∀ m ctx, decodeOpcode opc m ctx = decodeMode cbc ctr m ctx)
  | unassigned (range : opc ∉ assignedOpcodes)
      (decodes : ∀ m ctx, decodeOpcode opc m ctx = .error (.unassignedOpcode opc))

theorem opcodeFamily (opc : BitVec 8) : OpcodeFamily opc := by
  by_cases h : opc ∈ assignedOpcodes
  · simp only [assignedOpcodes, List.mem_cons, List.not_mem_nil, or_false] at h
    rcases h with rfl | rfl | rfl | rfl | rfl | rfl | rfl | rfl | rfl | rfl | rfl | rfl | rfl | rfl | rfl
    · exact .hash .hashInit (by decide) hashInit_row fun _ _ => rfl
    · exact .hash .hashUpdate (by decide) hashUpdate_row fun _ _ => rfl
    · exact .hash .hashFinal (by decide) hashFinal_row fun _ _ => rfl
    · exact .plain .hmac (by decide) ⟨rfl, BitVec.getLsbD_zero, rfl⟩ fun _ _ => rfl
    · exact .plain .kdf (by decide) ⟨rfl, BitVec.getLsbD_zero, rfl⟩ fun _ _ => rfl
    · exact .plain .blkEnc (by decide) ⟨rfl, BitVec.getLsbD_zero, rfl⟩ fun _ _ => rfl
    · exact .plain .blkDec (by decide) ⟨rfl, BitVec.getLsbD_zero, rfl⟩ fun _ _ => rfl
    · exact .mode .cbcEnc .ctrEnc (by decide) (by decide) fun _ _ => rfl
    · exact .mode .cbcDec .ctrDec (by decide) (by decide) fun _ _ => rfl
    · exact .plain .envPack (by decide) ⟨rfl, BitVec.getLsbD_zero, rfl⟩ fun _ _ => rfl
    · exact .plain .envUnpack (by decide) ⟨rfl, BitVec.getLsbD_zero, rfl⟩ fun _ _ => rfl
    · exact .plain .rngFill (by decide) ⟨rfl, BitVec.getLsbD_zero, rfl⟩ fun _ _ => rfl
    · exact .plain .chaosFill (by decide) ⟨rfl, BitVec.getLsbD_zero, rfl⟩ fun _ _ => rfl
    · exact .plain .encBytes (by decide) ⟨rfl, BitVec.getLsbD_zero, rfl⟩ fun _ _ => rfl
    · exact .plain .decBytes (by decide) ⟨rfl, BitVec.getLsbD_zero, rfl⟩ fun _ _ => rfl
  · refine .unassigned h fun m ctx => ?_
    simp only [assignedOpcodes, List.mem_cons, List.not_mem_nil, or_false, not_or] at h
    simp [decodeOpcode, h]

/-! ## Each family's decoder accepts what the row asks for (rules R80, R82) -/

section Families
variable {m : Bool} {ctx : BitVec 4} {i j : Instr}

theorem decodeHash_eq_ok {f : Nat → Instr} : decodeHash f m ctx = .ok i ↔ m = false ∧ f ctx.toNat = i := by
  cases m <;> simp [decodeHash]

theorem decodePlain_eq_ok : decodePlain j m ctx = .ok i ↔ m = false ∧ ctx = 0 ∧ j = i := by
  unfold decodePlain
  split_ifs <;> simp_all

theorem decodeMode_eq_ok {cbc ctr : Instr} :
    decodeMode cbc ctr m ctx = .ok i ↔ ctx = 0 ∧ (if m then ctr else cbc) = i := by
  unfold decodeMode
  split_ifs <;> simp_all

end Families

/-! ## decode and encode are inverse (rules R80 to R82) -/

section Inverse
variable {n : Nat} {w : Word} {i : Instr} {opc : BitVec 8} {m : Bool} {ctx : BitVec 4}

/-- Well formed means that the context index, where there is one, is in range (rule R83). -/
theorem wellFormed_iff : i.wellFormed n = true ↔ ∀ c, i.ctxIndex = some c → c < n := by
  unfold Instr.wellFormed
  cases i.ctxIndex <;> simp

theorem ctxField_of_none (h : i.ctxIndex = none) : i.ctxField = 0 := by
  rw [Instr.ctxField, h]
  rfl

theorem ctxField_toNat {c : Nat} (h : i.ctxIndex = some c) (hc : c < 16) : i.ctxField.toNat = c := by
  rw [Instr.ctxField, h, Option.getD_some, BitVec.toNat_ofNat, Nat.mod_eq_of_lt hc]

theorem encodable_of_none (h : i.ctxIndex = none) : i.encodable := wellFormed_iff.2 fun c hc => by simp [h] at hc

/-- CTX has room for every index it names. -/
theorem HashRow.encodable {f : Nat → Instr} (hrow : HashRow f opc) (ctx : BitVec 4) : (f ctx.toNat).encodable :=
  wellFormed_iff.2 fun _ hc => Option.some.inj ((hrow.ctxIndex _).symm.trans hc) ▸ ctx.isLt

theorem HashRow.ctxField {f : Nat → Instr} (hrow : HashRow f opc) (ctx : BitVec 4) : (f ctx.toNat).ctxField = ctx :=
  BitVec.eq_of_toNat_eq (ctxField_toNat (hrow.ctxIndex _) ctx.isLt)

/-- The command that the opcode map gives has the OPC, M and CTX columns it was looked up with. -/
theorem columns_of_decodeOpcode (h : decodeOpcode opc m ctx = .ok i) :
    i.opc = opc ∧ i.modeBit.getLsbD 0 = m ∧ i.ctxField = ctx ∧ i.encodable := by
  rcases opcodeFamily opc with ⟨f, -, hrow, hd⟩ | ⟨j, -, ⟨ho, hm, hc⟩, hd⟩ | ⟨cbc, ctr, -, hcol, hd⟩ | ⟨-, hd⟩ <;>
    rw [hd] at h
  · obtain ⟨rfl, rfl⟩ := decodeHash_eq_ok.1 h
    exact ⟨hrow.opc_eq _, hrow.modeBit _, hrow.ctxField ctx, hrow.encodable ctx⟩
  · obtain ⟨rfl, rfl, rfl⟩ := decodePlain_eq_ok.1 h
    exact ⟨ho, hm, ctxField_of_none hc, encodable_of_none hc⟩
  · obtain ⟨rfl, rfl⟩ := decodeMode_eq_ok.1 h
    obtain ⟨ho, hm, hc⟩ := hcol m
    exact ⟨ho, hm, ctxField_of_none hc, encodable_of_none hc⟩
  · cases h

/-- A word decodes when its reserved fields are 0 and the opcode map has a row for the others (rules R80, R82). -/
theorem decode_eq_ok_iff : decode w = .ok i ↔
    fieldRSV1 w = 0 ∧ fieldRSV0 w = 0 ∧ decodeOpcode (fieldOPC w) (fieldM w) (fieldCTX w) = .ok i := by
  unfold decode
  split_ifs <;> simp_all

theorem encode_of_decode (h : decode w = .ok i) : encode i = w ∧ i.encodable := by
  obtain ⟨h1, h0, h⟩ := decode_eq_ok_iff.1 h
  obtain ⟨hopc, hmode, hctx, henc⟩ := columns_of_decodeOpcode h
  refine ⟨word_eq_of_fields ?_ ?_ ?_ ?_ ?_, henc⟩
  · rw [fieldOPC_encode, hopc]
  · rw [fieldM_encode, hmode]
  · rw [fieldRSV0_encode, h0]
  · rw [fieldCTX_encode, hctx]
  · rw [fieldRSV1_encode, h1]

theorem decodeHash_columns {f : Nat → Instr} {c : Nat} (hrow : HashRow f opc) (h : (f c).encodable) :
    decodeHash f ((f c).modeBit.getLsbD 0) (f c).ctxField = .ok (f c) := by
  have hctx : (f c).ctxField.toNat = c := ctxField_toNat (hrow.ctxIndex c) (wellFormed_iff.1 h c (hrow.ctxIndex c))
  exact decodeHash_eq_ok.2 ⟨hrow.modeBit c, congrArg f hctx⟩

/-- The opcode map finds a command under its own columns. -/
theorem decodeOpcode_columns (h : i.encodable) :
    decodeOpcode i.opc (i.modeBit.getLsbD 0) i.ctxField = .ok i := by
  cases i with
  | hashInit c => exact decodeHash_columns hashInit_row h
  | hashUpdate c => exact decodeHash_columns hashUpdate_row h
  | hashFinal c => exact decodeHash_columns hashFinal_row h
  | hmac | kdf | blkEnc | blkDec | cbcEnc | cbcDec | ctrEnc | ctrDec | envPack | envUnpack | rngFill | chaosFill
  | encBytes | decBytes => rfl

theorem decode_encode (h : i.encodable) : decode (encode i) = .ok i := by
  refine decode_eq_ok_iff.2 ⟨fieldRSV1_encode i, fieldRSV0_encode i, ?_⟩
  rw [fieldOPC_encode, fieldM_encode, fieldCTX_encode, decodeOpcode_columns h]

/-- The decoder of rule R89 accepts the well-formed commands that the word encodes (rule R83). -/
theorem decodeFor_eq_ok_iff : decodeFor n w = .ok i ↔ decode w = .ok i ∧ i.wellFormed n = true := by
  unfold decodeFor
  cases decode w with
  | error e => simp
  | ok j =>
    by_cases hj : j.wellFormed n = true
    · simpa [hj] using fun h : j = i => h ▸ hj
    · simpa [hj] using fun h : j = i => h ▸ eq_false_of_ne_true hj

theorem wellFormed_encodable (hn : n ≤ 16) (h : i.wellFormed n = true) : i.encodable :=
  wellFormed_iff.2 fun c hc => (wellFormed_iff.1 h c hc).trans_le hn

theorem decodeFor_encode (hn : n ≤ 16) (h : i.wellFormed n = true) : decodeFor n (encode i) = .ok i :=
  decodeFor_eq_ok_iff.2 ⟨decode_encode (wellFormed_encodable hn h), h⟩

end Inverse

/-- Settles O1: the decoder reads back the fields that `encode` writes, and the opcode map has one row for them. -/
theorem decodeOfEncode : Obligations.DecodeOfEncode := fun _ _ hn h =>
  ⟨decode_encode (wellFormed_encodable hn h), decodeFor_encode hn h⟩

/-- Settles O2: a word is its fields, and those of a word that decodes are the columns of its command. -/
theorem encodeOfDecode : Obligations.EncodeOfDecode := fun _ _ => encode_of_decode

/-- Settles O5, by evaluation of the decoder. -/
theorem writtenWordsDecode : Obligations.WrittenWordsDecode := ⟨rfl, rfl, rfl, rfl, rfl, rfl⟩

end Sys2Proof
end

section
/-! The decoder against the opcode table and against the list of illegal words (rules R82, R83). -/

namespace Sys2Proof

/-! ## Rows (rule R82) -/

section Rows
variable {w : Word} {i : Instr}

theorem row_mem_opcodeTable (i : Instr) : i.row ∈ opcodeTable := by
  cases i <;> simp [opcodeTable, Instr.row]

/-- The word of an encodable command selects the command's row. -/
theorem row_selects_encode (i : Instr) : Laws.EncodedRow.Statement i := by
  cases i with
  | hashInit c => exact Laws.EncodedRow.hashInit c
  | hashUpdate c => exact Laws.EncodedRow.hashUpdate c
  | hashFinal c => exact Laws.EncodedRow.hashFinal c
  | hmac => exact Laws.EncodedRow.hmac
  | kdf => exact Laws.EncodedRow.kdf
  | blkEnc => exact Laws.EncodedRow.blkEnc
  | blkDec => exact Laws.EncodedRow.blkDec
  | cbcEnc => exact Laws.EncodedRow.cbcEnc
  | cbcDec => exact Laws.EncodedRow.cbcDec
  | ctrEnc => exact Laws.EncodedRow.ctrEnc
  | ctrDec => exact Laws.EncodedRow.ctrDec
  | envPack => exact Laws.EncodedRow.envPack
  | envUnpack => exact Laws.EncodedRow.envUnpack
  | rngFill => exact Laws.EncodedRow.rngFill
  | chaosFill => exact Laws.EncodedRow.chaosFill
  | encBytes => exact Laws.EncodedRow.encBytes
  | decBytes => exact Laws.EncodedRow.decBytes

theorem selects_iff {p m : Word} : (OpcodeRow.mk p m).selects w = true ↔ w &&& m = p := beq_iff_eq

/-- The mask of the hash rows hides CTX alone. -/
theorem fields_of_hashMask {v : Word} (h : w &&& 0xFFFF0FFF#32 = v) :
    fieldOPC w = fieldOPC v ∧ fieldM w = fieldM v ∧ fieldRSV0 w = fieldRSV0 v ∧ fieldRSV1 w = fieldRSV1 v := by
  subst h
  have hfield (a n : Nat) (h : (0xFFFF0FFF#32).extractLsb' a n = BitVec.allOnes n) :
      w.extractLsb' a n = (w &&& 0xFFFF0FFF#32).extractLsb' a n := by
    rw [BitVec.extractLsb'_and, h, BitVec.and_allOnes]
  have hm : fieldM w = fieldM (w &&& 0xFFFF0FFF#32) := by simp [fieldM]
  exact ⟨hfield 0 8 (by decide), hm, hfield 9 3 (by decide), hfield 16 16 (by decide)⟩

/-- A word that a hash row selects is the hash command of its CTX. -/
theorem decode_of_hashRow {f : Nat → Instr} {opc : BitVec 8} (hrow : HashRow f opc) {c : Nat}
    (h : (f c).row.selects w = true) : ∃ j, decode w = .ok j ∧ j.row = (f c).row := by
  rw [hrow.row, selects_iff] at h
  obtain ⟨hopc, hmode, h0, h1⟩ := fields_of_hashMask h
  have henc : encode (f (fieldCTX w).toNat) = w := by
    refine word_eq_of_fields ?_ ?_ ?_ ?_ ?_
    · rw [hopc, fieldOPC_encode, fieldOPC_encode, hrow.opc_eq, hrow.opc_eq]
    · rw [hmode, fieldM_encode, fieldM_encode, hrow.modeBit, hrow.modeBit]
    · rw [h0, fieldRSV0_encode, fieldRSV0_encode]
    · rw [fieldCTX_encode, hrow.ctxField]
    · rw [h1, fieldRSV1_encode, fieldRSV1_encode]
  have hdec := decode_encode (hrow.encodable (fieldCTX w))
  rw [henc] at hdec
  exact ⟨_, hdec, by rw [hrow.row, hrow.row]⟩

/-- A row whose mask has every bit selects its pattern alone. -/
theorem decode_of_fullMask (hrow : i.row = ⟨encode i, 0xFFFFFFFF#32⟩) (hi : i.encodable) (h : i.row.selects w = true) :
    ∃ j, decode w = .ok j ∧ j.row = i.row := by
  rw [hrow, selects_iff] at h
  have hw : w = encode i := BitVec.and_allOnes.symm.trans h
  exact ⟨i, hw ▸ decode_encode hi, rfl⟩

theorem decode_of_row_selects (h : i.row.selects w = true) : ∃ j, decode w = .ok j ∧ j.row = i.row := by
  cases i with
  | hashInit c => exact decode_of_hashRow hashInit_row h
  | hashUpdate c => exact decode_of_hashRow hashUpdate_row h
  | hashFinal c => exact decode_of_hashRow hashFinal_row h
  | hmac | kdf | blkEnc | blkDec | cbcEnc | cbcDec | ctrEnc | ctrDec | envPack | envUnpack | rngFill | chaosFill
  | encBytes | decBytes => exact decode_of_fullMask rfl rfl h

theorem ctxIndex_of_decode (h : decode w = .ok i) : i.ctxIndex = none ∨ i.ctxIndex = some (fieldCTX w).toNat := by
  obtain ⟨rfl, henc⟩ := encode_of_decode h
  cases hi : i.ctxIndex with
  | none => exact .inl rfl
  | some c => rw [fieldCTX_encode, ctxField_toNat hi (wellFormed_iff.1 henc c hi)]; exact .inr rfl

end Rows

/-- Settles O3: a word selects the row of the command it encodes, and a row selects only words that encode a command
of that row. -/
theorem decoderFollowsOpcodeTable : Obligations.DecoderFollowsOpcodeTable := by
  intro w
  have hsel : ∀ r ∈ opcodeTable, r.selects w = true → ∃ i, decode w = .ok i ∧ i.row = r := by
    intro r hr hw
    obtain ⟨i, -, rfl⟩ := List.mem_map.1 hr
    exact decode_of_row_selects hw
  refine ⟨fun i hi => ⟨row_mem_opcodeTable i, ?_, ctxIndex_of_decode hi⟩, hsel,
    fun r hr r' hr' hw hw' => ?_, fun n i => ?_⟩
  · obtain ⟨rfl, henc⟩ := encode_of_decode hi
    exact (row_selects_encode i henc).1
  · obtain ⟨i, hi, rfl⟩ := hsel r hr hw
    obtain ⟨j, hj, rfl⟩ := hsel r' hr' hw'
    rw [Except.ok.inj (hi.symm.trans hj)]
  · rw [decodeFor_eq_ok_iff, wellFormed_iff]

end Sys2Proof

namespace Sys2Proof.Machine

/-! ## Illegal words (rule R83) -/

section Illegal
variable {n : Nat} {w : Word}

/-- The list of rule R83 with OPC, M and CTX as bit fields. -/
theorem illegalWord_iff (n : Nat) (w : Word) : illegalWord n w ↔ fieldOPC w ∉ assignedOpcodes ∨
    (fieldM w = true ∧ fieldOPC w ∉ modeOpcodes) ∨ (fieldCTX w ≠ 0 ∧ fieldOPC w ∉ hashOpcodes) ∨
    (n ≤ (fieldCTX w).toNat ∧ fieldOPC w ∈ hashOpcodes) ∨ fieldRSV0 w ≠ 0 ∨ fieldRSV1 w ≠ 0 := by
  have hctx : fieldCTX w ≠ 0 ↔ (fieldCTX w).toNat ≠ 0 := BitVec.toNat_ne_iff_ne.symm
  have hlt := (fieldOPC w).isLt
  simp only [illegalWord, assignedOpcodes, hashOpcodes, modeOpcodes, List.mem_cons, List.not_mem_nil, or_false, not_or,
    hctx, ← BitVec.toNat_inj, BitVec.toNat_ofNat]
  refine or_congr (by omega) ?_
  rfl

/-- A word decodes for n contexts exactly when it is not on the list of rule R83. -/
theorem decodeFor_ok_iff_legal (n : Nat) (w : Word) : (∃ i, decodeFor n w = .ok i) ↔ ¬ illegalWord n w := by
  rw [illegalWord_iff]
  simp only [decodeFor_eq_ok_iff, decode_eq_ok_iff, wellFormed_iff]
  rcases opcodeFamily (fieldOPC w) with ⟨f, ⟨ha, hh, hm⟩, hrow, hd⟩ | ⟨j, ⟨ha, hh, hm⟩, ⟨-, -, hc⟩, hd⟩ |
    ⟨cbc, ctr, ⟨ha, hh, hm⟩, hcol, hd⟩ | ⟨ha, hd⟩
  · simp [hd, decodeHash_eq_ok, ha, hh, hm, hrow.ctxIndex]
    tauto
  · simp [hd, decodePlain_eq_ok, ha, hh, hm, hc]
    tauto
  · simp [hd, decodeMode_eq_ok, ha, hh, hm, (hcol (fieldM w)).2.2]
    tauto
  · simp [hd, ha]

/-- Settles O4: each family's decoder accepts what the list of rule R83 leaves for its OPC codes. -/
theorem illegalWordsExactly : Obligations.IllegalWordsExactly := by
  intro n w
  rw [← not_iff_not, ← decodeFor_ok_iff_legal]
  cases decodeFor n w <;> simp

end Illegal
end Sys2Proof.Machine
end

section
/-! A CMD write, as a host action and as a statement of the script (rules R39, R83, R87, R89, R307). -/

namespace Sys2Proof.Machine

/-! ## Issuing a command (rule R89) -/

section Issue
variable {s : State} {w : Word} {i : Instr}

theorem State.Ready.withSchedule (h : s.Ready) (ms : List Move) : (s.withSchedule ms).Ready :=
  ⟨h.notHalted, h.notPending⟩

theorem issueCommand_runs (hready : s.Ready) (h : decodeFor s.cfg.hashCtxCount w = .ok i) :
    issueCommand exec w s = exec i s := by
  simp [issueCommand, Block.halted, hready.notHalted, hready.notPending, h]

theorem issueCommand_illegal (hready : s.Ready) (h : illegalWord s.cfg.hashCtxCount w) :
    issueCommand exec w s = .next (s.afterFault 0) := by
  obtain ⟨e, he⟩ := (illegalWordsExactly _ _).2 h
  simp [issueCommand, Block.halted, hready.notHalted, hready.notPending, he, State.finish_fault, faultBit]

/-- A write of offset 0 of the register window is a write of CMD (rule R39). -/
theorem busWrite_cmd (s : State) (w : Word) : busWrite exec s.cfg.regBase 32 w s = issueCommand exec w s := by
  have hoff : windowOffset s.cfg s.cfg.regBase 32 = .ok 0 := windowOffset_ok s.cfg (off := 0) rfl
  rw [busWrite, hoff]
  rfl

end Issue

/-- Settles O6: each of the four moves issues the word, and a ready block runs its command. -/
theorem stepRunsDecodedCommand : Obligations.StepRunsDecodedCommand := by
  intro s w i rest hready hdec
  have hissue (ms : List Move) : issueCommand exec w (s.withSchedule ms) = exec i (s.withSchedule ms) :=
    issueCommand_runs (hready.withSchedule ms) hdec
  have hscript (hfetch : s.host.fetch = some (.act (.cmd w))) (ms : List Move) :
      scriptMove exec (s.withSchedule ms) = mapNext State.afterStatement (exec i (s.withSchedule ms)) := by
    rw [scriptMove_act (s := s.withSchedule ms) hready.notPending hfetch, hostAct, hissue]
  refine ⟨?_, ?_, fun hfetch => ⟨?_, ?_⟩⟩
  · rw [step_host, hostAct, hissue]
  · have hbus := busWrite_cmd (s.withSchedule rest) w
    rw [hissue] at hbus
    rw [step_host, hostAct]
    exact congrArg _ hbus
  · rw [step_script (.inr rfl), hscript hfetch]
  · rw [step_script (.inl ⟨rfl, rfl⟩), hscript hfetch]

/-- Settles O7: an illegal word is one that does not decode, and `issueCommand` faults it before any command runs. -/
theorem illegalWordFaults : Obligations.IllegalWordFaults := by
  intro s w rest hready
  refine ⟨fun hill => ?_, fun hlegal => ?_⟩
  · rw [step_host, hostAct, issueCommand_illegal (hready.withSchedule rest) hill, mapNext_next]
  · obtain ⟨i, hdec⟩ := (decodeFor_ok_iff_legal _ _).2 hlegal
    exact ⟨i, hdec, (stepRunsDecodedCommand s w i rest hready hdec).1⟩

end Sys2Proof.Machine
end

section
/-! What a command reads: the operand slots of rule R84 in their order, and no other slot; and that every command has a
next state (rules R13, R32, R34, R84, R89, R308). -/

namespace Sys2Proof.Machine

/-! ## The draws that stop the machine (rule R13) -/

theorem OracleAnswer.not_fits {a : OracleAnswer} {n : Nat} (h : ¬ a.fits n = true) :
    ∃ b, a = .bytes b ∧ n ≠ b.length := by
  cases a with
  | bytes b => exact ⟨b, rfl, fun hn => h (by simp [OracleAnswer.fits, hn])⟩
  | unavailable => exact absurd rfl h

/-- A draw stops only at an answer of the schedule that has another length than asked for. -/
theorem runDraw_badAnswer {cfg : Config} {q : EntropyWait} {ms : List Move} {want got : Nat}
    (h : runDraw cfg q ms = .badAnswer want got) : want ≠ got ∧ ∃ b, Move.answer (.bytes b) ∈ ms ∧ b.length = got := by
  induction ms generalizing q with
  | nil => cases h
  | cons m ms ih =>
    cases m with
    | script => cases h
    | host a => cases h
    | answer a =>
      rw [runDraw] at h
      split at h
      · split at h
        · obtain ⟨hne, b, hb, hlen⟩ := ih h
          exact ⟨hne, b, List.mem_cons_of_mem _ hb, hlen⟩
        all_goals cases h
      · next hfits =>
        cases h
        obtain ⟨b, rfl, hne⟩ := OracleAnswer.not_fits hfits
        exact ⟨hne, b, List.mem_cons_self, rfl⟩

/-- Settles O9: a command ends or draws, and a draw that does not end has met an answer of the wrong length. -/
theorem everyCommandHasANextState : Obligations.EveryCommandHasANextState := by
  intro i s
  rcases exec_cases i s with ⟨o, hexec, -⟩ | ⟨q, hexec, hwhich⟩
  · exact .inl ⟨_, hexec⟩
  · cases hdraw : runDraw s.cfg q s.schedule with
    | done o rest => exact .inl ⟨_, by rw [hexec, State.draw, hdraw]⟩
    | badAnswer want got =>
      obtain ⟨hne, hanswer⟩ := runDraw_badAnswer hdraw
      exact .inr ⟨want, got, by rw [hexec, State.draw, hdraw], hne, hwhich, hanswer⟩

/-! ## The first operand that faults (rules R84, R308) -/

/-- Where the operands `shapes` have a first fault, o is that fault. -/
def CmdOutcome.FaultsFirst (o : CmdOutcome) (b : Block) (shapes : List (Slot × Option Nat)) : Prop :=
  ∀ k, firstOperandFault b shapes = some k → o = .fault k

section FaultsFirst
variable {b : Block} {x : Slot} {rest : List (Slot × Option Nat)} {k : ByteString → CmdOutcome}

theorem faultsFirst_done {o : CmdOutcome} : o.FaultsFirst b [] := nofun

theorem faultsFirst_operand {len : Option Nat} (h : ∀ v, (k v).FaultsFirst b rest) :
    (withOperand b x len k).FaultsFirst b ((x, len) :: rest) := by
  intro f hf
  rw [firstOperandFault] at hf
  rcases withOperand_cases b x len k with ⟨g, hg, e⟩ | ⟨v, hg, -, e⟩ <;> rw [hg] at hf <;> rw [e]
  · rw [Option.some.inj hf]
  · exact h v f hf

theorem faultsFirst_any (h : ∀ v, (k v).FaultsFirst b rest) : (withAny b x k).FaultsFirst b ((x, none) :: rest) :=
  faultsFirst_operand h

theorem faultsFirst_fixed {n : Nat} (h : ∀ v, (k v).FaultsFirst b rest) :
    (withFixed b x n k).FaultsFirst b ((x, some n) :: rest) :=
  faultsFirst_operand h

theorem faultsFirst_mode {k : ByteString → ByteString → ByteString → CmdOutcome} :
    (withModeOperands b k).FaultsFirst b [(.a, some 32), (.b, some 16), (.c, none)] :=
  faultsFirst_fixed fun _ => faultsFirst_fixed fun _ => faultsFirst_any fun _ => faultsFirst_done

end FaultsFirst

section Ends
variable {s : State} {o : CmdOutcome} {k : FaultKind} {shapes : List (Slot × Option Nat)}

theorem CmdOutcome.FaultsFirst.finish (h : o.FaultsFirst s.block shapes)
    (hk : firstOperandFault s.block shapes = some k) :
    Host.Outcome.next (s.finish o) = (.next (s.finish (.fault k)) : Result) := by rw [h k hk]

theorem CmdOutcome.FaultsFirst.finishOrDraw (h : o.FaultsFirst s.block shapes)
    (hk : firstOperandFault s.block shapes = some k) : s.finishOrDraw o = .next (s.finish (.fault k)) := by
  rw [h k hk, State.finishOrDraw]

/-- Every command reads its operands first, in the order of rule R84. -/
theorem exec_operandFault {i : Instr} (hctx : ∀ c, i.ctxIndex = some c → c < s.block.ctx.length)
    (hk : firstOperandFault s.block (operandShapes i) = some k) : exec i s = .next (s.finish (.fault k)) := by
  cases i with
  | hashInit c => cases hk
  | hashUpdate c =>
    have hc : s.block.ctx[c]? = some (s.block.ctx[c]'(hctx c rfl)) := List.getElem?_eq_getElem _
    rw [exec, execHashUpdate, withCtx_some hc]
    exact (faultsFirst_any fun _ => faultsFirst_done).finish hk
  | hashFinal c => cases hk
  | hmac => exact (faultsFirst_any fun _ => faultsFirst_any fun _ => faultsFirst_done).finish hk
  | kdf => exact (faultsFirst_any fun _ => faultsFirst_any fun _ => faultsFirst_done).finish hk
  | blkEnc => exact (faultsFirst_fixed fun _ => faultsFirst_fixed fun _ => faultsFirst_done).finish hk
  | blkDec => exact (faultsFirst_fixed fun _ => faultsFirst_fixed fun _ => faultsFirst_done).finish hk
  | cbcEnc => exact faultsFirst_mode.finish hk
  | cbcDec => exact faultsFirst_mode.finish hk
  | ctrEnc => exact faultsFirst_mode.finish hk
  | ctrDec => exact faultsFirst_mode.finish hk
  | envPack => exact (faultsFirst_fixed fun _ => faultsFirst_fixed fun _ => faultsFirst_done).finish hk
  | envUnpack => exact (faultsFirst_any fun _ => faultsFirst_done).finish hk
  | rngFill => exact (faultsFirst_fixed fun _ => faultsFirst_done).finishOrDraw hk
  | chaosFill => exact (faultsFirst_any fun _ => faultsFirst_fixed fun _ => faultsFirst_done).finish hk
  | encBytes => exact (faultsFirst_any fun _ => faultsFirst_any fun _ => faultsFirst_done).finishOrDraw hk
  | decBytes => exact (faultsFirst_any fun _ => faultsFirst_any fun _ => faultsFirst_done).finish hk

end Ends

/-- An operand faults ReadUnwritten or OperandShape (rules R34, R84). -/
theorem operandFault_kind {b : Block} {x : Slot} {len : Option Nat} {k : FaultKind} (h : operandFault b x len = some k) :
    k = .readUnwritten x ∨ ∃ n, k = .operandShape x n := by
  unfold operandFault at h
  split at h
  · cases h; exact .inl rfl
  · split at h
    · cases h
    · split at h <;> cases h
      exact .inr ⟨_, rfl⟩

theorem firstOperandFault_kind {b : Block} {shapes : List (Slot × Option Nat)} {k : FaultKind}
    (h : firstOperandFault b shapes = some k) : (∃ x, k = .readUnwritten x) ∨ ∃ x n, k = .operandShape x n := by
  induction shapes with
  | nil => cases h
  | cons p rest ih =>
    obtain ⟨x, len⟩ := p
    rw [firstOperandFault] at h
    split at h
    · next hf =>
      cases h
      rcases operandFault_kind hf with rfl | ⟨n, rfl⟩
      · exact .inl ⟨x, rfl⟩
      · exact .inr ⟨x, n, rfl⟩
    · exact ih h

/-- Settles O10: every command takes the first fault of its operands, and the fault's kind gives the bit. -/
theorem operandFaultsInOrder : Obligations.OperandFaultsInOrder := by
  intro i s k hctx hk
  rw [exec_operandFault hctx hk, State.finish_fault]
  rcases firstOperandFault_kind hk with ⟨x, rfl⟩ | ⟨x, n, rfl⟩ <;> rfl

/-! ## The slots that are not read (rules R32, R84) -/

section Replace
variable (s : State) (x : Slot) (v : Option ByteString)

theorem State.replaceSlot_cfg : (s.replaceSlot x v).cfg = s.cfg := by cases x <;> rfl

theorem State.replaceSlot_schedule : (s.replaceSlot x v).schedule = s.schedule := by cases x <;> rfl

theorem State.replaceSlot_ctx : (s.replaceSlot x v).block.ctx = s.block.ctx := by cases x <;> rfl

theorem State.replaceSlot_slot_other {y : Slot} (h : y ≠ x) : (s.replaceSlot x v).block.slot y = s.block.slot y := by
  cases x <;> cases y <;> simp [State.replaceSlot, Block.slot] at h ⊢

/-- The end of a command and the replacement of a slot commute. -/
theorem State.replaceSlot_finish (o : CmdOutcome) : (s.replaceSlot x v).finish o = (s.finish o).replaceSlot x v := by
  cases x <;> cases o <;> rfl

theorem State.replaceSlot_draw (q : EntropyWait) :
    (s.replaceSlot x v).draw q = mapNext (fun t => t.replaceSlot x v) (s.draw q) := by
  rw [State.draw, State.draw, State.replaceSlot_cfg, State.replaceSlot_schedule]
  cases runDraw s.cfg q s.schedule with
  | done o rest => cases x <;> cases o <;> rfl
  | badAnswer want got => rfl

theorem State.replaceSlot_finishOrDraw (o : CmdOutcome) :
    (s.replaceSlot x v).finishOrDraw o = mapNext (fun t => t.replaceSlot x v) (s.finishOrDraw o) := by
  cases o with
  | wait q => exact s.replaceSlot_draw x v q
  | ok r0 r1 => exact congrArg Host.Outcome.next (s.replaceSlot_finish x v _)
  | okHash c y r0 => exact congrArg Host.Outcome.next (s.replaceSlot_finish x v _)
  | err e => exact congrArg Host.Outcome.next (s.replaceSlot_finish x v _)
  | fault k => exact congrArg Host.Outcome.next (s.replaceSlot_finish x v _)

end Replace

/-- Two outcomes are the same one if slot x is not among the operands `shapes`. -/
def CmdOutcome.SameUnless (x : Slot) (shapes : List (Slot × Option Nat)) (o o' : CmdOutcome) : Prop :=
  x ∉ shapes.map Prod.fst → o = o'

section SameUnless
variable {s : State} {x y : Slot} {v : Option ByteString} {rest shapes : List (Slot × Option Nat)}
  {k k' : ByteString → CmdOutcome}

theorem sameUnless_done {o o' : CmdOutcome} (h : o = o') : CmdOutcome.SameUnless x [] o o' := fun _ => h

theorem sameUnless_operand {len : Option Nat} (h : ∀ w, CmdOutcome.SameUnless x rest (k w) (k' w)) :
    CmdOutcome.SameUnless x ((y, len) :: rest) (withOperand (s.replaceSlot x v).block y len k)
      (withOperand s.block y len k') := by
  intro hx
  rw [List.map_cons, List.mem_cons, not_or] at hx
  obtain ⟨hne, hrest⟩ := hx
  have hk : k = k' := funext fun w => h w hrest
  rw [withOperand, withOperand, State.replaceSlot_slot_other _ _ _ (Ne.symm hne), hk]

theorem sameUnless_any (h : ∀ w, CmdOutcome.SameUnless x rest (k w) (k' w)) :
    CmdOutcome.SameUnless x ((y, none) :: rest) (withAny (s.replaceSlot x v).block y k) (withAny s.block y k') :=
  sameUnless_operand h

theorem sameUnless_fixed {n : Nat} (h : ∀ w, CmdOutcome.SameUnless x rest (k w) (k' w)) :
    CmdOutcome.SameUnless x ((y, some n) :: rest) (withFixed (s.replaceSlot x v).block y n k)
      (withFixed s.block y n k') :=
  sameUnless_operand h

theorem sameUnless_mode {k k' : ByteString → ByteString → ByteString → CmdOutcome} (h : k = k') :
    CmdOutcome.SameUnless x [(.a, some 32), (.b, some 16), (.c, none)] (withModeOperands (s.replaceSlot x v).block k)
      (withModeOperands s.block k') :=
  h ▸ sameUnless_fixed fun _ => sameUnless_fixed fun _ => sameUnless_any fun _ => sameUnless_done rfl

/-- The contexts are no operand slots. -/
theorem sameUnless_ctx {i : Instr} {c : Nat} {k k' : HashCtx → CmdOutcome}
    (h : ∀ z, CmdOutcome.SameUnless x shapes (k z) (k' z)) :
    CmdOutcome.SameUnless x shapes (withCtx (s.replaceSlot x v).block i c k) (withCtx s.block i c k') := by
  intro hx
  have hk : k = k' := funext fun z => h z hx
  rw [withCtx, withCtx, State.replaceSlot_ctx, hk]

variable {o o' : CmdOutcome}

theorem CmdOutcome.SameUnless.finish (h : CmdOutcome.SameUnless x shapes o o') (hx : x ∉ shapes.map Prod.fst) :
    Host.Outcome.next ((s.replaceSlot x v).finish o) =
      mapNext (fun t => t.replaceSlot x v) (.next (s.finish o') : Result) := by
  rw [h hx, State.replaceSlot_finish, mapNext_next]

theorem CmdOutcome.SameUnless.finishOrDraw (h : CmdOutcome.SameUnless x shapes o o') (hx : x ∉ shapes.map Prod.fst) :
    (s.replaceSlot x v).finishOrDraw o = mapNext (fun t => t.replaceSlot x v) (s.finishOrDraw o') := by
  rw [h hx, State.replaceSlot_finishOrDraw]

end SameUnless

/-- Settles O11: with the slot replaced the operands read are the same, so the outcome is, and ending a command commutes
with replacing a slot. -/
theorem unreadSlotsDoNotMatter : Obligations.UnreadSlotsDoNotMatter := by
  intro i s x v hx
  have hcfg : (s.replaceSlot x v).cfg = s.cfg := s.replaceSlot_cfg x v
  cases i with
  | hashInit c => exact (sameUnless_ctx fun _ => sameUnless_done rfl).finish hx
  | hashUpdate c => exact (sameUnless_ctx fun _ => sameUnless_any fun _ => sameUnless_done rfl).finish hx
  | hashFinal c => exact (sameUnless_ctx fun _ => sameUnless_done rfl).finish hx
  | hmac => exact (sameUnless_any fun _ => sameUnless_any fun _ => sameUnless_done rfl).finish hx
  | kdf => exact (sameUnless_any fun _ => sameUnless_any fun _ => sameUnless_done (by rw [hcfg])).finish hx
  | blkEnc => exact (sameUnless_fixed fun _ => sameUnless_fixed fun _ => sameUnless_done (by rw [hcfg])).finish hx
  | blkDec => exact (sameUnless_fixed fun _ => sameUnless_fixed fun _ => sameUnless_done (by rw [hcfg])).finish hx
  | cbcEnc => exact (sameUnless_mode (by rw [hcfg])).finish hx
  | cbcDec => exact (sameUnless_mode (by rw [hcfg])).finish hx
  | ctrEnc => exact (sameUnless_mode (by rw [hcfg])).finish hx
  | ctrDec => exact (sameUnless_mode (by rw [hcfg])).finish hx
  | envPack => exact (sameUnless_fixed fun _ => sameUnless_fixed fun _ => sameUnless_done rfl).finish hx
  | envUnpack => exact (sameUnless_any fun _ => sameUnless_done rfl).finish hx
  | rngFill => exact (sameUnless_fixed fun _ => sameUnless_done (by rw [hcfg])).finishOrDraw hx
  | chaosFill => exact (sameUnless_any fun _ => sameUnless_fixed fun _ => sameUnless_done (by rw [hcfg])).finish hx
  | encBytes => exact (sameUnless_any fun _ => sameUnless_any fun _ => sameUnless_done rfl).finishOrDraw hx
  | decBytes => exact (sameUnless_any fun _ => sameUnless_any fun _ => sameUnless_done (by rw [hcfg])).finish hx

end Sys2Proof.Machine
end

section
/-! The statements of a host script, the three hash commands where they complete, and the pseudo-command SHA256 built
from them (rules R87, R88, R112, R114 to R116). -/

namespace Sys2Proof.Machine

/-! ## One statement (rules R87, R88) -/

section Script
variable {s : State}

theorem step_of_schedule_nil (h : s.schedule = []) : step s = scriptMove exec s := by
  rw [step, stepWith, h]

/-- With no move to come and nothing pending, a step runs the statement at pc. -/
theorem step_stmt (hsched : s.schedule = []) (hidle : s.block.pending = none) {a : Stmt}
    (hfetch : s.host.fetch = some a) : step s = runStmt exec a s := by
  simp [step_of_schedule_nil hsched, scriptMove, hidle, hfetch]

theorem runMovr_none {x : Slot} {r : ResultSlot} (h : s.block.result r = none) :
    runMovr x r s = .next ((s.noteRead (.bytes none)).endScript .stopped) := by
  rw [runMovr, h]

theorem runMovr_some {x : Slot} {r : ResultSlot} {v : ByteString} (h : s.block.result r = some v)
    (hidle : s.block.pending = none) (hv : v.length ≤ s.cfg.maxOperandLen) :
    runMovr x r s = .next ((s.noteRead (.bytes (some v))).replaceSlot x (some v)).advance := by
  have hwrite : writeSlot x v (s.noteRead (.bytes (some v))) =
      .next ((s.noteRead (.bytes (some v))).replaceSlot x (some v)) :=
    writeSlot_fits x hidle hv
  simp only [runMovr, h, hwrite, mapNext_next]

end Script

/-- Settles O55: with nothing pending the step runs the statement at pc, and each of them is one move of pc. -/
theorem scriptControl : Obligations.ScriptControl := by
  intro s hsched hidle
  refine ⟨fun l hfetch => ?_, fun l hfetch => step_stmt hsched hidle hfetch, step_stmt hsched hidle,
    fun x r hfetch hr => ?_, fun x r v hfetch hr hv => ?_, fun hfetch => ?_⟩
  · rw [step_stmt hsched hidle hfetch, apply_ite s.jumpTo]
    rfl
  · rw [step_stmt hsched hidle hfetch, runStmt, runMovr_none hr]
  · rw [step_stmt hsched hidle hfetch, runStmt, runMovr_some hr hidle hv, State.advance, State.replaceSlot_host]
    rfl
  · simp [step_of_schedule_nil hsched, scriptMove, hidle, hfetch]

/-! ## The hash commands where they complete (rules R114 to R116) -/

section Hash
variable {s : State} {c : Nat} {x : HashCtx}

theorem exec_hashInit (h : s.block.ctx[c]? = some x) :
    exec (.hashInit c) s = .next ((s.withContext c x.init).afterOk none none) := by
  rw [exec, execHashInit, withCtx_some h]
  rfl

theorem exec_hashUpdate {data : ByteString} (h : s.block.ctx[c]? = some x) (hactive : x.phase = .active)
    (hsound : x.Sound) (hA : s.block.slot .a = some data) (hbound : x.BITLEN.toNat + 8 * data.length ≤ 2 ^ 64 - 1) :
    exec (.hashUpdate c) s = .next ((s.withContext c (x.update data)).afterOk none none) := by
  have hperform : performHashUpdate c x data = .okHash c (x.update data) none := by
    rw [performHashUpdate, if_neg (not_not.2 hactive), if_neg (Nat.not_lt.2 hbound), x.consistent_iff.2 hsound]
    rfl
  rw [exec, execHashUpdate, withCtx_some h, withAny_some hA, hperform]
  rfl

theorem exec_hashFinal (h : s.block.ctx[c]? = some x) (hactive : x.phase = .active) (hsound : x.Sound) :
    exec (.hashFinal c) s = .next ((s.withContext c x.finalize).afterOk (some x.digest) none) := by
  have hperform : performHashFinal c x = .okHash c x.finalize (some x.digest) := by
    rw [performHashFinal, if_neg (not_not.2 hactive), x.consistent_iff.2 hsound]
    rfl
  rw [exec, execHashFinal, withCtx_some h, hperform]
  rfl

/-- The digest of a context is that of the bytes it has absorbed (rules R112, R116). -/
theorem HashCtx.Absorbed.digest {m : ByteString} (h : x.Absorbed m) : x.digest = sha256 m := by
  have hbits : x.BITLEN = BitVec.ofNat 64 (8 * m.length) := by rw [← h.bitLen, BitVec.ofNat_toNat, BitVec.setWidth_eq]
  rw [HashCtx.digest, h.holds.chain, h.holds.buffer, hbits, sha256]

theorem State.withContext_getElem? (h : s.block.ctx[c]? = some x) (y : HashCtx) (r0 r1 : Option ByteString) :
    ((s.withContext c y).afterOk r0 r1).block.ctx[c]? = some y :=
  List.getElem?_set_self (List.getElem?_eq_some_iff.1 h).1

end Hash

/-! ## Runs of a script (rule R87) -/

/-- The script stands before its statement number pc, with the block ready and no other move to come. -/
structure State.InScript (s : State) (script : List Stmt) (pc : Nat) : Prop where
  ready : s.Ready
  schedule : s.schedule = []
  script : s.host.script = script
  pc : s.host.pc = pc
  running : s.host.phase = .running

section InScript
variable {s t : State} {script : List Stmt} {pc : Nat}

theorem State.InScript.step_eq (h : s.InScript script pc) {a : Stmt} (ha : script[pc]? = some a) :
    step s = runStmt exec a s := by
  refine step_stmt h.schedule h.ready.notPending ?_
  rw [HostAgent.fetch, h.running, h.script, h.pc, ha]

/-- pc goes on after a statement that leaves the block ready. -/
theorem State.InScript.advance (h : s.InScript script pc) (hready : t.Ready) (hsched : t.schedule = s.schedule)
    (hhost : t.host = s.host) : t.advance.InScript script (pc + 1) := by
  refine ⟨⟨hready.notHalted, hready.notPending⟩, hsched.trans h.schedule, ?_, ?_, ?_⟩
  · exact (congrArg HostAgent.script hhost).trans h.script
  · exact congrArg (· + 1) ((congrArg HostAgent.pc hhost).trans h.pc)
  · exact (congrArg HostAgent.phase hhost).trans h.running

/-- A statement that issues a hash command which completes on context c. -/
theorem State.InScript.hashStmt (h : s.InScript script pc) {i : Instr} (hi : script[pc]? = some (cmdStmt i))
    (hwf : i.wellFormed s.cfg.hashCtxCount = true) {c : Nat} {x : HashCtx} {r0 : Option ByteString}
    (hexec : exec i s = .next ((s.withContext c x).afterOk r0 none)) :
    ∃ t, step s = .next t ∧ t.InScript script (pc + 1) ∧ t.cfg = s.cfg ∧
      t.block = ((s.withContext c x).afterOk r0 none).block := by
  have hready : ((s.withContext c x).afterOk r0 none).Ready := ⟨h.ready.notHalted, h.ready.notPending⟩
  have hdec : decodeFor s.cfg.hashCtxCount (encode i) = .ok i := decodeFor_encode (Config.admissible s.cfg).ctxHigh hwf
  refine ⟨((s.withContext c x).afterOk r0 none).advance, ?_, h.advance hready rfl rfl, rfl, rfl⟩
  rw [h.step_eq hi, cmdStmt, runStmt, hostAct, issueCommand_runs h.ready hdec, hexec, mapNext_next,
    State.afterStatement_of_idle hready.notPending]

/-- A statement that writes an operand slot. -/
theorem State.InScript.wrStmt (h : s.InScript script pc) {y : Slot} {v : ByteString}
    (hy : script[pc]? = some (.act (.wr y v))) (hv : v.length ≤ s.cfg.maxOperandLen) :
    ∃ t, step s = .next t ∧ t.InScript script (pc + 1) ∧ t.cfg = s.cfg ∧
      t.block = (s.replaceSlot y (some v)).block := by
  have hready : (s.replaceSlot y (some v)).Ready := by
    cases y <;> exact ⟨h.ready.notHalted, h.ready.notPending⟩
  refine ⟨(s.replaceSlot y (some v)).advance, ?_, h.advance hready ?_ ?_, ?_, rfl⟩
  · rw [h.step_eq hy, runStmt, hostAct, writeSlot_fits y h.ready.notPending hv, mapNext_next,
      State.afterStatement_of_idle hready.notPending]
  · exact s.replaceSlot_schedule y (some v)
  · exact s.replaceSlot_host y (some v)
  · exact s.replaceSlot_cfg y (some v)

/-- A script past its last statement, with the block ready, has ended normally (rule R317). -/
theorem State.InScript.normalEnd (h : s.InScript script script.length) : s.normalEnd = true := by
  simp [State.normalEnd, h.running, h.script, h.pc, h.ready.notPending, h.ready.notHalted]

theorem run_succ {n : Nat} (h : step s = .next t) : Host.Core.run core (n + 1) s = Host.Core.run core n t := by
  have hcore : core.step s = .next t := h
  simp only [Host.Core.run, hcore]

end InScript

/-! ## The pseudo-command SHA256 (rule R88) -/

/-- Settles O56: the four statements start context c, write v to slot A, absorb it and give its digest. -/
theorem sha256PseudoCommand : Obligations.Sha256PseudoCommand := by
  intro s c v hready hsched hc hctx hv
  have hwf {f : Nat → Instr} (hf : (f c).ctxIndex = some c) : (f c).wellFormed s.cfg.hashCtxCount = true :=
    wellFormed_iff.2 fun d hd => Option.some.inj (hf.symm.trans hd) ▸ hc
  obtain ⟨x, hx⟩ : ∃ x, s.block.ctx[c]? = some x := ⟨_, List.getElem?_eq_getElem (hctx ▸ hc)⟩
  have h0 : (s.loadScript (expandSha256 c v)).InScript (expandSha256 c v) 0 :=
    ⟨⟨hready.notHalted, hready.notPending⟩, hsched, rfl, rfl, rfl⟩
  have hbound : x.init.BITLEN.toNat + 8 * v.length ≤ 2 ^ 64 - 1 := by
    have hzero : x.init.BITLEN.toNat = 0 := rfl
    have hmax := (Config.admissible s.cfg).maxLen
    omega
  have habs : (x.init.update v).Absorbed v := x.init_absorbed.update v hbound
  -- HASH.INIT c
  obtain ⟨t1, e1, h1, hcfg1, hblock1⟩ := h0.hashStmt rfl (hwf rfl) (exec_hashInit hx)
  have hx1 : t1.block.ctx[c]? = some x.init := hblock1 ▸ State.withContext_getElem? hx _ _ _
  -- WR A, v
  obtain ⟨t2, e2, h2, hcfg2, hblock2⟩ := h1.wrStmt (y := .a) rfl (hcfg1 ▸ hv)
  have hA2 : t2.block.slot .a = some v := by rw [hblock2]; rfl
  have hx2 : t2.block.ctx[c]? = some x.init := by rw [hblock2, State.replaceSlot_ctx, hx1]
  have hwf2 {f : Nat → Instr} (hf : (f c).ctxIndex = some c) : (f c).wellFormed t2.cfg.hashCtxCount = true := by
    rw [hcfg2, hcfg1]
    exact hwf hf
  -- HASH.UPDATE c
  obtain ⟨t3, e3, h3, hcfg3, hblock3⟩ :=
    h2.hashStmt rfl (hwf2 rfl) (exec_hashUpdate hx2 rfl x.init_absorbed.sound hA2 hbound)
  have hx3 : t3.block.ctx[c]? = some (x.init.update v) := hblock3 ▸ State.withContext_getElem? hx2 _ _ _
  have hactive : (x.init.update v).phase = .active := by rw [HashCtx.update_phase, HashCtx.init_phase]
  -- HASH.FINAL c
  obtain ⟨t4, e4, h4, -, hblock4⟩ := h3.hashStmt rfl (hcfg3 ▸ hwf2 rfl) (exec_hashFinal hx3 hactive habs.sound)
  refine ⟨t4, ?_, ?_, ?_, h4.ready.notHalted, h4.pc, h4.normalEnd⟩
  · rw [run_succ e1, run_succ e2, run_succ e3, run_succ e4]
    rfl
  · rw [hblock4, ← habs.digest]
    rfl
  · rw [hblock4]
    rfl

end Sys2Proof.Machine
end

section
/-! The three hash commands: the outcome of each on a context that is there, the faults of rule R308 in their order, and
a session of HASH.INIT, HASH.UPDATE and HASH.FINAL over any split of a message (rules R112 to R117). -/

namespace Sys2Proof.Machine

/-! ## The outcome on a context that is there (rules R83, R308) -/

section Perform
variable {s : State} {c : Nat} {x : HashCtx} {data : ByteString}

theorem withCtx_none {b : Block} {i : Instr} {k : HashCtx → CmdOutcome} (h : b.ctx.length ≤ c) :
    withCtx b i c k = .fault (.illegalCommand (encode i)) := by
  rw [withCtx, List.getElem?_eq_none h]

theorem exec_hashUpdate_finish (h : s.block.ctx[c]? = some x) (hA : s.block.A = some data) :
    exec (.hashUpdate c) s = .next (s.finish (performHashUpdate c x data)) := by
  rw [exec, execHashUpdate, withCtx_some h, withAny_some (x := .a) hA]

theorem exec_hashFinal_finish (h : s.block.ctx[c]? = some x) :
    exec (.hashFinal c) s = .next (s.finish (performHashFinal c x)) := by
  rw [exec, execHashFinal, withCtx_some h]

/-! ## The faults in their order: the phase, the length, the clauses of rule R42 (rules R115 to R117) -/

theorem performHashUpdate_inactive (h : x.phase ≠ .active) :
    performHashUpdate c x data = .fault (.hashCtxState c) := by
  rw [performHashUpdate, if_pos h]

theorem performHashUpdate_overflow (hactive : x.phase = .active)
    (hover : x.BITLEN.toNat + 8 * data.length > 2 ^ 64 - 1) :
    performHashUpdate c x data = .fault (.lengthOverflow c) := by
  rw [performHashUpdate, if_neg (not_not.2 hactive), if_pos hover]

theorem HashCtx.consistent_eq_false (h : ¬ x.Sound) : x.consistent = false :=
  Bool.eq_false_iff.2 (mt x.consistent_iff.1 h)

theorem performHashUpdate_broken (hactive : x.phase = .active)
    (hbound : x.BITLEN.toNat + 8 * data.length ≤ 2 ^ 64 - 1) (hbroken : ¬ x.Sound) :
    performHashUpdate c x data = .fault (.internalInvariant c) := by
  rw [performHashUpdate, if_neg (not_not.2 hactive), if_neg (Nat.not_lt.2 hbound), HashCtx.consistent_eq_false hbroken]
  rfl

theorem performHashFinal_inactive (h : x.phase ≠ .active) : performHashFinal c x = .fault (.hashCtxState c) := by
  rw [performHashFinal, if_pos h]

theorem performHashFinal_broken (hactive : x.phase = .active) (hbroken : ¬ x.Sound) :
    performHashFinal c x = .fault (.internalInvariant c) := by
  rw [performHashFinal, if_neg (not_not.2 hactive), HashCtx.consistent_eq_false hbroken]
  rfl

/-- Below the bound of rule R112 the 64-bit sum of rule R115 does not wrap. -/
theorem HashCtx.update_bitLen (hbound : x.BITLEN.toNat + 8 * data.length ≤ 2 ^ 64 - 1) :
    (x.update data).BITLEN.toNat = x.BITLEN.toNat + 8 * data.length := by
  show (x.BITLEN + BitVec.ofNat 64 (8 * data.length)).toNat = _
  rw [BitVec.toNat_add, BitVec.toNat_ofNat]
  omega

end Perform

/-- Settles O15: a context that is there is started from any phase, and the started context holds "". -/
theorem hashInitCompletes : Obligations.HashInitCompletes := by
  refine ⟨fun c s hc => ?_, fun c x s hx => ⟨exec_hashInit hx, x.init_absorbed⟩⟩
  rw [exec, execHashInit, withCtx_none hc, State.finish_fault]
  rfl

/-- Settles O16: `exec_hashUpdate` where rule R42 holds, the last test of `performHashUpdate` where it does not. -/
theorem hashUpdateCompletes : Obligations.HashUpdateCompletes := by
  intro c x data s hx hactive hA hbound
  refine ⟨fun hsound => ⟨exec_hashUpdate hx hactive hsound hA hbound, ?_, HashCtx.update_bitLen hbound,
    fun m habs => habs.update data hbound⟩, fun hbroken => ?_⟩
  · rw [HashCtx.update_phase, hactive]
  · rw [exec_hashUpdate_finish hx hA, performHashUpdate_broken hactive hbound hbroken, State.finish_fault]
    rfl

/-- Settles O17: `exec_hashFinal` where rule R42 holds, the last test of `performHashFinal` where it does not. -/
theorem hashFinalCompletes : Obligations.HashFinalCompletes := by
  intro c x s hx hactive
  refine ⟨fun hsound => ⟨exec_hashFinal hx hactive hsound, fun m habs => habs.digest⟩, fun hbroken => ?_⟩
  rw [exec_hashFinal_finish hx, performHashFinal_broken hactive hbroken, State.finish_fault]
  rfl

/-- Settles O19: the phase is the first test of both commands. -/
theorem inactiveContextFaults : Obligations.InactiveContextFaults := by
  intro c x s hx hphase
  have hinactive : x.phase ≠ .active := by
    rcases hphase with h | h <;> rw [h] <;> decide
  refine ⟨?_, fun data hA => ?_⟩
  · rw [exec_hashFinal_finish hx, performHashFinal_inactive hinactive, State.finish_fault]
    rfl
  · rw [exec_hashUpdate_finish hx hA, performHashUpdate_inactive hinactive, State.finish_fault]
    rfl

/-- Settles O20: on an Active context the length is the next test. -/
theorem lengthOverflowFaults : Obligations.LengthOverflowFaults := by
  intro c x data s hx hactive hA hover
  rw [exec_hashUpdate_finish hx hA, performHashUpdate_overflow hactive hover, State.finish_fault]
  rfl

/-! ## A session (rule R113) -/

/-- Context c is Active and has absorbed m. -/
def State.HasAbsorbed (s : State) (c : Nat) (m : ByteString) : Prop :=
  ∃ x, s.block.ctx[c]? = some x ∧ x.phase = .active ∧ x.Absorbed m

section Session
variable {s : State} {c : Nat} {m : ByteString}

theorem hashInit_next (hc : c < s.block.ctx.length) :
    ∃ t, exec (.hashInit c) s = .next t ∧ t.HasAbsorbed c [] ∧ t.block.FAULT = s.block.FAULT := by
  have hx : s.block.ctx[c]? = some s.block.ctx[c] := List.getElem?_eq_getElem hc
  refine ⟨_, exec_hashInit hx, ⟨_, State.withContext_getElem? hx _ _ _, ?_, ?_⟩, rfl⟩
  · exact HashCtx.init_phase _
  · exact HashCtx.init_absorbed _

theorem State.HasAbsorbed.setSlot (h : s.HasAbsorbed c m) (y : Slot) (v : ByteString) :
    State.HasAbsorbed { s with block := s.block.setSlot y v } c m := by
  simpa [State.HasAbsorbed] using h

/-- One piece: the bit count of the whole bounds that of the context, so HASH.UPDATE completes. -/
theorem State.HasAbsorbed.hashUpdate_next {data : ByteString} (h : s.HasAbsorbed c m) (hA : s.block.A = some data)
    (hbound : 8 * (m ++ data).length ≤ 2 ^ 64 - 1) :
    ∃ t, exec (.hashUpdate c) s = .next t ∧ t.HasAbsorbed c (m ++ data) ∧ t.block.FAULT = s.block.FAULT := by
  obtain ⟨x, hx, hactive, habs⟩ := h
  have hbits : x.BITLEN.toNat + 8 * data.length ≤ 2 ^ 64 - 1 := by
    rwa [habs.bitLen, ← Nat.mul_add, ← List.length_append]
  refine ⟨_, exec_hashUpdate hx hactive habs.sound hA hbits, ⟨_, State.withContext_getElem? hx _ _ _, ?_, ?_⟩, rfl⟩
  · rw [HashCtx.update_phase, hactive]
  · exact habs.update data hbits

theorem State.HasAbsorbed.hashPieces_next {pieces : List ByteString} (h : s.HasAbsorbed c m)
    (hbound : 8 * (m ++ pieces.flatten).length ≤ 2 ^ 64 - 1) :
    ∃ t, hashPieces c pieces s = .next t ∧ t.HasAbsorbed c (m ++ pieces.flatten) ∧ t.block.FAULT = s.block.FAULT := by
  induction pieces generalizing s m with
  | nil => exact ⟨s, rfl, by rwa [List.flatten_nil, List.append_nil], rfl⟩
  | cons v vs ih =>
    rw [List.flatten_cons, ← List.append_assoc] at hbound ⊢
    have hpiece : 8 * (m ++ v).length ≤ 2 ^ 64 - 1 := by
      rw [List.length_append] at hbound
      omega
    obtain ⟨t, ht, habs, hfault⟩ := (h.setSlot .a v).hashUpdate_next rfl hpiece
    obtain ⟨u, hu, habs', hfault'⟩ := ih habs hbound
    exact ⟨u, by rw [hashPieces, ht, andThen, hu], habs', hfault'.trans hfault⟩

theorem State.HasAbsorbed.hashFinal_next (h : s.HasAbsorbed c m) :
    ∃ t, exec (.hashFinal c) s = .next t ∧ t.block.R0 = some (sha256 m) ∧ t.block.R1 = none ∧
      t.block.STATUS = 0#32 ∧ t.block.FAULT = s.block.FAULT := by
  obtain ⟨x, hx, hactive, habs⟩ := h
  exact ⟨_, exec_hashFinal hx hactive habs.sound, congrArg some habs.digest, rfl, rfl, rfl⟩

end Session

/-- Settles O18: context c holds "" after HASH.INIT, the pieces so far during the updates, and all of them at
HASH.FINAL. -/
theorem incrementalEquivalence : Obligations.IncrementalEquivalence := by
  intro c pieces s hc hbound
  obtain ⟨s1, h1, habs1, hfault1⟩ := hashInit_next hc
  obtain ⟨s2, h2, habs2, hfault2⟩ := habs1.hashPieces_next (pieces := pieces) hbound
  obtain ⟨t, h3, hR0, hR1, hstatus, hfault3⟩ := habs2.hashFinal_next
  have hrun : hashSession c pieces s = .next t := by
    rw [hashSession, h1, andThen, h2, andThen, h3]
  exact ⟨t, hrun, hR0, hR1, hstatus, hfault3.trans (hfault2.trans hfault1)⟩

end Sys2Proof.Machine
end

section
/-! HMAC and the key derivation: the pads byte by byte (rules R140, R141), a block as a running XOR (rule R144), the
length of a derived key (rules R145, R148), and the two commands that read a pair of byte strings (rules R143, R147). -/

namespace Sys2Proof.Machine

/-! ## A block of the key derivation (rule R144) -/

/-- The last of n + 1 further iterations XORs the T that stands n + 1 places behind the first one. -/
theorem kdfIterate_succ_kdfT (P S U : ByteString) (i j n : Nat) :
    kdfIterate P (n + 1) (kdfT P S i j) U =
      xorBytes (kdfIterate P n (kdfT P S i j) U) (kdfT P S i (j + n + 1)) := by
  induction n generalizing j U with
  | zero => rfl
  | succ n ih =>
    calc kdfIterate P (n + 1 + 1) (kdfT P S i j) U
        = kdfIterate P (n + 1) (kdfT P S i (j + 1)) (xorBytes U (kdfT P S i (j + 1))) := rfl
      _ = xorBytes (kdfIterate P n (kdfT P S i (j + 1)) (xorBytes U (kdfT P S i (j + 1))))
            (kdfT P S i (j + 1 + n + 1)) := ih _ _
      _ = xorBytes (kdfIterate P (n + 1) (kdfT P S i j) U) (kdfT P S i (j + (n + 1) + 1)) := by
        rw [Nat.add_right_comm j 1 n]
        rfl

theorem kdfBlock_one (P S : ByteString) (i : Nat) : kdfBlock P S 1 i = hmac P (S ++ be32 (BitVec.ofNat 32 i)) := rfl

/-- Settles O24: T1 starts the accumulator of a block, and `kdfIterate_succ_kdfT` counts from T1. -/
theorem kdfBlockIsRunningXor : Obligations.KdfBlockIsRunningXor := by
  intro P S i
  refine ⟨kdfBlock_one P S i, fun n => ?_⟩
  have hlast := kdfIterate_succ_kdfT P S (kdfT P S i 0) i 0 n
  rwa [Nat.zero_add] at hlast

/-! ## The derived key (rules R145, R148) -/

theorem kdfIterate_length (P T : ByteString) {U : ByteString} (n : Nat) (h : U.length = 32) :
    (kdfIterate P n T U).length = 32 := by
  induction n generalizing T U with
  | zero => exact h
  | succ n ih => exact ih _ (by rw [xorBytes_length, h, hmac_length, Nat.min_self])

@[simp] theorem kdfBlock_length (P S : ByteString) (c i : Nat) : (kdfBlock P S c i).length = 32 :=
  kdfIterate_length P _ _ (hmac_length _ _)

theorem pbkdf2_thirtyTwo (P S : ByteString) (c : Nat) : pbkdf2 P S c 32 = kdfBlock P S c 1 := by
  have hblocks : pbkdf2 P S c 32 = (kdfBlock P S c 1 ++ []).take 32 := rfl
  rw [hblocks, List.append_nil, List.take_of_length_le (kdfBlock_length P S c 1).le]

/-- The blocks hold 32 * ceil(N / 32) bytes, which is at least N. -/
theorem pbkdf2_length (P S : ByteString) (c N : Nat) : (pbkdf2 P S c N).length = N := by
  simp only [pbkdf2, List.length_take, List.length_flatten, List.map_map, Function.comp_def, kdfBlock_length,
    List.map_const', List.length_range, List.sum_replicate, smul_eq_mul]
  omega

/-- Settles O25: one block is 32 bytes, and a block of one iteration is its T1. -/
theorem pbkdf2Shape : Obligations.Pbkdf2Shape := by
  intro P S c N
  refine ⟨pbkdf2_thirtyTwo P S c, pbkdf2_length P S c N, ?_⟩
  rw [pbkdf2_thirtyTwo, kdfBlock_one]
  rfl

/-! ## The commands (rules R143, R147) -/

section Commands
variable {s : State}

/-- A command that reads A and B, of any lengths, faults ReadUnwritten where one of them is `none` (rules R34, R84). -/
theorem exec_pair_unwritten {i : Instr} (hctx : i.ctxIndex = none)
    (hshapes : operandShapes i = [(.a, none), (.b, none)]) (h : s.block.A = none ∨ s.block.B = none) :
    exec i s = .next (s.afterFault 2) := by
  have hfault : ∃ x, firstOperandFault s.block (operandShapes i) = some (.readUnwritten x) := by
    rw [hshapes]
    cases hA : s.block.A with
    | none => exact ⟨.a, by simp [firstOperandFault, operandFault, Block.slot, hA]⟩
    | some v =>
      have hB : s.block.B = none := h.resolve_left (by simp [hA])
      exact ⟨.b, by simp [firstOperandFault, operandFault, Block.slot, hA, hB]⟩
  obtain ⟨x, hx⟩ := hfault
  rw [exec_operandFault (fun c hc => by simp [hctx] at hc) hx, State.finish_fault]
  rfl

theorem exec_hmac {key message : ByteString} (hA : s.block.A = some key) (hB : s.block.B = some message) :
    exec .hmac s = .next (s.afterOk (some (hmac key message)) none) := by
  rw [exec, execHmac, withAny_some (x := .a) hA, withAny_some (x := .b) hB]
  rfl

theorem exec_kdf {password salt : ByteString} (hA : s.block.A = some password) (hB : s.block.B = some salt) :
    exec .kdf s = .next (s.afterOk (some (deriveKey s.cfg password salt)) none) := by
  rw [exec, execKdf, withAny_some (x := .a) hA, withAny_some (x := .b) hB]
  rfl

end Commands

/-- Settles O21: HMAC reads its two operands and ends with `hmac` of them. -/
theorem hmacCompletes : Obligations.HmacCompletes :=
  ⟨fun _ => exec_pair_unwritten rfl rfl, fun _ _ _ => exec_hmac⟩

/-- Settles O23: KDF reads its two operands and ends with the key derived from them. -/
theorem kdfCompletes : Obligations.KdfCompletes :=
  ⟨fun _ => exec_pair_unwritten rfl rfl, fun _ _ _ => exec_kdf⟩

/-! ## The pads (rules R140, R141) -/

/-- XOR with n copies of one byte is XOR of every byte with it. -/
theorem xorBytes_bytesOf {b : ByteString} {n : Nat} (v : Byte) (h : b.length = n) :
    xorBytes b (bytesOf n v) = b.map (· ^^^ v) := by
  subst h
  exact List.ext_getElem (by simp) (by simp [xorBytes, bytesOf])

theorem hmacKeyBlock_eq (key : ByteString) :
    hmacKeyBlock key = if key.length ≤ 64 then key ++ List.replicate (64 - key.length) 0#8
      else sha256 key ++ List.replicate 32 0#8 := by
  rw [hmacKeyBlock]
  split_ifs with hlong hshort hshort
  · omega
  · rw [sha256_length]
    rfl
  · rfl
  · omega

/-- Settles O22: the key block has 64 bytes, so each pad is its XOR with one byte throughout. -/
theorem hmacPads : Obligations.HmacPads := by
  intro key k0
  have hk0 : hmacKeyBlock key = k0 := hmacKeyBlock_eq key
  have hlen := hmacKeyBlock_length key
  rw [← hk0]
  exact ⟨xorBytes_bytesOf _ hlen, xorBytes_bytesOf _ hlen, hlen⟩

end Sys2Proof.Machine
end

section
/-! The block transform: the bits of the permutation (rules R174, R176), the layers as inverses of each other (rule
R177), the transform as the inverse of its inverse (rule R181), and the two commands (rules R182, R183). -/

namespace Sys2Proof.Machine

/-! ## The permutation, bit by bit (rules R174, R176) -/

theorem bitAt_perm (cfg : Config) (b : ByteString) {p : Nat} (hp : p < 128) :
    bitAt (perm cfg b) p = bitAt b (pboxAt cfg p) := bitAt_blockOfBits _ p hp

theorem bitAt_invPerm (cfg : Config) (b : ByteString) {p : Nat} (hp : p < 128) :
    bitAt (invPerm cfg b) p = bitAt b (invPboxAt cfg p) := bitAt_blockOfBits _ p hp

theorem pboxAt_eq_getElem (cfg : Config) {p : Nat} (hp : p < 128) : pboxAt cfg p = (cfg.pbox[p]).val := by
  simp only [pboxAt, Nat.mod_eq_of_lt hp]

/-- Settles O27: both layers gather, and the position that `inv_perm` reads is the one that `PBOX` sends to p. -/
theorem permutationGathers : Obligations.PermutationGathers := by
  intro cfg b p hp
  obtain ⟨hq, hpbox⟩ := pboxAt_invPboxAt cfg p hp
  refine ⟨by rw [bitAt_perm cfg b hp, pboxAt_eq_getElem cfg hp], ⟨invPboxAt cfg p, hq⟩, ?_, bitAt_invPerm cfg b hp⟩
  exact (pboxAt_eq_getElem cfg hq).symm.trans hpbox

/-! ## The layers (rule R177) -/

@[simp] theorem invSub_sub (cfg : Config) (b : ByteString) : invSub cfg (sub cfg b) = b :=
  List.map_map.trans (List.map_id'' (invSboxAt_sboxAt cfg) b)

@[simp] theorem sub_invSub (cfg : Config) (b : ByteString) : sub cfg (invSub cfg b) = b :=
  List.map_map.trans (List.map_id'' (sboxAt_invSboxAt cfg) b)

theorem invPerm_perm (cfg : Config) {b : ByteString} (h : b.length = 16) : invPerm cfg (perm cfg b) = b := by
  refine block_ext (invPerm_length cfg _) h fun p hp => ?_
  obtain ⟨hq, hpbox⟩ := pboxAt_invPboxAt cfg p hp
  rw [bitAt_invPerm cfg _ hp, bitAt_perm cfg _ hq, hpbox]

theorem perm_invPerm (cfg : Config) {b : ByteString} (h : b.length = 16) : perm cfg (invPerm cfg b) = b := by
  refine block_ext (perm_length cfg _) h fun p hp => ?_
  rw [bitAt_perm cfg _ hp, bitAt_invPerm cfg _ (pboxAt_lt cfg p), invPboxAt_pboxAt cfg p hp]

/-- Settles O28: the tables are inverse to each other, a block is its 128 bits, and XOR is its own inverse. -/
theorem layersInvert : Obligations.LayersInvert := by
  intro cfg b k hb hk
  exact ⟨invSub_sub cfg b, sub_invSub cfg b, invPerm_perm cfg hb, perm_invPerm cfg hb,
    xorBytes_cancel b k (hb.trans hk.symm).le⟩

/-! ## The transform (rule R181) -/

/-- One round of the transform: substitute, permute, XOR with the subkey (rule R179). -/
def cipherRound (cfg : Config) (k b : ByteString) : ByteString := xorBytes (perm cfg (sub cfg b)) k

/-- What undoes a round: XOR with the subkey, then the inverse layers (rule R180). -/
def cipherUnround (cfg : Config) (k c : ByteString) : ByteString := invSub cfg (invPerm cfg (xorBytes c k))

theorem processBlock_eq_rounds (cfg : Config) (K b : ByteString) :
    processBlock cfg K b = cipherRound cfg (subkey2 K) (cipherRound cfg (subkey1 K) b) := rfl

theorem invertBlock_eq_unrounds (cfg : Config) (K c : ByteString) :
    invertBlock cfg K c = cipherUnround cfg (subkey1 K) (cipherUnround cfg (subkey2 K) c) := rfl

section Rounds
variable (cfg : Config) {k b : ByteString}

theorem cipherRound_length (hk : k.length = 16) : (cipherRound cfg k b).length = 16 := by
  rw [cipherRound, xorBytes_length, perm_length, hk, Nat.min_self]

theorem cipherUnround_length : (cipherUnround cfg k b).length = 16 := by
  rw [cipherUnround, invSub_length, invPerm_length]

theorem cipherUnround_cipherRound (hk : k.length = 16) (hb : b.length = 16) :
    cipherUnround cfg k (cipherRound cfg k b) = b := by
  have hxor := xorBytes_cancel (perm cfg (sub cfg b)) k (by rw [perm_length, hk])
  rw [cipherUnround, cipherRound, hxor, invPerm_perm cfg (by rw [sub_length, hb]), invSub_sub]

theorem cipherRound_cipherUnround (hk : k.length = 16) (hb : b.length = 16) :
    cipherRound cfg k (cipherUnround cfg k b) = b := by
  have hlen : (xorBytes b k).length = 16 := by rw [xorBytes_length, hb, hk, Nat.min_self]
  rw [cipherRound, cipherUnround, sub_invSub, perm_invPerm cfg hlen, xorBytes_cancel b k (hb.trans hk.symm).le]

end Rounds

theorem invertBlock_processBlock (cfg : Config) {K b : ByteString} (hK : K.length = 32) (hb : b.length = 16) :
    invertBlock cfg K (processBlock cfg K b) = b := by
  rw [processBlock_eq_rounds, invertBlock_eq_unrounds,
    cipherUnround_cipherRound cfg (subkey2_length hK) (cipherRound_length cfg (subkey1_length hK)),
    cipherUnround_cipherRound cfg (subkey1_length hK) hb]

theorem processBlock_invertBlock (cfg : Config) {K b : ByteString} (hK : K.length = 32) (hb : b.length = 16) :
    processBlock cfg K (invertBlock cfg K b) = b := by
  rw [processBlock_eq_rounds, invertBlock_eq_unrounds,
    cipherRound_cipherUnround cfg (subkey1_length hK) (cipherUnround_length cfg),
    cipherRound_cipherUnround cfg (subkey2_length hK) hb]

/-- Settles O29: each round is undone by its inverse, the last round first. -/
theorem blockInvertibility : Obligations.BlockInvertibility :=
  fun cfg _ _ hK hb => ⟨invertBlock_processBlock cfg hK hb, processBlock_invertBlock cfg hK hb⟩

/-! ## The commands (rules R182, R183) -/

theorem subkey1_eq_take (K : ByteString) : subkey1 K = K.take 16 := rfl

theorem subkey2_eq_drop {K : ByteString} (h : K.length = 32) : subkey2 K = K.drop 16 := by
  rw [subkey2, slice, List.take_of_length_le h.le]

section Commands
variable {s : State} {K b : ByteString}

theorem exec_blkEnc (hA : s.block.A = some K) (hK : K.length = 32) (hB : s.block.B = some b) (hb : b.length = 16) :
    exec .blkEnc s = .next (s.afterOk (some (processBlock s.cfg K b)) none) := by
  rw [exec, execBlkEnc, withFixed_some (x := .a) hA hK, withFixed_some (x := .b) hB hb]
  rfl

theorem exec_blkDec (hA : s.block.A = some K) (hK : K.length = 32) (hB : s.block.B = some b) (hb : b.length = 16) :
    exec .blkDec s = .next (s.afterOk (some (invertBlock s.cfg K b)) none) := by
  rw [exec, execBlkDec, withFixed_some (x := .a) hA hK, withFixed_some (x := .b) hB hb]
  rfl

end Commands

/-- Settles O26: the commands read their two operands and end with the transform, whose subkeys are the key's halves. -/
theorem blockCommandsComplete : Obligations.BlockCommandsComplete := by
  intro K b s hA hK hB hb
  rw [exec_blkEnc hA hK hB hb, exec_blkDec hA hK hB hb, processBlock, invertBlock, subkey1_eq_take,
    subkey2_eq_drop hK]
  exact ⟨rfl, rfl⟩

end Sys2Proof.Machine
end

section
/-! PKCS#7 padding: stripping gives back what was padded, and nothing else passes its test (rules R201, R202). -/

namespace Sys2Proof.Machine

/-- p is m with k bytes of the value k behind it, k in 1..16: the form that both padding and its check describe. -/
def PaddedBy (m p : ByteString) (k : Nat) : Prop := 1 ≤ k ∧ k ≤ 16 ∧ p = m ++ bytesOf k (BitVec.ofNat 8 k)

/-- An aligned string is m padded exactly when it is m behind which some k in 1..16 stands k times: alignment leaves one
such k (rule R201). -/
theorem pkcs7Pad_eq_iff {m p : ByteString} (halign : p.length % 16 = 0) :
    pkcs7Pad m = p ↔ ∃ k, PaddedBy m p k := by
  constructor
  · rintro rfl
    exact ⟨16 - m.length % 16, by omega, by omega, rfl⟩
  · rintro ⟨k, hlow, hhigh, rfl⟩
    rw [List.length_append, bytesOf_length] at halign
    have hk : 16 - m.length % 16 = k := by omega
    rw [pkcs7Pad, hk]

theorem PaddedBy.last {m p : ByteString} {k : Nat} (h : PaddedBy m p k) :
    p.getD (p.length - 1) 0 = BitVec.ofNat 8 k := by
  obtain ⟨hlow, -, rfl⟩ := h
  rw [List.length_append, bytesOf_length, List.getD_append_right _ _ _ _ (by omega), bytesOf,
    List.getD_replicate _ (by omega)]

theorem PaddedBy.unpad_eq_ok {m p : ByteString} {k : Nat} (h : PaddedBy m p k) : pkcs7Unpad p = .ok m := by
  have hlast := h.last
  obtain ⟨hlow, hhigh, rfl⟩ := h
  have hk : (BitVec.ofNat 8 k).toNat = k := Nat.mod_eq_of_lt (by omega)
  have hm : (m ++ bytesOf k (BitVec.ofNat 8 k)).length - k = m.length := by simp
  have hvalid : paddingValid (m ++ bytesOf k (BitVec.ofNat 8 k)) = true := by
    simp only [paddingValid, hlast, hk, hm, List.drop_left]
    simp [hlow, hhigh, bytesOf]
  rw [pkcs7Unpad, if_pos hvalid, hlast, hk, hm, List.take_left]

/-- What passes the check of rule R202 has the form of a padded string. -/
theorem paddedBy_of_pkcs7Unpad {m p : ByteString} (hlen : 16 ≤ p.length) (h : pkcs7Unpad p = .ok m) :
    ∃ k, PaddedBy m p k := by
  unfold pkcs7Unpad at h
  split at h
  · next hvalid =>
    cases h
    simp only [paddingValid, Bool.and_eq_true, decide_eq_true_eq, List.all_eq_true, beq_iff_eq] at hvalid
    generalize p.getD (p.length - 1) 0 = v at hvalid ⊢
    obtain ⟨⟨hlow, hhigh⟩, hall⟩ := hvalid
    have htail : p.drop (p.length - v.toNat) = bytesOf v.toNat v :=
      List.eq_replicate_iff.2 ⟨by rw [List.length_drop]; omega, hall⟩
    refine ⟨v.toNat, hlow, hhigh, ?_⟩
    rw [BitVec.ofNat_toNat, BitVec.setWidth_eq, ← htail, List.take_append_drop]
  · cases h

theorem pkcs7Unpad_eq_ok_iff {m p : ByteString} (hlen : 16 ≤ p.length) (halign : p.length % 16 = 0) :
    pkcs7Unpad p = .ok m ↔ pkcs7Pad m = p := by
  rw [pkcs7Pad_eq_iff halign]
  exact ⟨paddedBy_of_pkcs7Unpad hlen, fun ⟨_, h⟩ => h.unpad_eq_ok⟩

theorem pkcs7Unpad_of_not_padded {p : ByteString} (hlen : 16 ≤ p.length) (halign : p.length % 16 = 0)
    (h : ∀ m, pkcs7Pad m ≠ p) : pkcs7Unpad p = .error .invalidPadding := by
  cases hp : pkcs7Unpad p with
  | ok m => exact absurd ((pkcs7Unpad_eq_ok_iff hlen halign).1 hp) (h m)
  | error e => rw [pkcs7Unpad_error hp]

theorem pkcs7Pad_aligned (m : ByteString) : 16 ≤ (pkcs7Pad m).length ∧ (pkcs7Pad m).length % 16 = 0 := by
  rw [pkcs7Pad_length]
  omega

/-- Padding is undone by stripping, for every byte string (rule R202). -/
@[simp] theorem pkcs7Unpad_pkcs7Pad (m : ByteString) : pkcs7Unpad (pkcs7Pad m) = .ok m :=
  (pkcs7Unpad_eq_ok_iff (pkcs7Pad_aligned m).1 (pkcs7Pad_aligned m).2).2 rfl

/-- Settles O30: padding and the check describe the same strings, those of the form `PaddedBy`. -/
theorem paddingCheckedExactly : Obligations.PaddingCheckedExactly := fun _ hlen halign =>
  ⟨fun _ => pkcs7Unpad_eq_ok_iff hlen halign, pkcs7Unpad_of_not_padded hlen halign⟩

end Sys2Proof.Machine
end

section
/-! The operands of the four mode commands, read once: what each command ends with when its key has 32 bytes and its IV
16 (rules R84, R205, R206, R210, R211). -/

namespace Sys2Proof.Machine

/-- The slots hold what a mode command asks for: a 32-byte key, a 16-byte IV and data (rule R84). -/
structure State.ModeOperands (s : State) (K IV D : ByteString) : Prop where
  key : s.block.A = some K
  keyLength : K.length = 32
  iv : s.block.B = some IV
  ivLength : IV.length = 16
  data : s.block.C = some D

section Commands
variable {s : State} {K IV D : ByteString}

theorem State.ModeOperands.read (h : s.ModeOperands K IV D) (k : ByteString → ByteString → ByteString → CmdOutcome) :
    withModeOperands s.block k = k K IV D := by
  rw [withModeOperands, withFixed_some (x := .a) h.key h.keyLength, withFixed_some (x := .b) h.iv h.ivLength,
    withAny_some (x := .c) h.data]

/-- A result R0 copied to slot C is data under the same key and IV (rule R88). -/
theorem State.ModeOperands.afterOk_replaceSlot (h : s.ModeOperands K IV D) (v : ByteString) :
    ((s.afterOk (some v) none).replaceSlot .c (some v)).ModeOperands K IV v :=
  ⟨h.key, h.keyLength, h.iv, h.ivLength, rfl⟩

theorem State.afterOk_replaceSlot_cfg (s : State) (v : ByteString) :
    ((s.afterOk (some v) none).replaceSlot .c (some v)).cfg = s.cfg := rfl

theorem exec_cbcEnc (h : s.ModeOperands K IV D) :
    exec .cbcEnc s = .next (s.afterOk (some (cbcEncrypt s.cfg K IV D)) none) := by
  rw [exec, execCbcEnc, h.read]
  rfl

theorem exec_cbcDec (h : s.ModeOperands K IV D) :
    exec .cbcDec s = .next (s.finish (okOrErr (cbcDecrypt s.cfg K IV D))) := by
  rw [exec, execCbcDec, h.read]

theorem exec_ctrEnc (h : s.ModeOperands K IV D) :
    exec .ctrEnc s = .next (s.finish (okOrFault (ctrXcrypt s.cfg K IV D))) := by
  rw [exec, execCtrEnc, h.read]

theorem exec_ctrDec_short (h : s.ModeOperands K IV D) (hcheck : s.cfg.ctrDecMinLenCheck = true) (hD : D.length < 16) :
    exec .ctrDec s = .next (s.afterError 1#32) := by
  rw [exec, execCtrDec, h.read, if_pos ⟨hcheck, hD⟩]
  rfl

theorem exec_ctrDec_long (h : s.ModeOperands K IV D) (hD : s.cfg.ctrDecMinLenCheck = false ∨ 16 ≤ D.length) :
    exec .ctrDec s = exec .ctrEnc s := by
  have hpass : ¬ (s.cfg.ctrDecMinLenCheck = true ∧ D.length < 16) := by
    rintro ⟨hcheck, hshort⟩
    rcases hD with hD | hD
    · simp [hD] at hcheck
    · omega
  rw [exec_ctrEnc h, exec, execCtrDec, h.read, if_neg hpass]

end Commands

end Sys2Proof.Machine
end

section
/-! The CBC mode: each block in terms of the blocks before it (rules R203, R204), decryption as the inverse of encryption
(rule R206), and the two commands. -/

namespace Sys2Proof.Machine

/-! ## Blocks of a byte string (rule R200) -/

/-- The block before block i of s, which is iv before block 0 (rules R203, R204). -/
def blockBefore (iv s : ByteString) (i : Nat) : ByteString := if i = 0 then iv else slice s (16 * (i - 1)) (16 * i)

/-- With one block more in front, that block stands before the first one of the rest. -/
theorem blockBefore_append {c : ByteString} (hc : c.length = 16) (iv s : ByteString) (i : Nat) :
    blockBefore iv (c ++ s) (i + 1) = blockBefore c s i := by
  cases i with
  | zero => exact slice_first c s 16 hc
  | succ i => exact slice_behind c s 16 _ _ hc (by omega)

theorem slice_append_succ {c : ByteString} (hc : c.length = 16) (s : ByteString) (i : Nat) :
    slice (c ++ s) (16 * (i + 1)) (16 * (i + 1) + 16) = slice s (16 * i) (16 * i + 16) :=
  slice_behind c s 16 _ _ hc (by omega)

theorem blocks_getElem? {m : ByteString} {i : Nat} (h : i < m.length / 16) :
    (blocks m)[i]? = some (slice m (16 * i) (16 * i + 16)) :=
  splitEvery_getElem? 16 _ m i h

@[simp] theorem blocks_length (m : ByteString) : (blocks m).length = m.length / 16 := splitEvery_length _ _ m

theorem length_of_mem_blocks {m b : ByteString} (h : b ∈ blocks m) : b.length = 16 :=
  splitEvery_piece_length (Nat.mul_div_le _ 16) b h

theorem blocks_append {c : ByteString} (hc : c.length = 16) (s : ByteString) : blocks (c ++ s) = c :: blocks s := by
  have hcount : (c ++ s).length / 16 = s.length / 16 + 1 := by
    rw [List.length_append, hc]
    omega
  rw [blocks, hcount, splitEvery, List.take_left' hc, List.drop_left' hc, blocks]

/-! ## Encryption (rule R203) -/

section Encrypt
variable (cfg : Config) {K : ByteString} (hK : K.length = 32)
include hK

theorem cbcEncryptBlocks_length (iv : ByteString) (qs : List ByteString) :
    (cbcEncryptBlocks cfg K iv qs).length = 16 * qs.length := by
  induction qs generalizing iv with
  | nil => rfl
  | cons q qs ih =>
    rw [cbcEncryptBlocks, List.length_append, processBlock_length cfg _ hK, ih, List.length_cons]
    omega

theorem cbcEncryptBlocks_block (iv : ByteString) {qs : List ByteString} {q : ByteString} {i : Nat}
    (hq : qs[i]? = some q) :
    slice (cbcEncryptBlocks cfg K iv qs) (16 * i) (16 * i + 16) =
      processBlock cfg K (xorBytes q (blockBefore iv (cbcEncryptBlocks cfg K iv qs) i)) := by
  induction qs generalizing iv i with
  | nil => cases hq
  | cons p ps ih =>
    have hc := processBlock_length cfg (xorBytes p iv) hK
    rw [cbcEncryptBlocks]
    cases i with
    | zero =>
      cases hq
      exact slice_first _ _ 16 hc
    | succ i => rw [slice_append_succ hc, blockBefore_append hc, ih _ hq]

theorem cbcEncrypt_length (IV P : ByteString) : (cbcEncrypt cfg K IV P).length = 16 * (P.length / 16 + 1) := by
  rw [cbcEncrypt, cbcEncryptBlocks_length cfg hK, blocks_length, pkcs7Pad_length, Nat.mul_div_cancel_left _ (by omega)]

/-- Decrypting the encrypted blocks, each chained to the one before, gives the blocks back (rule R206). -/
theorem cbcDecryptBlocks_cbcEncryptBlocks {iv : ByteString} (hiv : iv.length = 16) {qs : List ByteString}
    (hqs : ∀ q ∈ qs, q.length = 16) :
    cbcDecryptBlocks cfg K iv (blocks (cbcEncryptBlocks cfg K iv qs)) = qs.flatten := by
  induction qs generalizing iv with
  | nil =>
    rw [cbcEncryptBlocks]
    rfl
  | cons q qs ih =>
    obtain ⟨hq, hrest⟩ := List.forall_mem_cons.1 hqs
    have hxor : (xorBytes q iv).length = 16 := by rw [xorBytes_length, hq, hiv, Nat.min_self]
    have hc := processBlock_length cfg (xorBytes q iv) hK
    rw [cbcEncryptBlocks, blocks_append hc, cbcDecryptBlocks, invertBlock_processBlock cfg hK hxor,
      xorBytes_cancel q iv (hq.trans hiv.symm).le, ih hc hrest, List.flatten_cons]

theorem cbcDecrypt_cbcEncrypt {IV : ByteString} (hIV : IV.length = 16) (P : ByteString) :
    cbcDecrypt cfg K IV (cbcEncrypt cfg K IV P) = .ok P := by
  have hlen := cbcEncrypt_length cfg hK IV P
  rw [cbcDecrypt, if_neg (by omega), cbcEncrypt,
    cbcDecryptBlocks_cbcEncryptBlocks cfg hK hIV fun _ => length_of_mem_blocks,
    blocks_flatten _ (pkcs7Pad_aligned P).2, pkcs7Unpad_pkcs7Pad]

end Encrypt

/-! ## Decryption (rule R204) -/

section Decrypt
variable (cfg : Config) (K : ByteString) {iv : ByteString} {cs : List ByteString}

theorem cbcDecryptBlocks_length (hiv : iv.length = 16) (hcs : ∀ c ∈ cs, c.length = 16) :
    (cbcDecryptBlocks cfg K iv cs).length = 16 * cs.length := by
  induction cs generalizing iv with
  | nil => rfl
  | cons c cs ih =>
    obtain ⟨hc, hrest⟩ := List.forall_mem_cons.1 hcs
    rw [cbcDecryptBlocks, List.length_append, xorBytes_length, invertBlock_length, hiv, ih hc hrest, List.length_cons]
    omega

theorem cbcDecryptBlocks_block (hiv : iv.length = 16) (hcs : ∀ c ∈ cs, c.length = 16) {c : ByteString} {i : Nat}
    (hc : cs[i]? = some c) :
    slice (cbcDecryptBlocks cfg K iv cs) (16 * i) (16 * i + 16) =
      xorBytes (invertBlock cfg K c) (blockBefore iv cs.flatten i) := by
  induction cs generalizing iv i with
  | nil => cases hc
  | cons d ds ih =>
    obtain ⟨hd, hrest⟩ := List.forall_mem_cons.1 hcs
    have hout : (xorBytes (invertBlock cfg K d) iv).length = 16 := by
      rw [xorBytes_length, invertBlock_length, hiv, Nat.min_self]
    rw [cbcDecryptBlocks]
    cases i with
    | zero =>
      cases hc
      exact slice_first _ _ 16 hout
    | succ i => rw [slice_append_succ hout, List.flatten_cons, blockBefore_append hd, ih hd hrest hc]

end Decrypt

/-! ## The commands (rules R205, R206) -/

/-- Settles O31: `cbcEncryptBlocks_block` at the blocks of the padded plaintext. -/
theorem cbcEncCompletes : Obligations.CbcEncCompletes := by
  intro K IV P s hA hK hB hIV hC
  refine ⟨cbcEncrypt s.cfg K IV P, exec_cbcEnc ⟨hA, hK, hB, hIV, hC⟩, cbcEncrypt_length s.cfg hK IV P, fun i hi => ?_⟩
  have hblock : i < (pkcs7Pad P).length / 16 := by
    rw [pkcs7Pad_length]
    omega
  exact cbcEncryptBlocks_block s.cfg hK IV (blocks_getElem? hblock)

/-- Settles O32: the length test decides first, then the padding test decides on the decrypted blocks. -/
theorem cbcDecOutcomes : Obligations.CbcDecOutcomes := by
  intro K IV C s hA hK hB hIV hC
  rw [exec_cbcDec ⟨hA, hK, hB, hIV, hC⟩, cbcDecrypt]
  refine ⟨fun hbad => ?_, fun hlen halign => ?_⟩
  · rw [if_pos hbad]
    rfl
  · have hplen : (cbcDecryptBlocks s.cfg K IV (blocks C)).length = C.length := by
      rw [cbcDecryptBlocks_length s.cfg K hIV fun _ => length_of_mem_blocks, blocks_length]
      omega
    rw [if_neg (by omega)]
    refine ⟨cbcDecryptBlocks s.cfg K IV (blocks C), hplen, fun i hi => ?_, fun m hm => ?_, fun hm => ?_⟩
    · rw [cbcDecryptBlocks_block s.cfg K hIV (fun _ => length_of_mem_blocks) (blocks_getElem? hi),
        blocks_flatten C halign, blockBefore]
    · rw [← hm, pkcs7Unpad_pkcs7Pad]
      rfl
    · rw [pkcs7Unpad_of_not_padded (by omega) (by omega) hm]
      rfl

/-- Settles O33: the blocks come back by rule R181, and the two commands are the two functions on the same key and IV. -/
theorem cbcRoundTrip : Obligations.CbcRoundTrip := by
  refine ⟨fun cfg K IV P hK hIV => cbcDecrypt_cbcEncrypt cfg hK hIV P, fun K IV P s hA hK hB hIV hC => ?_⟩
  have hops : s.ModeOperands K IV P := ⟨hA, hK, hB, hIV, hC⟩
  have hdec := exec_cbcDec (hops.afterOk_replaceSlot (cbcEncrypt s.cfg K IV P))
  rw [State.afterOk_replaceSlot_cfg, cbcDecrypt_cbcEncrypt s.cfg hK hIV P] at hdec
  rw [exec_cbcEnc hops]
  exact ⟨_, hdec, rfl, rfl⟩

end Sys2Proof.Machine
end

section
/-! The CTR mode: the transform is the data XOR one keystream, or one fault (rules R207 to R209), and the two commands
(rules R210, R211). -/

namespace Sys2Proof.Machine

/-! ## Counter blocks (rule R208) -/

/-- The counter of block j stays in its range, or may wrap (rule R208). -/
def CounterInRange (cfg : Config) (ctr0 j : Nat) : Prop := ctr0 + j ≤ 2 ^ 32 - 1 ∨ cfg.ctrWrap = true

section Counter
variable {cfg : Config} {ctr0 j : Nat}

theorem CounterInRange.of_le (h : CounterInRange cfg ctr0 j) {i : Nat} (hi : i ≤ j) : CounterInRange cfg ctr0 i :=
  h.imp_left (Nat.add_le_add_left hi ctr0).trans

theorem counterBlock_inRange (h : CounterInRange cfg ctr0 j) (nonce : ByteString) :
    counterBlock cfg nonce ctr0 j = .ok (nonce ++ be32 (BitVec.ofNat 32 (ctr0 + j))) := by
  have hpass : ¬ (ctr0 + j > 2 ^ 32 - 1 ∧ cfg.ctrWrap = false) := by
    rintro ⟨hpast, hwrap⟩
    rcases h with h | h
    · omega
    · simp [hwrap] at h
  rw [counterBlock, counterValue, if_neg hpass]

theorem counterBlock_overflow (h : ¬ CounterInRange cfg ctr0 j) (nonce : ByteString) :
    counterBlock cfg nonce ctr0 j = .error (.counterOverflow j) := by
  rw [CounterInRange, not_or, Nat.not_le, Bool.not_eq_true] at h
  rw [counterBlock, counterValue, if_pos h]

end Counter

/-! ## The keystream (rule R209) -/

/-- Keystream block j: the transform of counter block j (rules R208, R209). -/
def ctrKeystreamBlock (cfg : Config) (K nonce : ByteString) (ctr0 j : Nat) : ByteString :=
  processBlock cfg K (nonce ++ be32 (BitVec.ofNat 32 (ctr0 + j)))

/-- n keystream blocks, from block j on. -/
def ctrKeystream (cfg : Config) (K nonce : ByteString) (ctr0 : Nat) : Nat → Nat → ByteString
  | 0, _ => []
  | n + 1, j => ctrKeystreamBlock cfg K nonce ctr0 j ++ ctrKeystream cfg K nonce ctr0 n (j + 1)

/-- `xor_prefix` is the XOR that stops with the data (rule R10). -/
theorem xorPrefix_eq_xorBytes (d k : ByteString) : xorPrefix d k = xorBytes d k := by
  induction d generalizing k with
  | nil => rfl
  | cons x d ih =>
    cases k with
    | nil => rfl
    | cons y k => exact congrArg ((x ^^^ y) :: ·) (ih k)

/-- XOR with two strings, one behind the other, goes part by part. -/
theorem xorBytes_append_right (d a b : ByteString) :
    xorBytes d (a ++ b) = xorBytes (d.take a.length) a ++ xorBytes (d.drop a.length) b := by
  induction a generalizing d with
  | nil => rfl
  | cons y a ih =>
    cases d with
    | nil => rfl
    | cons x d => exact congrArg ((x ^^^ y) :: ·) (ih d)

theorem xorBytes_getD {a b : ByteString} {i : Nat} (ha : i < a.length) (hb : i < b.length) :
    (xorBytes a b).getD i 0 = a.getD i 0 ^^^ b.getD i 0 := by
  have hi : i < (xorBytes a b).length := by
    rw [xorBytes_length]
    omega
  rw [List.getD_eq_getElem _ _ hi, List.getD_eq_getElem _ _ ha, List.getD_eq_getElem _ _ hb]
  exact List.getElem_zipWith

section Keystream
variable (cfg : Config) {K : ByteString} (nonce : ByteString) (ctr0 : Nat) (hK : K.length = 32)
include hK

theorem ctrKeystreamBlock_length (j : Nat) : (ctrKeystreamBlock cfg K nonce ctr0 j).length = 16 :=
  processBlock_length cfg _ hK

theorem ctrKeystream_length (n j : Nat) : (ctrKeystream cfg K nonce ctr0 n j).length = 16 * n := by
  induction n generalizing j with
  | zero => rfl
  | succ n ih =>
    rw [ctrKeystream, List.length_append, ctrKeystreamBlock_length cfg nonce ctr0 hK, ih]
    omega

theorem ctrKeystream_getD {n i : Nat} (j : Nat) (hi : i < 16 * n) :
    (ctrKeystream cfg K nonce ctr0 n j).getD i 0 =
      (ctrKeystreamBlock cfg K nonce ctr0 (j + i / 16)).getD (i % 16) 0 := by
  induction n generalizing i j with
  | zero => omega
  | succ n ih =>
    have hblock := ctrKeystreamBlock_length cfg nonce ctr0 hK j
    rw [ctrKeystream]
    rcases Nat.lt_or_ge i 16 with hlt | hge
    · rw [List.getD_append _ _ _ _ (by omega), Nat.div_eq_of_lt hlt, Nat.mod_eq_of_lt hlt, Nat.add_zero]
    · rw [List.getD_append_right _ _ _ _ (by omega), hblock, ih (j + 1) (by omega), ← Nat.mod_eq_sub_mod hge,
        show j + 1 + (i - 16) / 16 = j + i / 16 by omega]

/-- The loop of rule R209 is the data XOR the keystream, when its last counter is in range. -/
theorem ctrBlocks_eq_ok {n : Nat} (j : Nat) {d : ByteString} (hrange : CounterInRange cfg ctr0 (j + n - 1))
    (hd : d.length ≤ 16 * n) :
    ctrBlocks cfg K nonce ctr0 n j d = .ok (xorBytes d (ctrKeystream cfg K nonce ctr0 n j)) := by
  induction n generalizing j d with
  | zero =>
    rw [List.length_eq_zero_iff.1 (Nat.le_zero.1 hd)]
    rfl
  | succ n ih =>
    have hrest := ih (j + 1) (d := d.drop 16) (hrange.of_le (by omega)) (by rw [List.length_drop]; omega)
    have hsplit := xorBytes_append_right d (ctrKeystreamBlock cfg K nonce ctr0 j)
      (ctrKeystream cfg K nonce ctr0 n (j + 1))
    rw [ctrKeystreamBlock_length cfg nonce ctr0 hK] at hsplit
    rw [ctrBlocks, counterBlock_inRange (hrange.of_le (by omega)), hrest, ctrKeystream, hsplit,
      ← xorPrefix_eq_xorBytes (d.take 16)]
    rfl

end Keystream

/-! ## The transform (rule R209) -/

theorem ctrFits_iff {cfg : Config} {IV D : ByteString} :
    ctrFits cfg IV D ↔ ctrBlockCount D = 0 ∨ CounterInRange cfg (ctrInitial IV) (ctrBlockCount D - 1) := by
  have hnil : D = [] ↔ ctrBlockCount D = 0 := by
    rw [← List.length_eq_zero_iff, ctrBlockCount]
    omega
  rw [ctrFits, hnil, CounterInRange]

/-- The keystream that `ctr_xcrypt` uses for n blocks, from the nonce and the counter of the IV (rule R207). -/
def ctrStream (cfg : Config) (K IV : ByteString) (n : Nat) : ByteString :=
  ctrKeystream cfg K (ctrNonce IV) (ctrInitial IV) n 0

theorem length_le_ctrBlockCount (D : ByteString) : D.length ≤ 16 * ctrBlockCount D := by
  rw [ctrBlockCount]
  omega

section Transform
variable {cfg : Config} {K IV D : ByteString}

theorem ctrXcrypt_fits (hK : K.length = 32) (h : ctrFits cfg IV D) :
    ctrXcrypt cfg K IV D = .ok (xorBytes D (ctrStream cfg K IV (ctrBlockCount D))) := by
  have hlen := length_le_ctrBlockCount D
  by_cases hzero : ctrBlockCount D = 0
  · rw [hzero] at hlen
    rw [ctrXcrypt, if_pos hzero, List.length_eq_zero_iff.1 (Nat.le_zero.1 hlen)]
    rfl
  · have hrange := (ctrFits_iff.1 h).resolve_left hzero
    rw [ctrXcrypt, if_neg hzero, counterBlock_inRange hrange]
    exact ctrBlocks_eq_ok cfg _ _ hK 0 (by rwa [Nat.zero_add]) hlen

theorem ctrXcrypt_overflow (h : ¬ ctrFits cfg IV D) :
    ctrXcrypt cfg K IV D = .error (.counterOverflow (ctrBlockCount D - 1)) := by
  rw [ctrFits_iff, not_or] at h
  obtain ⟨hpos, hrange⟩ := h
  rw [ctrXcrypt, if_neg hpos, counterBlock_overflow hrange]

theorem xorBytes_ctrStream_length (hK : K.length = 32) :
    (xorBytes D (ctrStream cfg K IV (ctrBlockCount D))).length = D.length := by
  rw [xorBytes_length, ctrStream, ctrKeystream_length cfg _ _ hK, Nat.min_eq_left (length_le_ctrBlockCount D)]

/-- Byte i of the transform is data byte i XOR keystream byte i. -/
theorem xorBytes_ctrStream_getD (hK : K.length = 32) {i : Nat} (hi : i < D.length) :
    (xorBytes D (ctrStream cfg K IV (ctrBlockCount D))).getD i 0 = D.getD i 0 ^^^ ctrKeystreamByte cfg K IV i := by
  have hstream : i < 16 * ctrBlockCount D := hi.trans_le (length_le_ctrBlockCount D)
  rw [xorBytes_getD hi (by rwa [ctrStream, ctrKeystream_length cfg _ _ hK]), ctrStream,
    ctrKeystream_getD cfg _ _ hK 0 hstream, Nat.zero_add]
  rfl

end Transform

/-- Settles O37: the result has the data's length, so both calls use one keystream, and XOR with it twice cancels. -/
theorem ctrInvolution : Obligations.CtrInvolution := by
  intro cfg K IV D out hK hIV hout
  have hfits : ctrFits cfg IV D := by
    by_contra hpast
    rw [ctrXcrypt_overflow hpast] at hout
    cases hout
  rw [ctrXcrypt_fits hK hfits] at hout
  cases hout
  have hcount : ctrBlockCount (xorBytes D (ctrStream cfg K IV (ctrBlockCount D))) = ctrBlockCount D := by
    rw [ctrBlockCount, xorBytes_ctrStream_length hK, ctrBlockCount]
  have hstream : D.length ≤ (ctrStream cfg K IV (ctrBlockCount D)).length := by
    rw [ctrStream, ctrKeystream_length cfg _ _ hK]
    exact length_le_ctrBlockCount D
  rw [ctrXcrypt_fits hK (by rwa [ctrFits_iff, hcount, ← ctrFits_iff]), hcount, xorBytes_cancel _ _ hstream]

/-! ## The commands (rules R210, R211) -/

section Commands
variable {s : State} {K IV D : ByteString}

theorem exec_ctrEnc_fits (h : s.ModeOperands K IV D) (hfits : ctrFits s.cfg IV D) :
    exec .ctrEnc s = .next (s.afterOk (some (xorBytes D (ctrStream s.cfg K IV (ctrBlockCount D)))) none) := by
  rw [exec_ctrEnc h, ctrXcrypt_fits h.keyLength hfits]
  rfl

theorem exec_ctrEnc_overflow (h : s.ModeOperands K IV D) (hpast : ¬ ctrFits s.cfg IV D) :
    exec .ctrEnc s = .next (s.afterFault 5) := by
  rw [exec_ctrEnc h, ctrXcrypt_overflow hpast]
  rfl

end Commands

/-- Settles O34: the command ends with the data XOR the keystream. -/
theorem ctrEncCompletes : Obligations.CtrEncCompletes := by
  intro K IV D s hA hK hB hIV hC hfits
  exact ⟨_, exec_ctrEnc_fits ⟨hA, hK, hB, hIV, hC⟩ hfits, xorBytes_ctrStream_length hK,
    fun _ => xorBytes_ctrStream_getD hK⟩

/-- Settles O35: behind its length test CTR.DEC is CTR.ENC, which `ctrEncCompletes` describes. -/
theorem ctrDecOutcomes : Obligations.CtrDecOutcomes := by
  intro K IV D s hA hK hB hIV hC
  have hops : s.ModeOperands K IV D := ⟨hA, hK, hB, hIV, hC⟩
  refine ⟨exec_ctrDec_short hops, fun hlong => ?_⟩
  have hsame := exec_ctrDec_long hops hlong
  refine ⟨hsame, fun hfits => ?_⟩
  rw [hsame]
  exact ctrEncCompletes K IV D s hA hK hB hIV hC hfits

/-- Settles O36: the last counter is checked before any block, and CTR.DEC behind its length test is CTR.ENC. -/
theorem ctrCounterOverflowFaults : Obligations.CtrCounterOverflowFaults := by
  intro K IV D s hA hK hB hIV hC hpast
  have hops : s.ModeOperands K IV D := ⟨hA, hK, hB, hIV, hC⟩
  have henc := exec_ctrEnc_overflow hops hpast
  exact ⟨henc, fun hlong => (exec_ctrDec_long hops hlong).trans henc⟩

end Sys2Proof.Machine
end

section
/-! Draws from the entropy oracle: what each answer makes of a waiting command, taken in a command's own step or in a
step of the oracle (rules R13, R240, R263, R304), and the two FILL commands (rules R242 to R244). -/

namespace Sys2Proof.Machine

/-! ## What a draw makes of the answer that comes next (rules R240, R263, R304) -/

/-- Bytes are an answer to a draw of exactly as many (rule R13). -/
theorem OracleAnswer.bytes_fits {v : ByteString} {n : Nat} (h : v.length = n) : (OracleAnswer.bytes v).fits n = true :=
  decide_eq_true h

section Draws
variable (cfg : Config) (q : EntropyWait) {P pw salt iv v : ByteString} {n : Nat} (rest : List Move)

theorem runDraw_unavailable :
    runDraw cfg q (.answer .unavailable :: rest) = .done (.err .entropyUnavailable) rest := by
  cases q <;> rfl

theorem runDraw_rngFill_bytes (hv : v.length = n) :
    runDraw cfg (.rngFill n) (.answer (.bytes v) :: rest) = .done (.ok (some v) none) rest := by
  rw [runDraw, EntropyWait.wanted, if_pos (OracleAnswer.bytes_fits hv)]
  rfl

/-- With its salt, ENC.BYTES draws again. -/
theorem runDraw_encSalt_bytes (hsalt : salt.length = 32) :
    runDraw cfg (.encSalt P pw) (.answer (.bytes salt) :: rest) = runDraw cfg (.encIv P pw salt) rest := by
  rw [runDraw, EntropyWait.wanted, if_pos (OracleAnswer.bytes_fits hsalt)]
  rfl

theorem runDraw_encIv_bytes (hiv : iv.length = 16) :
    runDraw cfg (.encIv P pw salt) (.answer (.bytes iv) :: rest) =
      .done (.ok (some (encryptEnvelope cfg P pw salt iv)) none) rest := by
  rw [runDraw, EntropyWait.wanted, if_pos (OracleAnswer.bytes_fits hiv)]
  rfl

end Draws

/-! ## A draw in the step of its command, and in a step of the oracle -/

section Steps
variable {s : State} {q : EntropyWait} {o : CmdOutcome} {ms rest : List Move} {a : OracleAnswer}

theorem State.draw_of_done (h : runDraw s.cfg q s.schedule = .done o rest) :
    s.draw q = .next ((s.withSchedule rest).finish o) := by
  rw [State.draw, h]
  rfl

/-- The outcome of the draw that takes the answer is the outcome of the step, and a script that waits for it goes on. -/
theorem step_answer_of_done (hpending : s.block.pending = some q)
    (h : runDraw s.cfg q (.answer a :: ms) = .done o rest) :
    step (s.withSchedule (.answer a :: ms)) = .next ((s.noLongerPending.withSchedule rest).finish o).settle := by
  have hanswer : (s.withSchedule ms).answer a = (s.noLongerPending.withSchedule (.answer a :: ms)).draw q := by
    simp only [State.answer, State.withSchedule, hpending]
    rfl
  calc step (s.withSchedule (.answer a :: ms))
    _ = mapNext State.settle ((s.withSchedule ms).answer a) := rfl
    _ = .next ((s.noLongerPending.withSchedule rest).finish o).settle := by
      rw [hanswer, State.draw_of_done (s := s.noLongerPending.withSchedule (.answer a :: ms)) h]
      rfl

/-- While a command is pending the script stays at its statement. -/
theorem State.settle_of_pending (h : s.block.pending = some q) : s.settle = s := by
  simp [State.settle, h]

end Steps

/-- Settles O39: each clause is one outcome of `runDraw` on the answers that come next. -/
theorem oracleAnswerResumes : Obligations.OracleAnswerResumes := by
  intro s rest
  refine ⟨fun n v hpending hv => ?_, fun P pw salt hpending hsalt => ?_, fun P pw salt iv hpending hiv => ?_,
    fun q hpending => ?_⟩
  · exact step_answer_of_done hpending (runDraw_rngFill_bytes s.cfg rest hv)
  · have hdraw : runDraw s.cfg (.encSalt P pw) (.answer (.bytes salt) :: rest) =
        runDraw s.cfg (.encIv P pw salt) rest := runDraw_encSalt_bytes s.cfg rest hsalt
    refine ⟨fun hnone => ?_, fun iv rest' hrest hiv => ?_, fun rest' hrest => ?_⟩
    · rw [step_answer_of_done hpending (hdraw.trans (runDraw_waits s.cfg _ rest hnone)),
        State.settle_of_pending rfl]
      rfl
    · subst hrest
      exact step_answer_of_done hpending (hdraw.trans (runDraw_encIv_bytes s.cfg rest' hiv))
    · subst hrest
      exact step_answer_of_done hpending (hdraw.trans (runDraw_unavailable s.cfg _ rest'))
  · exact step_answer_of_done hpending (runDraw_encIv_bytes s.cfg rest hiv)
  · exact step_answer_of_done hpending (runDraw_unavailable s.cfg q rest)

/-! ## Byte counts (rule R85) -/

section Counts
variable {cfg : Config} {count : ByteString} {k : Nat → CmdOutcome}

theorem withCount_above (x : Slot) (h : beVal count > cfg.maxOperandLen) :
    withCount cfg x count k = .fault (.operandShape x (beVal count)) := if_pos h

theorem withCount_within (x : Slot) (h : beVal count ≤ cfg.maxOperandLen) :
    withCount cfg x count k = k (beVal count) := if_neg (Nat.not_lt.2 h)

end Counts

/-! ## RNG.FILL (rule R242) -/

section RngFill
variable {s : State} {count : ByteString} (hA : s.block.A = some count) (hcount : count.length = 4)
include hA hcount

theorem exec_rngFill_above (h : beVal count > s.cfg.maxOperandLen) : exec .rngFill s = .next (s.afterFault 1) := by
  rw [exec, execRngFill, performRngFill, withFixed_some (x := .a) hA hcount, withCount_above .a h]
  rfl

theorem exec_rngFill_zero (h : beVal count = 0) : exec .rngFill s = .next (s.afterOk (some []) none) := by
  have hwithin : beVal count ≤ s.cfg.maxOperandLen := h ▸ Nat.zero_le _
  rw [exec, execRngFill, performRngFill, withFixed_some (x := .a) hA hcount, withCount_within .a hwithin, if_pos h]
  rfl

theorem exec_rngFill_draws (hpos : 0 < beVal count) (hwithin : beVal count ≤ s.cfg.maxOperandLen) :
    exec .rngFill s = s.draw (.rngFill (beVal count)) := by
  rw [exec, execRngFill, performRngFill, withFixed_some (x := .a) hA hcount, withCount_within .a hwithin,
    if_neg hpos.ne', State.finishOrDraw]

end RngFill

/-- Settles O38: a count that is neither 0 nor above the bound draws, and the schedule says what the draw ends in. -/
theorem rngFillOutcomes : Obligations.RngFillOutcomes := by
  intro count s hA hcount
  refine ⟨exec_rngFill_above hA hcount, exec_rngFill_zero hA hcount, fun hpos hwithin => ?_⟩
  rw [exec_rngFill_draws hA hcount hpos hwithin]
  refine ⟨fun v rest hnext hv => ?_, fun rest hnext => ?_, fun hnone => ?_⟩
  · exact State.draw_of_done (hnext ▸ runDraw_rngFill_bytes s.cfg rest hv)
  · exact State.draw_of_done (hnext ▸ runDraw_unavailable s.cfg _ rest)
  · exact State.draw_of_done (runDraw_waits s.cfg _ s.schedule hnone)

/-! ## CHAOS.FILL (rules R243, R244) -/

theorem chaosGen_length (seed : ByteString) (n : Nat) : (chaosGen seed n).length = n := by
  rw [chaosGen, List.length_map, List.length_range]

section ChaosFill
variable {s : State} {seed count : ByteString} (hA : s.block.A = some seed) (hB : s.block.B = some count)
  (hcount : count.length = 4)
include hA hB hcount

/-- Behind its operands CHAOS.FILL asks for the generator first, then for the count's bound (rule R308). -/
theorem exec_chaosFill : exec .chaosFill s = .next (s.finish
    (if s.cfg.chaosPresent = false then .fault (.refused .chaosFill)
     else withCount s.cfg .b count fun n => .ok (some (chaosGen seed n)) none)) := by
  rw [exec, execChaosFill, withAny_some (x := .a) hA, withFixed_some (x := .b) hB hcount]

theorem exec_chaosFill_absent (h : s.cfg.chaosPresent = false) : exec .chaosFill s = .next (s.afterFault 6) := by
  rw [exec_chaosFill hA hB hcount, if_pos h]
  rfl

theorem exec_chaosFill_above (h : s.cfg.chaosPresent = true) (habove : beVal count > s.cfg.maxOperandLen) :
    exec .chaosFill s = .next (s.afterFault 1) := by
  rw [exec_chaosFill hA hB hcount, if_neg (by simp [h]), withCount_above .b habove]
  rfl

theorem exec_chaosFill_within (h : s.cfg.chaosPresent = true) (hwithin : beVal count ≤ s.cfg.maxOperandLen) :
    exec .chaosFill s = .next (s.afterOk (some (chaosGen seed (beVal count))) none) := by
  rw [exec_chaosFill hA hB hcount, if_neg (by simp [h]), withCount_within .b hwithin]
  rfl

end ChaosFill

/-- Settles O42: absent generator, count above the bound and any other count are the three ends of `exec_chaosFill`. -/
theorem chaosFillOutcomes : Obligations.ChaosFillOutcomes := by
  intro seed count s hA hB hcount
  exact ⟨exec_chaosFill_absent hA hB hcount, exec_chaosFill_above hA hB hcount,
    fun h hwithin => ⟨exec_chaosFill_within hA hB hcount h hwithin, chaosGen_length seed _⟩⟩

end Sys2Proof.Machine
end

section
/-! The envelope: its header and the two commands on it (rules R260 to R262), the ends of ENC.BYTES and DEC.BYTES (rules
R263, R264), the length of an envelope (rule R265), and the one undoing the other. -/

namespace Sys2Proof.Machine

/-! ## The header (rules R261, R262) -/

theorem envUnpack_of_length {header : ByteString} (h : header.length = 48) :
    envUnpack header = .ok (header.take 32, header.drop 32) := by
  rw [envUnpack, if_neg (not_not.2 h), slice, slice, List.drop_zero, List.take_of_length_le h.le]

theorem envUnpack_of_other_length {header : ByteString} (h : header.length ≠ 48) :
    envUnpack header = .error .invalidLength := if_pos h

theorem envUnpack_append {salt iv : ByteString} (hsalt : salt.length = 32) (hiv : iv.length = 16) :
    envUnpack (salt ++ iv) = .ok (salt, iv) := by
  rw [envUnpack_of_length (by rw [List.length_append, hsalt, hiv]), List.take_left' hsalt, List.drop_left' hsalt]

section HeaderCommands
variable {s : State} {header salt iv : ByteString}

theorem exec_envPack (hA : s.block.A = some salt) (hsalt : salt.length = 32) (hB : s.block.B = some iv)
    (hiv : iv.length = 16) : exec .envPack s = .next (s.afterOk (some (salt ++ iv)) none) := by
  rw [exec, execEnvPack, withFixed_some (x := .a) hA hsalt, withFixed_some (x := .b) hB hiv]
  rfl

theorem exec_envUnpack_unwritten (hA : s.block.A = none) : exec .envUnpack s = .next (s.afterFault 2) := by
  rw [exec, execEnvUnpack, withAny, withOperand_none (x := .a) hA]
  rfl

theorem exec_envUnpack_ok (hA : s.block.A = some header) (h : envUnpack header = .ok (salt, iv)) :
    exec .envUnpack s = .next (s.afterOk (some salt) (some iv)) := by
  rw [exec, execEnvUnpack, withAny_some (x := .a) hA, h]
  rfl

theorem exec_envUnpack_error {e : Error} (hA : s.block.A = some header) (h : envUnpack header = .error e) :
    exec .envUnpack s = .next (s.afterError (errorCode e)) := by
  rw [exec, execEnvUnpack, withAny_some (x := .a) hA, h]
  rfl

end HeaderCommands

/-- Settles O43: the header's length decides `envUnpack`, and 32 and 16 bytes joined have the length it asks for. -/
theorem envelopeHeaderCommands : Obligations.EnvelopeHeaderCommands := by
  refine ⟨fun _ => exec_envUnpack_unwritten, fun salt iv s hA hsalt hB hiv => ⟨exec_envPack hA hsalt hB hiv, ?_⟩,
    fun header s hA => ⟨fun hlen => ?_, fun hlen => ?_⟩⟩
  · exact exec_envUnpack_ok rfl (envUnpack_append hsalt hiv)
  · exact exec_envUnpack_ok hA (envUnpack_of_length hlen)
  · exact exec_envUnpack_error hA (envUnpack_of_other_length hlen)

/-! ## ENC.BYTES (rule R263) -/

theorem runDraw_encSalt_both (cfg : Config) {P pw salt iv : ByteString} (rest : List Move) (hsalt : salt.length = 32)
    (hiv : iv.length = 16) :
    runDraw cfg (.encSalt P pw) (.answer (.bytes salt) :: .answer (.bytes iv) :: rest) =
      .done (.ok (some (encryptEnvelope cfg P pw salt iv)) none) rest :=
  (runDraw_encSalt_bytes cfg _ hsalt).trans (runDraw_encIv_bytes cfg rest hiv)

section EncBytes
variable {s : State} {P pw : ByteString} (hA : s.block.A = some P) (hB : s.block.B = some pw)
include hA hB

theorem exec_encBytes_draws : exec .encBytes s = s.draw (.encSalt P pw) := by
  rw [exec, execEncBytes, performEncBytes, withAny_some (x := .a) hA, withAny_some (x := .b) hB, State.finishOrDraw]

/-- The outcome of the first draw on the moves to come, the second draw included, is the outcome of ENC.BYTES. -/
theorem exec_encBytes_of_done {o : CmdOutcome} {ms rest : List Move} (hnext : s.schedule = ms)
    (h : runDraw s.cfg (.encSalt P pw) ms = .done o rest) :
    exec .encBytes s = .next ((s.withSchedule rest).finish o) := by
  rw [exec_encBytes_draws hA hB, State.draw_of_done (hnext ▸ h)]

theorem exec_encBytes_answered {salt iv : ByteString} {rest : List Move}
    (hnext : s.schedule = .answer (.bytes salt) :: .answer (.bytes iv) :: rest) (hsalt : salt.length = 32)
    (hiv : iv.length = 16) :
    exec .encBytes s =
      .next ((s.withSchedule rest).afterOk (some (encryptEnvelope s.cfg P pw salt iv)) none) :=
  exec_encBytes_of_done hA hB hnext (runDraw_encSalt_both s.cfg rest hsalt hiv)

end EncBytes

/-- Settles O44: each clause is one outcome of `runDraw` on the answers that come next, for the salt and then the IV. -/
theorem encBytesOutcomes : Obligations.EncBytesOutcomes := by
  refine ⟨fun _ => exec_pair_unwritten rfl rfl, fun P pw s hA hB =>
    ⟨fun salt iv rest => exec_encBytes_answered hA hB, fun rest hnext => ?_, fun salt rest hnext hsalt => ?_,
      fun salt rest hnext hsalt hnone => ?_, fun hnone => ?_⟩⟩
  · exact exec_encBytes_of_done hA hB hnext (runDraw_unavailable s.cfg _ rest)
  · exact exec_encBytes_of_done hA hB hnext
      ((runDraw_encSalt_bytes s.cfg _ hsalt).trans (runDraw_unavailable s.cfg _ rest))
  · exact exec_encBytes_of_done hA hB hnext
      ((runDraw_encSalt_bytes s.cfg _ hsalt).trans (runDraw_waits s.cfg _ rest hnone))
  · exact exec_encBytes_of_done hA hB rfl (runDraw_waits s.cfg _ s.schedule hnone)

/-! ## The length of an envelope (rule R265) -/

theorem deriveKey_length (cfg : Config) (password salt : ByteString) : (deriveKey cfg password salt).length = 32 :=
  pbkdf2_length password salt cfg.iterCount 32

/-- Salt and IV are 48 bytes, and the ciphertext has one block more than the plaintext has whole ones. -/
theorem envelopeLengthFor_encryptEnvelope (cfg : Config) (P pw : ByteString) {salt iv : ByteString}
    (hsalt : salt.length = 32) (hiv : iv.length = 16) :
    EnvelopeLengthFor P.length (encryptEnvelope cfg P pw salt iv) := by
  have hlen : (encryptEnvelope cfg P pw salt iv).length = 48 + 16 * (P.length / 16 + 1) := by
    rw [encryptEnvelope, List.length_append, List.length_append, hsalt, hiv,
      cbcEncrypt_length cfg (deriveKey_length cfg pw salt)]
  exact ⟨hlen, by omega, fun hshort => by omega⟩

theorem State.finish_ok_settle_R0 (s : State) (r0 r1 : Option ByteString) :
    (s.finish (.ok r0 r1)).settle.block.R0 = r0 := by
  rw [State.settle_block, State.finish_block, Block.finish_ok, Block.complete_R0]

/-- Settles O46: in its own step and in a step of the oracle ENC.BYTES ends with `encryptEnvelope` in R0. -/
theorem envelopeLength : Obligations.EnvelopeLength := by
  intro P pw salt iv s rest hsalt hiv
  have hlen := envelopeLengthFor_encryptEnvelope s.cfg P pw hsalt hiv
  refine ⟨fun hA hB hnext => ?_, fun hpending => ?_, fun hpending => ?_⟩
  · exact ⟨_, _, exec_encBytes_answered hA hB hnext hsalt hiv, rfl, hlen⟩
  · have hdraw := runDraw_encSalt_both s.cfg (P := P) (pw := pw) rest hsalt hiv
    exact ⟨_, _, step_answer_of_done hpending hdraw, State.finish_ok_settle_R0 _ _ none, hlen⟩
  · have hdraw := runDraw_encIv_bytes s.cfg (P := P) (pw := pw) (salt := salt) rest hiv
    exact ⟨_, _, step_answer_of_done hpending hdraw, State.finish_ok_settle_R0 _ _ none, hlen⟩

/-! ## DEC.BYTES (rule R264) -/

/-- Past the length test only the padding test is left to fail (rule R204). -/
theorem cbcDecrypt_of_no_plaintext {cfg : Config} {K IV C : ByteString} (hlen : 16 ≤ C.length)
    (halign : C.length % 16 = 0) (h : ∀ m, cbcDecrypt cfg K IV C ≠ .ok m) :
    cbcDecrypt cfg K IV C = .error .invalidPadding := by
  rw [cbcDecrypt, if_neg (by omega)] at h ⊢
  cases hp : pkcs7Unpad (cbcDecryptBlocks cfg K IV (blocks C)) with
  | ok m => exact absurd hp (h m)
  | error e => rw [pkcs7Unpad_error hp]

theorem slice_to_length (s : ByteString) (a : Nat) : slice s a s.length = s.drop a := by
  rw [slice, List.take_length]

section DecryptEnvelope
variable (cfg : Config) (pw : ByteString) {E : ByteString}

/-- With its whole header there, an envelope is salt, IV and ciphertext (rule R260). -/
theorem decryptEnvelope_of_header (h : 48 ≤ E.length) :
    decryptEnvelope cfg E pw =
      cbcDecrypt cfg (deriveKey cfg pw (slice E 0 32)) (slice E 32 48) (E.drop 48) := by
  rw [decryptEnvelope, if_neg (Nat.not_lt.2 h), slice_to_length]

/-- The three lengths of rule R264 are one error: no whole header, no ciphertext block, a partial last block. -/
theorem decryptEnvelope_of_bad_length (h : E.length < 64 ∨ E.length % 16 ≠ 0) :
    decryptEnvelope cfg E pw = .error .invalidLength := by
  rcases Nat.lt_or_ge E.length 48 with hheader | hheader
  · exact if_pos hheader
  · have hclen : (E.drop 48).length = E.length - 48 := List.length_drop
    rw [decryptEnvelope_of_header cfg pw hheader, cbcDecrypt, if_pos (by omega)]

/-- The header of an envelope gives the key and the IV it was made with, so rule R206 gives the plaintext back. -/
theorem decryptEnvelope_encryptEnvelope (P : ByteString) {salt iv : ByteString} (hsalt : salt.length = 32)
    (hiv : iv.length = 16) : decryptEnvelope cfg (encryptEnvelope cfg P pw salt iv) pw = .ok P := by
  have hlen := (envelopeLengthFor_encryptEnvelope cfg P pw hsalt hiv).least
  have hheader : (salt ++ iv).length = 48 := by rw [List.length_append, hsalt, hiv]
  rw [decryptEnvelope_of_header cfg pw (by omega), encryptEnvelope, List.drop_left' hheader, List.append_assoc,
    slice_first salt _ 32 hsalt, slice_behind salt _ 32 32 48 hsalt le_rfl, slice_first iv _ 16 hiv]
  exact cbcDecrypt_cbcEncrypt cfg (deriveKey_length cfg pw salt) hiv P

end DecryptEnvelope

section DecBytes
variable {s : State} {E pw : ByteString} (hA : s.block.A = some E) (hB : s.block.B = some pw)
include hA hB

theorem exec_decBytes_ok {m : ByteString} (h : decryptEnvelope s.cfg E pw = .ok m) :
    exec .decBytes s = .next (s.afterOk (some m) none) := by
  rw [exec, execDecBytes, withAny_some (x := .a) hA, withAny_some (x := .b) hB, h]
  rfl

theorem exec_decBytes_error {e : Error} (h : decryptEnvelope s.cfg E pw = .error e) :
    exec .decBytes s = .next (s.afterError (errorCode e)) := by
  rw [exec, execDecBytes, withAny_some (x := .a) hA, withAny_some (x := .b) hB, h]
  rfl

end DecBytes

/-- Settles O45: the length of the envelope decides first, then what `cbcDecrypt` gives for its ciphertext. -/
theorem decBytesOutcomes : Obligations.DecBytesOutcomes := by
  refine ⟨fun _ => exec_pair_unwritten rfl rfl, fun E pw s hA hB => ⟨fun hbad => ?_, fun hlen halign => ?_⟩⟩
  · exact exec_decBytes_error hA hB (decryptEnvelope_of_bad_length s.cfg pw hbad)
  · have hcbc := decryptEnvelope_of_header s.cfg pw (E := E) (by omega)
    have hclen : (E.drop 48).length = E.length - 48 := List.length_drop
    refine ⟨fun m hm => exec_decBytes_ok hA hB (hcbc.trans hm), fun hm => ?_⟩
    exact exec_decBytes_error hA hB (hcbc.trans (cbcDecrypt_of_no_plaintext (by omega) (by omega) hm))

/-! ## The end-to-end round trip (rules R263, R264) -/

/-- Settles O47: what DEC.BYTES reads in slot A is the envelope ENC.BYTES left in R0, under the same password. -/
theorem envelopeRoundTrip : Obligations.EnvelopeRoundTrip := by
  intro P pw salt iv s rest hA hB hnext hsalt hiv
  have henc := exec_encBytes_answered hA hB hnext hsalt hiv
  have hplain := decryptEnvelope_encryptEnvelope s.cfg pw P hsalt hiv
  generalize encryptEnvelope s.cfg P pw salt iv = E at henc hplain
  have hdec := exec_decBytes_ok (s := ((s.withSchedule rest).afterOk (some E) none).replaceSlot .a (some E))
    rfl hB hplain
  rw [henc]
  exact ⟨_, hdec, rfl, rfl, rfl⟩

end Sys2Proof.Machine
end

section
/-! What the exceptional states exclude: the commands that raise no error, the code that no step writes, and a halted core
(rules R300, R303, R307). -/

namespace Sys2Proof.Machine

/-! ## Commands without an error (rule R300) -/

/-- The outcome is a completion or a fault: no error is raised, and nothing is drawn. -/
def CmdOutcome.OkOrFault : CmdOutcome → Prop
  | .ok _ _ | .okHash _ _ _ | .fault _ => True
  | .err _ | .wait _ => False

theorem CmdOutcome.HashKind.okOrFault {c : Nat} {o : CmdOutcome} (h : o.HashKind c) : o.OkOrFault := by
  rcases h with ⟨k, rfl⟩ | ⟨x, r0, rfl⟩ <;> trivial

section Operands
variable {b : Block} {x : Slot} {k : ByteString → CmdOutcome}

theorem okOrFault_operand {len : Option Nat} (h : ∀ v, (k v).OkOrFault) : (withOperand b x len k).OkOrFault := by
  rcases withOperand_cases b x len k with ⟨f, -, e⟩ | ⟨v, -, -, e⟩ <;> rw [e]
  · trivial
  · exact h v

theorem okOrFault_any (h : ∀ v, (k v).OkOrFault) : (withAny b x k).OkOrFault := okOrFault_operand h

theorem okOrFault_fixed {n : Nat} (h : ∀ v, (k v).OkOrFault) : (withFixed b x n k).OkOrFault := okOrFault_operand h

theorem okOrFault_mode {k : ByteString → ByteString → ByteString → CmdOutcome} (h : ∀ u v w, (k u v w).OkOrFault) :
    (withModeOperands b k).OkOrFault :=
  okOrFault_fixed fun u => okOrFault_fixed fun v => okOrFault_any fun w => h u v w

theorem okOrFault_count {cfg : Config} {count : ByteString} {k : Nat → CmdOutcome} (h : ∀ n, (k n).OkOrFault) :
    (withCount cfg x count k).OkOrFault := by
  unfold withCount
  split
  · trivial
  · exact h _

theorem okOrFault_ctx {i : Instr} {c : Nat} {k : HashCtx → CmdOutcome} (h : ∀ y, (k y).OkOrFault) :
    (withCtx b i c k).OkOrFault := by
  unfold withCtx
  split
  · trivial
  · exact h _

end Operands

/-- Every command that rule R300 gives no error ends with a completion or a fault. -/
theorem exec_okOrFault {i : Instr} (s : State) (hcbc : i ≠ .cbcDec) (hctr : i ≠ .ctrDec) (hunpack : i ≠ .envUnpack)
    (hdec : i ≠ .decBytes) (hrng : i ≠ .rngFill) (henc : i ≠ .encBytes) :
    ∃ o, exec i s = .next (s.finish o) ∧ o.OkOrFault := by
  cases i with
  | cbcDec => exact absurd rfl hcbc
  | ctrDec => exact absurd rfl hctr
  | envUnpack => exact absurd rfl hunpack
  | decBytes => exact absurd rfl hdec
  | rngFill => exact absurd rfl hrng
  | encBytes => exact absurd rfl henc
  | hashInit c => exact ⟨_, rfl, okOrFault_ctx fun _ => trivial⟩
  | hashUpdate c =>
    exact ⟨_, rfl, okOrFault_ctx fun x => okOrFault_any fun data => (hashKind_update c x data).okOrFault⟩
  | hashFinal c => exact ⟨_, rfl, okOrFault_ctx fun x => (hashKind_final c x).okOrFault⟩
  | hmac | kdf => exact ⟨_, rfl, okOrFault_any fun _ => okOrFault_any fun _ => trivial⟩
  | blkEnc | blkDec | envPack => exact ⟨_, rfl, okOrFault_fixed fun _ => okOrFault_fixed fun _ => trivial⟩
  | cbcEnc => exact ⟨_, rfl, okOrFault_mode fun _ _ _ => trivial⟩
  | ctrEnc =>
    refine ⟨_, rfl, okOrFault_mode fun key iv data => ?_⟩
    cases ctrXcrypt s.cfg key iv data <;> trivial
  | chaosFill =>
    refine ⟨_, rfl, okOrFault_any fun _ => okOrFault_fixed fun _ => ?_⟩
    split
    · trivial
    · exact okOrFault_count fun _ => trivial

/-- Settles O13: the outcome of such a command is a completion, which sets STATUS to OK, or a fault. -/
theorem errorFreeCommands : Obligations.ErrorFreeCommands := by
  intro i s t hcbc hctr hunpack hdec hrng henc hexec
  obtain ⟨o, hrun, ho⟩ := exec_okOrFault s hcbc hctr hunpack hdec hrng henc
  obtain rfl : s.finish o = t := Host.Outcome.next.inj (hrun.symm.trans hexec)
  cases o with
  | ok r0 r1 => exact .inl ⟨rfl, rfl⟩
  | okHash c x r0 => exact .inl ⟨rfl, rfl⟩
  | fault k => exact .inr ⟨faultBit k, faultBit_lt k, State.finish_fault s k⟩
  | err e => exact ho.elim
  | wait q => exact ho.elim

/-! ## The code that is never written (rule R303) -/

/-- `finish` leaves STATUS alone, sets it to OK, or sets it to the code of its error. -/
theorem Block.finish_STATUS (b : Block) (o : CmdOutcome) :
    (b.finish o).STATUS = b.STATUS ∨ (b.finish o).STATUS = 0#32 ∨
      ∃ e, o = .err e ∧ (b.finish o).STATUS = errorCode e := by
  cases o with
  | ok r0 r1 => exact .inr (.inl rfl)
  | okHash c x r0 => exact .inr (.inl rfl)
  | err e => exact .inr (.inr ⟨e, rfl, rfl⟩)
  | fault k => exact .inl rfl
  | wait q => exact .inl rfl

theorem errorCode_ne_four {e : Error} (h : e ≠ .ioFailure) : errorCode e ≠ 4#32 := fun he =>
  absurd (he ▸ errorCode_mem h) (by decide)

theorem Block.finish_STATUS_ne_four {b : Block} {o : CmdOutcome} (hb : b.STATUS ≠ 4#32) (ho : o.NoIoFailure) :
    (b.finish o).STATUS ≠ 4#32 := by
  rcases b.finish_STATUS o with h | h | ⟨e, rfl, h⟩ <;> rw [h]
  · exact hb
  · decide
  · exact errorCode_ne_four fun he => ho (congrArg _ he)

theorem CmdOutcome.KeepsInv.noIoFailure {o : CmdOutcome} (h : o.KeepsInv) : o.NoIoFailure := by
  rintro rfl
  exact h rfl

/-- Settles O14: STATUS is written by RESET and by the end of a command, and no outcome of a command is IoFailure. -/
theorem ioFailureNeverWritten : Obligations.IoFailureNeverWritten := by
  intro s t hstep hs
  cases step_blockMove hstep with
  | same hb => rwa [hb]
  | slot x v _ _ hb => rwa [hb, Block.setSlot_STATUS]
  | cmd i u t' _ _ hblock _ hruns hb =>
    obtain ⟨o, rest, rfl, -, -, hio, -⟩ := exec_next hruns
    rw [hb]
    exact Block.finish_STATUS_ne_four (b := u.block) (by rwa [hblock]) hio
  | illegal w _ hb => rwa [hb, Block.takeFault_STATUS]
  | answer q o ms rest _ hdraw hb =>
    rw [hb]
    exact Block.finish_STATUS_ne_four hs (runDraw_keepsInv hdraw).noIoFailure
  | reset hb =>
    rw [hb]
    show (0#32 : Word) ≠ 4#32
    decide

/-! ## A halted core (rules R36, R307) -/

section Halted
variable {s : State} (hhalt : s.block.FAULT ≠ 0#32)
include hhalt

/-- With nothing pending only a slot write and RESET change the block of a halted core. -/
theorem BlockMove.of_halted {b : Block} (h : BlockMove s b) (hidle : s.block.pending = none) :
    b = s.block ∨ (∃ x v, b = s.block.setSlot x v) ∨ b = Block.reset s.cfg.hashCtxCount := by
  cases h with
  | same hb => exact .inl hb
  | slot x v _ _ hb => exact .inr (.inl ⟨x, v, hb⟩)
  | cmd i u t hready => exact absurd hready.notHalted hhalt
  | illegal w hready => exact absurd hready.notHalted hhalt
  | answer q o ms rest hpending => exact absurd (hidle.symm.trans hpending) nofun
  | reset hb => exact .inr (.inr hb)

/-- A CMD write to a halted core is no step of the block (rule R89). -/
theorem issueCommand_of_halted (w : Word) : issueCommand exec w s = .next s := by
  simp [issueCommand, Block.halted, hhalt]

/-- The host goes on past the statement (assumption log 6). -/
theorem scriptMove_cmd_of_halted {w : Word} (hidle : s.block.pending = none)
    (hfetch : s.host.fetch = some (.act (.cmd w))) : scriptMove exec s = .next s.advance := by
  rw [scriptMove_act hidle hfetch, hostAct, issueCommand_of_halted hhalt, mapNext_next,
    State.afterStatement_of_idle hidle]

end Halted

/-- Settles O52: of the moves that a halted core takes, RESET alone writes more than an operand slot, and a move that is
no RESET keeps FAULT (`faultIsSticky`), which RESET clears. -/
theorem haltedCoreIsFrozen : Obligations.HaltedCoreIsFrozen := by
  refine ⟨fun s t hhalt hidle hstep hreset => ?_, fun s w hhalt hidle hfetch => ?_⟩
  · rcases (step_blockMove hstep).of_halted hhalt hidle with hb | ⟨x, v, hb⟩ | hb
    · rw [hb]
      exact ⟨rfl, rfl, rfl, rfl, rfl, hidle⟩
    · rw [hb]
      simp [hidle]
    · have hkept : t.block.FAULT &&& s.block.FAULT = s.block.FAULT := faultIsSticky s t hstep hreset
      have hcleared : t.block.FAULT = 0#32 := by rw [hb]; rfl
      rw [hcleared, BitVec.zero_and] at hkept
      exact absurd hkept.symm hhalt
  · exact scriptMove_cmd_of_halted (s := s.withSchedule []) hhalt hidle hfetch

end Sys2Proof.Machine
end

section
/-! What RESET leaves, the state right after reset, and the configuration that no step changes (rules R340, R342). -/

namespace Sys2Proof.Machine

/-! ## RESET (rule R340) -/

/-- Rule R340 speaks of the block and the configuration alone. -/
theorem State.ResetTo.of_block {s t : State} (hcfg : t.cfg = s.cfg)
    (hblock : t.block = Block.reset s.cfg.hashCtxCount) : s.ResetTo t := by
  obtain ⟨cfg, block, host, schedule⟩ := t
  obtain rfl : cfg = s.cfg := hcfg
  obtain rfl : block = Block.reset s.cfg.hashCtxCount := hblock
  have hunset : ∀ x ∈ (Block.reset s.cfg.hashCtxCount).ctx, x.phase = .unset := fun x hx => by
    rw [List.eq_of_mem_replicate hx]
    rfl
  exact ⟨rfl, rfl, rfl, rfl, rfl, rfl, rfl, rfl, rfl, List.length_replicate, hunset, rfl, rfl⟩

/-- After `settle` no script waits when nothing is pending (assumption log 5). -/
theorem State.settle_awaiting_of_idle {s : State} (hidle : s.block.pending = none) :
    s.settle.host.awaiting = false :=
  Bool.eq_false_of_not_eq_true fun hwait => by simpa [hidle] using s.settle_awaiting hwait

/-- The statement RESET of a script, with nothing pending (rules R86, R87). -/
theorem scriptMove_reset {s : State} (hidle : s.block.pending = none) (hfetch : s.host.fetch = some (.act .reset)) :
    scriptMove exec s = .next s.applyReset.advance := by
  rw [scriptMove_act hidle hfetch, hostAct, mapNext_next, State.afterStatement_of_idle rfl]

/-- Settles O53: both ways of RESET leave `Block.reset` and the configuration; the host's own move also ends the wait,
so that an answer finds nothing pending. -/
theorem resetMove : Obligations.ResetMove := by
  intro s rest
  constructor
  · have hidle : (s.withSchedule rest).applyReset.settle.block.pending = none := by
      rw [State.settle_block]
      rfl
    have hfree : (s.withSchedule rest).applyReset.settle.host.awaiting = false := State.settle_awaiting_of_idle rfl
    exact ⟨(s.withSchedule rest).applyReset.settle, step_host s .reset rest,
      .of_block (State.settle_cfg _) (State.settle_block _), State.settle_schedule _, hfree,
      fun a => step_answer_discarded hidle hfree a rest⟩
  · intro hidle hfetch
    have hmove : ∀ ms, scriptMove exec (s.withSchedule ms) = .next (s.withSchedule ms).applyReset.advance :=
      fun _ => scriptMove_reset hidle hfetch
    exact ⟨(s.withSchedule []).applyReset.advance, hmove [], hmove rest, .of_block rfl rfl, rfl, rfl⟩

/-! ## The configuration (rule R342) -/

/-- Settles O58, by `step_cfg`: each kind of move keeps the configuration. -/
theorem configurationIsFixed : Obligations.ConfigurationIsFixed := fun _ _ hstep => step_cfg hstep

/-! ## The state right after reset (rule R340) -/

/-- Settles O54: the block is `Block.reset` of the hardware's one context, and CFG_ITER and CFG_NCTX read its
configuration. -/
theorem resetValues : Obligations.ResetValues := by
  have hreset : State.reset.ResetTo State.reset := .of_block rfl rfl
  have hcmd : State.reset.readOffset 0x00 = 0#32 := rfl
  have hstatus : State.reset.readOffset 0x04 = 0#32 := rfl
  have hfault : State.reset.readOffset 0x08 = 0#32 := rfl
  have hiter : State.reset.readOffset 0x0C = 0x000186A0#32 := hreset.cfgIter
  have hnctx : State.reset.readOffset 0x10 = 0x00000001#32 := hreset.cfgNctx
  exact ⟨hreset.A, hreset.B, hreset.C, hreset.R0, hreset.R1, hreset.pending, hcmd, hstatus, hfault, hiter, hnctx,
    rfl, rfl, rfl, rfl⟩

/-- Settles O60: the block's clauses hold of every `Block.reset`, and the idle host waits for nothing. -/
theorem invariantAtReset : Obligations.InvariantAtReset :=
  State.inv_iff.2 ⟨Block.Inv.reset Config.hardware, nofun⟩

end Sys2Proof.Machine
end
